-- ==== Sys2Proof/Word.lean ====
section
/-! DEFINITION. The word types of the c620_pid CORE (spec/00_scope.md rules R9 and R11).

The block has no byte memory and no general word size; it has the handful of widths below. A bit
vector stands for what the spec treats as bits: register contents, payload bytes, frame and command
words. Mathematical integers (the slot index, exact sums before rounding) are `Int` and `Nat`. -/

namespace Sys2Proof

/-- One payload byte of a frame (`u8`). -/
abbrev Byte := BitVec 8

/-- A `u16` field. -/
abbrev U16 := BitVec 16

/-- An `i16` field, two's complement (rule R9, decision D23); its integer is `BitVec.toInt`. -/
abbrev I16 := BitVec 16

/-- The 32 bits of an `f32`: bit 31 sign, 30:23 exponent, 22:0 fraction (rules R11 and R89). -/
abbrev F32 := BitVec 32

/-- A timebase count. TIME_W is a parameter of 1 to 64 bits (rule R8): a count is held in 64 bits and
every read of the timebase and of a period operand is reduced modulo `2 ^ TIME_W`. -/
abbrev Time := BitVec 64

/-- A frame in the canonical 106-bit layout (rule R81). -/
abbrev FrameBits := BitVec 106

/-- A host command word (rule R87). -/
abbrev CmdWord := BitVec 164

end Sys2Proof
end

