-- ==== Sys2Proof/Syntax.lean ====
section
/-! DEFINITION. The frame record, the five encoded spaces, and the ONE inductive of operations: a
constructor for each of the 34 rows of spec/opcode_table.json. -/

namespace Sys2Proof

/-- A bus frame (spec/30_encoding.md rule R80); `payload[0]` is first on the wire. -/
structure Frame where
  id         : BitVec 32
  isStandard : Bool
  isData     : Bool
  length     : Byte
  payload    : Vector Byte 8
  deriving DecidableEq, Repr

/-- The position of a micro-operation in its phase, the table's `seq` field (rule R91). -/
inductive Seq where
  | first
  | second
  deriving DecidableEq, Repr

/-- An encoded object in the space it belongs to. The five formats of the opcode table (rule R93) are
separate spaces: the same header bits are a telemetry frame inbound and frame A outbound, and the
same 4-bit phase code selects two micro-operations told apart by `seq`. -/
inductive Encoded where
  | frameIn  (b : FrameBits)                  -- FRAME_IN: a frame the bus hands to the block
  | frameOut (b : FrameBits)                  -- FRAME_OUT: a frame the block offers to the bus
  | cmd      (w : CmdWord)                    -- CMD: a word on the host's command port
  | uop      (phase : BitVec 4) (seq : Seq)   -- UOP: the PHASE register and the position in the phase
  | port     (sel : BitVec 3)                 -- PORT: the debug port's slot select
  deriving DecidableEq, Repr

/-- One constructor per row of spec/opcode_table.json. -/
inductive Instr where
  -- FRAME_IN (rules R82 to R84): one telemetry identifier each; the identifier selects the slot
  | telem200 (angle : U16) (rpm cur : I16) (temp : Byte)
  | telem201 (angle : U16) (rpm cur : I16) (temp : Byte)
  | telem202 (angle : U16) (rpm cur : I16) (temp : Byte)
  | telem203 (angle : U16) (rpm cur : I16) (temp : Byte)
  | telem204 (angle : U16) (rpm cur : I16) (temp : Byte)
  | telem205 (angle : U16) (rpm cur : I16) (temp : Byte)
  | telem206 (angle : U16) (rpm cur : I16) (temp : Byte)
  | telem207 (angle : U16) (rpm cur : I16) (temp : Byte)
  | telem208 (angle : U16) (rpm cur : I16) (temp : Byte)
  -- FRAME_OUT (rules R85 and R86): four commands each
  | cmdFrameA (c0 c1 c2 c3 : I16)
  | cmdFrameB (c4 c5 c6 c7 : I16)
  -- CMD (rules R87 to R89): the eight host commands
  | pidReset
  | setParam (kp ki kd lo hi : F32)
  | setGain (kp ki kd : F32)
  | setLimit (lo hi : F32)
  | setTarget (rpm : F32)
  | setSlot (slot : Byte)
  | setPeriod (lo hi : BitVec 32)
  | start
  -- UOP (rules R90 and R91): the micro-operations and phase-level operations
  | idleStep
  | tryReceive
  | decodeTelemetry
  | regUpdate
  | slotRd
  | calc3
  | calcPid
  | quant
  | slotWrCmd
  | snapshot
  | encodeCommands
  | trySendA
  | trySendB
  | halt
  -- PORT (rule R139)
  | dbgRead (sel : BitVec 3)
  deriving DecidableEq, Repr

end Sys2Proof
end

