-- ==== Sys2Proof/Config.lean ====
section
/-! DEFINITION. What an implementation fixes, and the free values.

`Params` holds the OPEN parameters of spec/00_scope.md rule R8 with the spec's defaults, the arithmetic
among them: `FP` is the arithmetic record of rules R8, R11 and R150, and `FpChoice` is the plain datum
that names one (Machine/Float.lean writes the default record and gives the record of a choice). The
opaque constants under `Config` are the free values: nothing in Lean can evaluate one, so no claim can
rest on its value. -/

namespace Sys2Proof

/-- ID200_POLICY (rules R8 and R131): what an accepted telemetry frame with identifier 0x200 does. -/
inductive Id200Policy where
  | fault
  | drop
  deriving DecidableEq, Repr

/-- The arithmetic record FP the block is built with (rules R8 and R150): the default, or any other one. A
statement for every state is a statement for every record, since nothing is known of the others. -/
inductive FpChoice where
  | binary32
  | other (n : Nat)
  deriving DecidableEq, Repr

/-- The parameters of rule R8. -/
structure Params where
  fp        : FpChoice     -- FP, the arithmetic
  filterDiv : F32          -- FILTER_DIV, the derivative filter's divisor
  id200     : Id200Policy  -- ID200_POLICY
  timeW     : Nat          -- TIME_W, 1 to 64
  deriving DecidableEq, Repr

/-- The spec's default values: FP = IEEE 754 binary32, FILTER_DIV = 8.0, ID200_POLICY = FAULT, TIME_W = 32
(rule R8). -/
def Params.default : Params := { fp := .binary32, filterDiv := 0x41000000#32, id200 := .fault, timeW := 32 }

/-- The arithmetic behind the type name f32, as a record of total functions (rules R8 and R11). -/
structure FP where
  fadd      : F32 → F32 → F32
  fsub      : F32 → F32 → F32
  fmul      : F32 → F32 → F32
  fdiv      : F32 → F32 → F32
  flt       : F32 → F32 → Bool
  fle       : F32 → F32 → Bool
  isNan     : F32 → Bool
  i16ToF32  : I16 → F32
  froundHaz : F32 → F32
  f32ToInt  : F32 → Int
  deriving Inhabited

/-- The four rounding operations, to index the free NaN. -/
inductive FpOp where
  | add
  | sub
  | mul
  | div
  deriving DecidableEq, Repr

/-- What an outside party does between two steps of the control loop: the reset event (rule R260) or a
debug read (rule R72). -/
inductive ExtEvent where
  | reset
  | dbgRead (sel : BitVec 3)
  deriving DecidableEq, Repr

/-- OPEN (log 22): the arithmetic records other than the default (rule R8). -/
opaque Config.otherFP : Nat → FP

/-- FREE VALUE (log 1): the sign and payload of the NaN an operation produces on these operands.
Rule R11: "Which NaN (sign, payload) an operation produces is not specified: any NaN". -/
opaque Config.freeNan : FpOp → F32 → F32 → BitVec 32

/-- FREE VALUE (log 2): the bits PID_RESET leaves in PREV_PR (rules R33 and R171). -/
opaque Config.freePrevPr : Nat → F32

/-- FREE VALUE (log 3): the answer of `try_receive()` where the state's tape names none (rule R13). -/
opaque Config.freeRx : Nat → Option Frame

/-- FREE VALUE (log 3): the answer of `try_send` where the state's tape names none (rule R13). -/
opaque Config.freeTx : Nat → Bool

/-- FREE VALUE (log 3): the reading of `now()` where the state's tape names none (rule R13). -/
opaque Config.freeNow : Nat → Time

/-- FREE VALUE (log 3): the reading of `dt_in()` where the state's tape names none (rule R13). -/
opaque Config.freeDt : Nat → F32

/-- FREE VALUE (log 3): the answer of `cmd_pending()` where the state's tape names none (rule R13). -/
opaque Config.freeCmd : Nat → Option CmdWord

/-- FREE VALUE (log 17): the outside event before a step, or none, where the state's tape names neither
(rules R72, R191 and R260). -/
opaque Config.freeExt : Nat → Option ExtEvent

end Sys2Proof
end

