-- ==== Sys2Proof/Machine/Float.lean ====
section
/-! DEFINITION. IEEE 754 binary32, the default FP record (spec/00_scope.md rule R11, spec/42_velocity_pid.md
rules R150 to R153).

Every finite f32 is an integer multiple of 2^-149, so the exact real value of an operand is an `Int`
of such units, an exact sum is an `Int`, and an exact product or quotient is a fraction of two `Nat`s.
Each operation computes its exact result and rounds once, to nearest, ties to even. -/

namespace Sys2Proof

namespace F32

/-- +0.0. -/
def posZero : F32 := 0x00000000#32
/-- -0.0. -/
def negZero : F32 := 0x80000000#32
/-- 16384.0, CMD_SCALE and the upper command bound (rules R7 and R206). -/
def cmdMax : F32 := 0x46800000#32
/-- -16384.0. -/
def cmdMin : F32 := 0xC6800000#32

/-- Bit 31. -/
def sign (a : F32) : Bool := a.msb
/-- The exponent field, bits 30:23. -/
def expo (a : F32) : Nat := a.toNat / 2 ^ 23 % 2 ^ 8
/-- The fraction field, bits 22:0. -/
def frac (a : F32) : Nat := a.toNat % 2 ^ 23

/-- A NaN: exponent all ones, fraction not zero. -/
def isNan (a : F32) : Bool := expo a == 255 && frac a != 0
/-- An infinity. -/
def isInf (a : F32) : Bool := expo a == 255 && frac a == 0
/-- A zero of either sign. -/
def isZero (a : F32) : Bool := expo a == 0 && frac a == 0
/-- Neither an infinity nor a NaN. -/
def isFinite (a : F32) : Bool := expo a != 255

/-- The magnitude in units of 2^-149: a subnormal's fraction, or the significand with its hidden bit
scaled by the exponent. An infinity gets 2^277, above every finite magnitude. -/
def mag (a : F32) : Nat :=
  if expo a = 0 then frac a else (2 ^ 23 + frac a) * 2 ^ (expo a - 1)

/-- The exact value in units of 2^-149. -/
def val (a : F32) : Int := if sign a then -(mag a : Int) else (mag a : Int)

/-- The infinity of the given sign. -/
def inf (s : Bool) : F32 := BitVec.ofBool s ++ 0xFF#8 ++ 0#23
/-- The zero of the given sign. -/
def zero (s : Bool) : F32 := BitVec.ofBool s ++ 0#31
/-- The other sign, every other bit kept. -/
def neg (a : F32) : F32 := a ^^^ 0x80000000#32

/-- The NaN an operation produces: sign and fraction are free (rule R11), the fraction never zero. -/
def nanOf (op : FpOp) (a b : F32) : F32 :=
  let x := Config.freeNan op a b
  let f := x.extractLsb' 0 23
  BitVec.ofBool x.msb ++ 0xFF#8 ++ (if f = 0#23 then 1#23 else f)

/-- The f32 of a sign and a representable magnitude: subnormal below 2^23 units, an infinity from 2^277
units on. -/
def pack (s : Bool) (m : Nat) : F32 :=
  if m < 2 ^ 23 then BitVec.ofBool s ++ BitVec.ofNat 31 m
  else
    let l := Nat.log2 m
    if 277 ≤ l then inf s
    else BitVec.ofBool s ++ BitVec.ofNat 8 (l - 22) ++ BitVec.ofNat 23 (m / 2 ^ (l - 23))

/-- Round `num / den` units to a magnitude of 24 significant bits or fewer: to nearest, ties to even. -/
def roundMag (num den : Nat) : Nat :=
  let q := num / den
  let k := if q < 2 ^ 24 then 0 else Nat.log2 q - 23
  let d := den * 2 ^ k
  let m := num / d
  let r := num % d
  (if d < 2 * r ∨ (d = 2 * r ∧ m % 2 = 1) then m + 1 else m) * 2 ^ k

/-- `a + b` with `nan` the NaN to give where the sum is one: a NaN operand or inf - inf. An exact zero
sum is +0.0 unless both operands are -0.0. -/
def addWith (nan a b : F32) : F32 :=
  if isNan a || isNan b then nan
  else if isInf a then (if isInf b && (sign a != sign b) then nan else a)
  else if isInf b then b
  else
    let v := val a + val b
    if v = 0 then zero (sign a && sign b)
    else pack (decide (v < 0)) (roundMag v.natAbs 1)

/-- fadd. -/
def add (a b : F32) : F32 := addWith (nanOf .add a b) a b

/-- fsub. -/
def sub (a b : F32) : F32 := addWith (nanOf .sub a b) a (neg b)

/-- fmul: a NaN for a NaN operand and for 0 * inf; the sign is the exclusive or of the signs. -/
def mul (a b : F32) : F32 :=
  let s := sign a != sign b
  if isNan a || isNan b || (isInf a && isZero b) || (isZero a && isInf b) then nanOf .mul a b
  else if isInf a || isInf b then inf s
  else pack s (roundMag (mag a * mag b) (2 ^ 149))

/-- fdiv: a NaN for a NaN operand, 0/0 and inf/inf; x/0 is an infinity. -/
def div (a b : F32) : F32 :=
  let s := sign a != sign b
  if isNan a || isNan b || (isInf a && isInf b) || (isZero a && isZero b) then nanOf .div a b
  else if isInf a || isZero b then inf s
  else if isInf b then zero s
  else pack s (roundMag (mag a * 2 ^ 149) (mag b))

/-- flt: false on a NaN; the two zeros are equal. -/
def lt (a b : F32) : Bool := !isNan a && !isNan b && decide (val a < val b)

/-- fle: false on a NaN; the two zeros are equal. -/
def le (a b : F32) : Bool := !isNan a && !isNan b && decide (val a ≤ val b)

/-- The f32 equal to an i16, always exact. -/
def ofI16 (x : I16) : F32 := pack x.msb (x.toInt.natAbs * 2 ^ 149)

/-- fround_haz: to an integral f32, ties away from zero; infinities and NaNs return themselves, and the
sign of a zero result is the operand's. -/
def roundHaz (a : F32) : F32 :=
  if expo a = 255 then a
  else pack (sign a) ((2 * mag a + 2 ^ 149) / 2 ^ 150 * 2 ^ 149)

/-- f32_to_int: the integer equal to a finite integral f32. The spec defines it for no other operand
and no rule applies it to one (rule R206). -/
def toInt (a : F32) : Int := val a / 2 ^ 149

end F32

/-- The default FP record, IEEE 754 binary32 (rule R8). -/
def FP.binary32 : FP :=
  { fadd := F32.add, fsub := F32.sub, fmul := F32.mul, fdiv := F32.div
    flt := F32.lt, fle := F32.le, isNan := F32.isNan
    i16ToF32 := F32.ofI16, froundHaz := F32.roundHaz, f32ToInt := F32.toInt }

/-- The arithmetic the machine runs with: the record its parameters name (rules R8 and R150). -/
def Params.arith (p : Params) : FP :=
  match p.fp with
  | .binary32 => FP.binary32
  | .other n => Config.otherFP n

/-- clamp (rule R12): a NaN `x` passes through. -/
def clamp (fp : FP) (x lo hi : F32) : F32 :=
  if fp.flt x lo then lo else if fp.flt hi x then hi else x

end Sys2Proof
end

