-- ==== Sys2Proof/WellFormed.lean ====
section
/-! DEFINITION. What a well-formed operation is.

Every operand field has exactly the width the spec gives it, so an operand that does not fit cannot be
written down. The one relation the spec puts on operands is the range of the commands the block
emits: `commanded_current` lies in [-16384, 16384] (spec/10_state.md rule R25), so a command frame the
block offers carries four such values. ENCODE_COMMANDS itself is total on all of i16 (rule R120), and
so are `encode` and `decode`. -/

namespace Sys2Proof

/-- The range of `commanded_current`: CMD_MAX = 16384 on both sides (rules R7 and R25). -/
def cmdInRange (c : I16) : Bool := decide (-16384 ≤ c.toInt) && decide (c.toInt ≤ 16384)

/-- The operand check, one arm per operation. -/
def Instr.wf : Instr → Bool
  | .telem200 _ _ _ _ => true
  | .telem201 _ _ _ _ => true
  | .telem202 _ _ _ _ => true
  | .telem203 _ _ _ _ => true
  | .telem204 _ _ _ _ => true
  | .telem205 _ _ _ _ => true
  | .telem206 _ _ _ _ => true
  | .telem207 _ _ _ _ => true
  | .telem208 _ _ _ _ => true
  | .cmdFrameA c0 c1 c2 c3 => cmdInRange c0 && cmdInRange c1 && cmdInRange c2 && cmdInRange c3
  | .cmdFrameB c4 c5 c6 c7 => cmdInRange c4 && cmdInRange c5 && cmdInRange c6 && cmdInRange c7
  | .pidReset => true
  | .setParam _ _ _ _ _ => true
  | .setGain _ _ _ => true
  | .setLimit _ _ => true
  | .setTarget _ => true
  | .setSlot _ => true
  | .setPeriod _ _ => true
  | .start => true
  | .idleStep => true
  | .tryReceive => true
  | .decodeTelemetry => true
  | .regUpdate => true
  | .slotRd => true
  | .calc3 => true
  | .calcPid => true
  | .quant => true
  | .slotWrCmd => true
  | .snapshot => true
  | .encodeCommands => true
  | .trySendA => true
  | .trySendB => true
  | .halt => true
  | .dbgRead _ => true

end Sys2Proof
end

