-- ==== Sys2Proof/Decode.lean ====
section
/-! DEFINITION. Decoding, total on every encoded object and rejecting by name; then the encoder; then the
phase register's decode, and the table word the host asks about.

Layouts: rules R81 (frame), R83 (telemetry payload), R86 (command payload), R87 to R89 (command word),
R90 and R91 (phase codes) of spec/30_encoding.md, and rule R139 (debug select). -/

namespace Sys2Proof

/-! ### A frame as one bit vector (rule R81) -/

/-- One flag as a bit. -/
def flagBit (b : Bool) : BitVec 1 := BitVec.ofBool b

/-- The 64 payload bits, `payload[0]` most significant. -/
def payloadBits (p : Vector Byte 8) : BitVec 64 :=
  p[0] ++ p[1] ++ p[2] ++ p[3] ++ p[4] ++ p[5] ++ p[6] ++ p[7]

/-- The eight payload bytes of 64 bits, `payload[0]` from bits 63:56. -/
def payloadOfBits (b : BitVec 64) : Vector Byte 8 :=
  #v[b.extractLsb' 56 8, b.extractLsb' 48 8, b.extractLsb' 40 8, b.extractLsb' 32 8,
     b.extractLsb' 24 8, b.extractLsb' 16 8, b.extractLsb' 8 8, b.extractLsb' 0 8]

/-- The 42 header bits: `id`, `is_standard`, `is_data`, `length`. -/
def headerBits (id : BitVec 32) (isStandard isData : Bool) (length : Byte) : BitVec 42 :=
  id ++ flagBit isStandard ++ flagBit isData ++ length

/-- A frame as its canonical 106 bits. -/
def Frame.toBits (f : Frame) : FrameBits :=
  headerBits f.id f.isStandard f.isData f.length ++ payloadBits f.payload

/-- The frame that 106 canonical bits stand for. -/
def Frame.ofBits (b : FrameBits) : Frame :=
  { id := b.extractLsb' 74 32
    isStandard := b.getLsbD 73
    isData := b.getLsbD 72
    length := b.extractLsb' 64 8
    payload := payloadOfBits (b.extractLsb' 0 64) }

/-- The header of a standard data frame of length 8 with the given identifier: what the mask of every
FRAME_IN and FRAME_OUT row selects (bits 105:64). -/
def dataHeader (id : BitVec 32) : BitVec 42 := headerBits id true true 8#8

/-! ### Decoding -/

/-- Why an encoded object has no operation. -/
inductive DecodeError where
  /-- The inbound frame fails a clause of rule R82 and is ignored (rule R94). -/
  | notTelemetry
  /-- The outbound frame's header is neither frame A's nor frame B's (rule R85). -/
  | notCommandFrame
  /-- The command word's opcode is 0x0 or 0x9 to 0xF (rule R95). -/
  | reservedOpcode (op : BitVec 4)
  /-- Phase codes 9 to 14 are never written and have no meaning (rule R96). -/
  | undefinedPhase (phase : BitVec 4)
  /-- The phase performs one micro-operation only (rule R90). -/
  | noSecondMicroOp (phase : BitVec 4)
  deriving DecidableEq, Repr

/-- FRAME_IN: the header selects the telemetry identifier, the payload carries the four fields at bits
63:48, 47:32, 31:16 and 15:8 (rules R82 and R83). Bits 7:0, `payload[7]`, are never read (rule R96). -/
def decodeFrameIn (b : FrameBits) : Except DecodeError Instr :=
  let h := b.extractLsb' 64 42
  let angle := b.extractLsb' 48 16
  let rpm := b.extractLsb' 32 16
  let cur := b.extractLsb' 16 16
  let temp := b.extractLsb' 8 8
  if h = dataHeader 0x200#32 then .ok (.telem200 angle rpm cur temp)
  else if h = dataHeader 0x201#32 then .ok (.telem201 angle rpm cur temp)
  else if h = dataHeader 0x202#32 then .ok (.telem202 angle rpm cur temp)
  else if h = dataHeader 0x203#32 then .ok (.telem203 angle rpm cur temp)
  else if h = dataHeader 0x204#32 then .ok (.telem204 angle rpm cur temp)
  else if h = dataHeader 0x205#32 then .ok (.telem205 angle rpm cur temp)
  else if h = dataHeader 0x206#32 then .ok (.telem206 angle rpm cur temp)
  else if h = dataHeader 0x207#32 then .ok (.telem207 angle rpm cur temp)
  else if h = dataHeader 0x208#32 then .ok (.telem208 angle rpm cur temp)
  else .error .notTelemetry

/-- FRAME_OUT: the four commands at bits 63:48, 47:32, 31:16 and 15:0 (rules R85 and R86). -/
def decodeFrameOut (b : FrameBits) : Except DecodeError Instr :=
  let h := b.extractLsb' 64 42
  let c0 := b.extractLsb' 48 16
  let c1 := b.extractLsb' 32 16
  let c2 := b.extractLsb' 16 16
  let c3 := b.extractLsb' 0 16
  if h = dataHeader 0x200#32 then .ok (.cmdFrameA c0 c1 c2 c3)
  else if h = dataHeader 0x1FF#32 then .ok (.cmdFrameB c0 c1 c2 c3)
  else .error .notCommandFrame

/-- The opcode of a command word, bits 3:0 (rule R87). -/
def cmdOp (w : CmdWord) : BitVec 4 := w.extractLsb' 0 4

/-- Operand `a<k>` of a command word, 32 bits from bit `4 + 32 k` (rule R87). -/
def cmdArg (w : CmdWord) (k : Nat) : BitVec 32 := w.extractLsb' (4 + 32 * k) 32

/-- CMD: only `op` selects; an operand is taken unchanged, `slot` is `a0[7:0]`, and operands an
operation does not use are ignored (rules R87 to R89). -/
def decodeCmd (w : CmdWord) : Except DecodeError Instr :=
  let op := cmdOp w
  if op = 0x1#4 then .ok .pidReset
  else if op = 0x2#4 then .ok (.setParam (cmdArg w 0) (cmdArg w 1) (cmdArg w 2) (cmdArg w 3) (cmdArg w 4))
  else if op = 0x3#4 then .ok (.setGain (cmdArg w 0) (cmdArg w 1) (cmdArg w 2))
  else if op = 0x4#4 then .ok (.setLimit (cmdArg w 0) (cmdArg w 1))
  else if op = 0x5#4 then .ok (.setTarget (cmdArg w 0))
  else if op = 0x6#4 then .ok (.setSlot ((cmdArg w 0).extractLsb' 0 8))
  else if op = 0x7#4 then .ok (.setPeriod (cmdArg w 0) (cmdArg w 1))
  else if op = 0x8#4 then .ok .start
  else .error (.reservedOpcode op)

/-- UOP: the phase code and the position in the phase (rules R90 and R91). -/
def decodeUop (p : BitVec 4) (q : Seq) : Except DecodeError Instr :=
  match q with
  | .first =>
    if p = 0#4 then .ok .idleStep
    else if p = 1#4 then .ok .tryReceive
    else if p = 2#4 then .ok .decodeTelemetry
    else if p = 3#4 then .ok .slotRd
    else if p = 4#4 then .ok .calc3
    else if p = 5#4 then .ok .quant
    else if p = 6#4 then .ok .snapshot
    else if p = 7#4 then .ok .trySendA
    else if p = 8#4 then .ok .trySendB
    else if p = 15#4 then .ok .halt
    else .error (.undefinedPhase p)
  | .second =>
    if p = 2#4 then .ok .regUpdate
    else if p = 4#4 then .ok .calcPid
    else if p = 5#4 then .ok .slotWrCmd
    else if p = 6#4 then .ok .encodeCommands
    else if p = 0#4 ∨ p = 1#4 ∨ p = 3#4 ∨ p = 7#4 ∨ p = 8#4 ∨ p = 15#4 then .error (.noSecondMicroOp p)
    else .error (.undefinedPhase p)

/-- The decoder, total: every bit pattern of every space has an operation or a named rejection. -/
def decode : Encoded → Except DecodeError Instr
  | .frameIn b => decodeFrameIn b
  | .frameOut b => decodeFrameOut b
  | .cmd w => decodeCmd w
  | .uop p q => decodeUop p q
  | .port sel => .ok (.dbgRead sel)

/-! ### What a phase performs -/

/-- The operations a step in the given phase performs, in order (rule R90). In COMPUTE the one listed
operation is CALC3, which performs CALC itself (rules R91 and R169). -/
def phaseOps (p : BitVec 4) : Option (List Instr) :=
  if p = 0#4 then some [.idleStep]
  else if p = 1#4 then some [.tryReceive]
  else if p = 2#4 then some [.decodeTelemetry, .regUpdate]
  else if p = 3#4 then some [.slotRd]
  else if p = 4#4 then some [.calc3]
  else if p = 5#4 then some [.quant, .slotWrCmd]
  else if p = 6#4 then some [.snapshot, .encodeCommands]
  else if p = 7#4 then some [.trySendA]
  else if p = 8#4 then some [.trySendB]
  else if p = 15#4 then some [.halt]
  else none

/-! ### The encoder -/

/-- A telemetry frame with its fields in place; `payload[7]` is written as zero (rules R83 and R115). -/
def encodeTelem (id : BitVec 32) (angle : U16) (rpm cur : I16) (temp : Byte) : Encoded :=
  .frameIn (dataHeader id ++ (angle ++ rpm ++ cur ++ temp ++ 0#8))

/-- A command frame with its four commands in place (rules R85 and R86). -/
def encodeCmdFrame (id : BitVec 32) (c0 c1 c2 c3 : I16) : Encoded :=
  .frameOut (dataHeader id ++ (c0 ++ c1 ++ c2 ++ c3))

/-- A command word from its opcode and operands; unused operands are written as zero (rule R87). -/
def encodeCmd (op : BitVec 4) (a0 a1 a2 a3 a4 : BitVec 32) : Encoded :=
  .cmd (a4 ++ a3 ++ a2 ++ a1 ++ a0 ++ op)

/-- The encoding of every operation, from the same tables of the spec. -/
def encode : Instr → Encoded
  | .telem200 a r c t => encodeTelem 0x200#32 a r c t
  | .telem201 a r c t => encodeTelem 0x201#32 a r c t
  | .telem202 a r c t => encodeTelem 0x202#32 a r c t
  | .telem203 a r c t => encodeTelem 0x203#32 a r c t
  | .telem204 a r c t => encodeTelem 0x204#32 a r c t
  | .telem205 a r c t => encodeTelem 0x205#32 a r c t
  | .telem206 a r c t => encodeTelem 0x206#32 a r c t
  | .telem207 a r c t => encodeTelem 0x207#32 a r c t
  | .telem208 a r c t => encodeTelem 0x208#32 a r c t
  | .cmdFrameA c0 c1 c2 c3 => encodeCmdFrame 0x200#32 c0 c1 c2 c3
  | .cmdFrameB c4 c5 c6 c7 => encodeCmdFrame 0x1FF#32 c4 c5 c6 c7
  | .pidReset => encodeCmd 0x1#4 0 0 0 0 0
  | .setParam kp ki kd lo hi => encodeCmd 0x2#4 kp ki kd lo hi
  | .setGain kp ki kd => encodeCmd 0x3#4 kp ki kd 0 0
  | .setLimit lo hi => encodeCmd 0x4#4 lo hi 0 0 0
  | .setTarget rpm => encodeCmd 0x5#4 rpm 0 0 0 0
  | .setSlot slot => encodeCmd 0x6#4 (0#24 ++ slot) 0 0 0 0
  | .setPeriod lo hi => encodeCmd 0x7#4 lo hi 0 0 0
  | .start => encodeCmd 0x8#4 0 0 0 0 0
  | .idleStep => .uop 0#4 .first
  | .tryReceive => .uop 1#4 .first
  | .decodeTelemetry => .uop 2#4 .first
  | .regUpdate => .uop 2#4 .second
  | .slotRd => .uop 3#4 .first
  | .calc3 => .uop 4#4 .first
  | .calcPid => .uop 4#4 .second
  | .quant => .uop 5#4 .first
  | .slotWrCmd => .uop 5#4 .second
  | .snapshot => .uop 6#4 .first
  | .encodeCommands => .uop 6#4 .second
  | .trySendA => .uop 7#4 .first
  | .trySendB => .uop 8#4 .first
  | .halt => .uop 15#4 .first
  | .dbgRead sel => .port sel

/-! ### The opcode table's rows, as match and mask (rule R93) -/

/-- The bits of an encoded object as one number, bit 0 the least significant, and the match and mask of
its table row over that number. -/
def Encoded.value : Encoded → Nat
  | .frameIn b => b.toNat
  | .frameOut b => b.toNat
  | .cmd w => w.toNat
  | .uop p _ => p.toNat
  | .port sel => sel.toNat

/-- The mask of the format: the frame header, the opcode, the phase code, nothing (rule R93). -/
def Encoded.mask : Encoded → Nat
  | .frameIn _ => 0x3FFFFFFFFFF0000000000000000
  | .frameOut _ => 0x3FFFFFFFFFF0000000000000000
  | .cmd _ => 0xF
  | .uop _ _ => 0xF
  | .port _ => 0x0

/-- The `match` value of the operation's row, as spec/opcode_table.json has it. -/
def Instr.rowMatch : Instr → Nat
  | .telem200 _ _ _ _ => 0x000000803080000000000000000
  | .telem201 _ _ _ _ => 0x000000807080000000000000000
  | .telem202 _ _ _ _ => 0x00000080B080000000000000000
  | .telem203 _ _ _ _ => 0x00000080F080000000000000000
  | .telem204 _ _ _ _ => 0x000000813080000000000000000
  | .telem205 _ _ _ _ => 0x000000817080000000000000000
  | .telem206 _ _ _ _ => 0x00000081B080000000000000000
  | .telem207 _ _ _ _ => 0x00000081F080000000000000000
  | .telem208 _ _ _ _ => 0x000000823080000000000000000
  | .cmdFrameA _ _ _ _ => 0x000000803080000000000000000
  | .cmdFrameB _ _ _ _ => 0x0000007FF080000000000000000
  | .pidReset => 0x1
  | .setParam _ _ _ _ _ => 0x2
  | .setGain _ _ _ => 0x3
  | .setLimit _ _ => 0x4
  | .setTarget _ => 0x5
  | .setSlot _ => 0x6
  | .setPeriod _ _ => 0x7
  | .start => 0x8
  | .idleStep => 0x0
  | .tryReceive => 0x1
  | .decodeTelemetry => 0x2
  | .regUpdate => 0x2
  | .slotRd => 0x3
  | .calc3 => 0x4
  | .calcPid => 0x4
  | .quant => 0x5
  | .slotWrCmd => 0x5
  | .snapshot => 0x6
  | .encodeCommands => 0x6
  | .trySendA => 0x7
  | .trySendB => 0x8
  | .halt => 0xF
  | .dbgRead _ => 0x0

/-! ### The host's table words (log 12) -/

/-- The encoded object of a table word: `nbits` tells the formats apart. A debug select has 3 bits, a
phase code 4 (8 in whole bytes), a frame 106 (112), a command word 164 (168). A lone phase code is
the first micro-operation of its phase; a frame is read as inbound, and as outbound only where its
header is no telemetry header (frame B). -/
def tableEncoded (nbits w : Nat) : Encoded :=
  if nbits ≤ 3 then .port (BitVec.ofNat 3 w)
  else if nbits ≤ 8 then .uop (BitVec.ofNat 4 w) .first
  else if nbits ≤ 112 then
    let b := BitVec.ofNat 106 w
    if b.extractLsb' 64 42 = dataHeader 0x1FF#32 then .frameOut b else .frameIn b
  else .cmd (BitVec.ofNat 164 w)

/-- The operation the decoder reads from a table word, `none` where it rejects. -/
def decodeTableWord (nbits w : Nat) : Option Instr :=
  match decode (tableEncoded nbits w) with
  | .ok i => some i
  | .error _ => none

end Sys2Proof
end

