-- ==== Sys2Proof/Machine/State.lean ====
section
/-! DEFINITION. The machine's state as plain data, the reasons a step can stop, and the state after reset.

The spec's registers are grouped as spec/10_state.md groups them: the register file (section 1), the
controller's parameters (2) and runtime registers (3), the loop configuration (4), the control-loop
and fault registers and the tick-local latches (5). Fields that are the MODEL's own, not the spec's,
are `params`, `loc`, `env`, `outs` and `freeIx` (log entries 2 to 6). -/

namespace Sys2Proof.Machine

/-- One slot of the register file, 72 bits (rules R20 to R25). -/
structure Slot where
  angle            : U16
  rpm              : I16
  measuredCurrent  : I16
  temperature      : Byte
  commandedCurrent : I16
  deriving DecidableEq, Repr

/-- PidParam: KP, KI, KD, MIN, MAX (rules R27 to R31). -/
structure PidParam where
  kp  : F32
  ki  : F32
  kd  : F32
  min : F32
  max : F32
  deriving DecidableEq, Repr

/-- PidRuntimeState: PREV_ERR, PREV_PR, PPR_VALID, FD, ACC (rules R32 to R35). -/
structure PidRuntime where
  prevErr  : F32
  prevPr   : F32
  pprValid : Bool
  fd       : F32
  acc      : F32
  deriving DecidableEq, Repr

/-- The loop configuration: TARGET_RPM, TARGET_SLOT, PERIOD (rules R36 to R38). -/
structure LoopCfg where
  targetRpm  : F32
  targetSlot : Byte
  period     : Time
  deriving DecidableEq, Repr

/-- LAST_TICK, DT_LATCH, RUN (rules R41 to R43); PHASE stands apart, as the program counter does. -/
structure LoopRegs where
  lastTick : Time
  dtLatch  : F32
  run      : Bool
  deriving DecidableEq, Repr

/-- FAULT, FAULT_CAUSE, FAULT_INFO (rules R44 to R46). -/
structure FaultRegs where
  fault : Bool
  cause : BitVec 3
  info  : BitVec 32
  deriving DecidableEq, Repr

/-- The tick-local latches RXF, ACT, OUT, FRA, FRB (rule R47). -/
structure Latches where
  rxf : Option Frame
  act : I16
  out : F32
  fra : Frame
  frb : Frame
  deriving DecidableEq, Repr

/-- A decoded telemetry frame: the index is a mathematical integer, -1 to 7 (rules R110 and R112). -/
structure Telem where
  idx   : Int
  angle : U16
  rpm   : I16
  cur   : I16
  temp  : Byte
  deriving DecidableEq, Repr

/-- MODEL's own (log 5): the values one micro-operation hands to the next inside one phase, and the
`now()` sample of an IDLE step. The spec names them as local values. -/
structure Locals where
  dec  : Option Telem       -- DECODE_TELEMETRY to REG_UPDATE
  err  : F32                -- CALC3 to CALC
  q    : I16                -- QUANT to SLOT_WR_CMD
  snap : Vector I16 8       -- SNAPSHOT to ENCODE_COMMANDS
  tNow : Time               -- IDLE_STEP to START
  deriving DecidableEq, Repr

/-- Diagnostic events (rule R251). -/
inductive DiagEvent where
  | txaFail
  | txbFail
  | cmdUnknown
  deriving DecidableEq, Repr

/-- MODEL's own (log 4): what leaves the block. A frame offered to `try_send` with the answer it got, a
diagnostic event, or the answer of a debug read with the select that asked for it. -/
inductive Output where
  | offered (f : Frame) (ok : Bool)
  | diag (e : DiagEvent)
  | dbg (sel : BitVec 3) (value : BitVec 72)
  deriving DecidableEq, Repr

/-- MODEL's own (log 3): the environment's coming answers, one tape for each primitive of rule R13, the
next answer first, and what the outside does before each coming step (log 17). A tape that has run out
stands for free values. -/
structure Env where
  rx  : List (Option Frame)     -- answers of try_receive()
  tx  : List Bool               -- answers of try_send
  now : List Time               -- readings of now()
  dt  : List F32                -- readings of dt_in()
  cmd : List (Option CmdWord)   -- answers of cmd_pending()
  ext : List (Option ExtEvent)  -- before each step: nothing, the reset event or a debug read
  deriving DecidableEq, Repr

/-- Why the machine stops. -/
inductive Fault where
  /-- Raised by HALT alone: the block is halted with its cause and info recorded and has no successor
  step (rules R212 and R244). Safe: the spec gives the state no step. -/
  | halted (cause : BitVec 3) (info : BitVec 32)
  deriving DecidableEq, Repr

/-- Why an operation has no meaning. -/
inductive Refusal where
  /-- Raised by a dispatch arm without a meaning (none is left). Safe: nothing is claimed of it. -/
  | notModelled (mnemonic : String)
  /-- Raised by a step that finds PHASE holding a code 9 to 14, which no rule ever writes and which has
  no meaning (rule R96). Safe: no run from reset reaches it. -/
  | undefinedPhase (code : BitVec 4)
  deriving DecidableEq, Repr

/-- The whole machine. -/
structure State where
  params : Params           -- MODEL's own home of rule R8's parameters; no step writes it
  rf     : Vector Slot 8    -- RF
  param  : PidParam
  rt     : PidRuntime
  cfg    : LoopCfg
  phase  : BitVec 4         -- PHASE (rule R40)
  loop   : LoopRegs
  flt    : FaultRegs
  lat    : Latches
  loc    : Locals
  env    : Env
  outs   : List Output      -- oldest first
  freeIx : Nat              -- how many free values have been drawn
  deriving DecidableEq, Repr

/-- The outcome of one operation or one step. -/
abbrev Outcome := Host.Outcome State Fault Refusal

/-- A slot after reset (rules R21 to R25). -/
def Slot.reset : Slot :=
  { angle := 0, rpm := 0, measuredCurrent := 0, temperature := 0, commandedCurrent := 0 }

/-- DESIGN CHOICE (log 7): the frame that FRA and FRB hold after reset, where the spec gives none. -/
def Frame.blank : Frame :=
  { id := 0, isStandard := false, isData := false, length := 0, payload := #v[0, 0, 0, 0, 0, 0, 0, 0] }

/-- The machine after reset (rule R51). PREV_PR, DT_LATCH and the latches RXF, ACT, OUT, FRA and FRB are
"unspecified" there; they hold zero here, a DESIGN CHOICE (log 7) no claim may rest on. -/
def State.reset : State :=
  { params := Params.default
    rf := #v[Slot.reset, Slot.reset, Slot.reset, Slot.reset,
             Slot.reset, Slot.reset, Slot.reset, Slot.reset]
    param := { kp := 0, ki := 0, kd := 0, min := 0, max := 0 }
    rt := { prevErr := 0, prevPr := 0, pprValid := false, fd := 0, acc := 0 }
    cfg := { targetRpm := 0, targetSlot := 0, period := 0 }
    phase := 0
    loop := { lastTick := 0, dtLatch := 0, run := false }
    flt := { fault := false, cause := 0, info := 0 }
    lat := { rxf := none, act := 0, out := 0, fra := Frame.blank, frb := Frame.blank }
    loc := { dec := none, err := 0, q := 0, snap := #v[0, 0, 0, 0, 0, 0, 0, 0], tNow := 0 }
    env := { rx := [], tx := [], now := [], dt := [], cmd := [], ext := [] }
    outs := []
    freeIx := 0 }

end Sys2Proof.Machine
end

