-- ==== Sys2Proof/Machine/Ops.lean ====
section
/-! DEFINITION. The shared operations every meaning is built from: the phase codes, the fault entry and
the reset event beside it, the environment's tapes, the outputs, and the register file. -/

namespace Sys2Proof.Machine

/-! ### Phase codes (rule R90) and fault causes (rule R230) -/

namespace Phase
abbrev idle    : BitVec 4 := 0#4
abbrev rx      : BitVec 4 := 1#4
abbrev decode  : BitVec 4 := 2#4
abbrev lookup  : BitVec 4 := 3#4
abbrev compute : BitVec 4 := 4#4
abbrev quant   : BitVec 4 := 5#4
abbrev encode  : BitVec 4 := 6#4
abbrev txa     : BitVec 4 := 7#4
abbrev txb     : BitVec 4 := 8#4
abbrev halt    : BitVec 4 := 15#4
end Phase

namespace Cause
abbrev none       : BitVec 3 := 0#3
abbrev dtRange    : BitVec 3 := 1#3
abbrev slotRange  : BitVec 3 := 2#3
abbrev numeric    : BitVec 3 := 3#3
abbrev limitOrder : BitVec 3 := 4#3
end Cause

/-- `PHASE <- p`, the control transfer (rule R10). -/
def State.withPhase (s : State) (p : BitVec 4) : State := { s with phase := p }

/-! ### Taking a fault, and the only way out of one -/

/-- FAULT_ENTRY (rule R241): FAULT_CAUSE, FAULT_INFO, FAULT and PHASE change and nothing else does. There
is no vector, no saved program counter and no stack. -/
def State.raise (s : State) (cause : BitVec 3) (info : BitVec 32) : State :=
  { s with flt := { fault := true, cause := cause, info := info }, phase := Phase.halt }

/-- The reset event (rules R260 and R263), the only exit from HALT (rule R244: there is no return from a
fault): every register takes its reset value; the environment and the parameters are untouched. -/
def State.resetEvent (s : State) : State :=
  { State.reset with params := s.params, env := s.env, outs := s.outs, freeIx := s.freeIx }

/-! ### Outputs -/

/-- Something leaves the block. -/
def State.emit (s : State) (o : Output) : State := { s with outs := s.outs ++ [o] }

/-! ### The environment's answers (rule R13)

The next answer of a primitive is the head of its tape; where the tape has run out it is a free value,
the `freeIx`-th draw. Taking an answer removes it from the tape, or counts the draw. -/

/-- The next answer of a tape, or the free one. -/
def answer {α : Type} (tape : List α) (free : α) : α :=
  match tape with
  | [] => free
  | a :: _ => a

/-- The draw counter after one answer is taken from a tape. -/
def drawn {α : Type} (tape : List α) (ix : Nat) : Nat :=
  match tape with
  | [] => ix + 1
  | _ :: _ => ix

/-- What `try_receive()` answers now. -/
def State.rxAnswer (s : State) : Option Frame := answer s.env.rx (Config.freeRx s.freeIx)
/-- What `try_send` answers now. -/
def State.txAnswer (s : State) : Bool := answer s.env.tx (Config.freeTx s.freeIx)
/-- What `now()` reads now, a uTIME_W count. -/
def State.nowAnswer (s : State) : Time :=
  BitVec.ofNat 64 ((answer s.env.now (Config.freeNow s.freeIx)).toNat % 2 ^ s.params.timeW)
/-- What `dt_in()` reads now. -/
def State.dtAnswer (s : State) : F32 := answer s.env.dt (Config.freeDt s.freeIx)
/-- What `cmd_pending()` answers now. -/
def State.cmdAnswer (s : State) : Option CmdWord := answer s.env.cmd (Config.freeCmd s.freeIx)

/-- The state after one `try_receive()`: a `some` answer has left the collaborator's queue (rule R67). -/
def State.popRx (s : State) : State :=
  { s with env := { s.env with rx := s.env.rx.tail }, freeIx := drawn s.env.rx s.freeIx }
/-- The state after one `try_send`. -/
def State.popTx (s : State) : State :=
  { s with env := { s.env with tx := s.env.tx.tail }, freeIx := drawn s.env.tx s.freeIx }
/-- The state after one `now()`. -/
def State.popNow (s : State) : State :=
  { s with env := { s.env with now := s.env.now.tail }, freeIx := drawn s.env.now s.freeIx }
/-- The state after one `dt_in()`. -/
def State.popDt (s : State) : State :=
  { s with env := { s.env with dt := s.env.dt.tail }, freeIx := drawn s.env.dt s.freeIx }
/-- The state after one `cmd_pending()`: an accepted word has left the port (rule R213). -/
def State.popCmd (s : State) : State :=
  { s with env := { s.env with cmd := s.env.cmd.tail }, freeIx := drawn s.env.cmd s.freeIx }

/-- What the outside does before this step: nothing, the reset event or a debug read (rule R191). -/
def State.extAnswer (s : State) : Option ExtEvent := answer s.env.ext (Config.freeExt s.freeIx)
/-- The state once that is known. -/
def State.popExt (s : State) : State :=
  { s with env := { s.env with ext := s.env.ext.tail }, freeIx := drawn s.env.ext s.freeIx }

/-! ### The register file (rules R60 and R66) -/

/-- `RF[i]`. -/
def State.slot (s : State) (i : Fin 8) : Slot := s.rf[i.val]

/-- Overwrite the four telemetry fields of slot `i` together; `commanded_current` keeps its value. -/
def State.putTelemetry (s : State) (i : Fin 8) (d : Telem) : State :=
  let old := s.slot i
  { s with rf := s.rf.set i.val (Slot.mk d.angle d.rpm d.cur d.temp old.commandedCurrent) i.isLt }

/-- Overwrite `commanded_current` of slot `i`; the telemetry fields keep their values. -/
def State.putCommand (s : State) (i : Fin 8) (q : I16) : State :=
  let new := { s.slot i with commandedCurrent := q }
  { s with rf := s.rf.set i.val new i.isLt }

/-- The eight commands in slot order (rules R137 and R138). -/
def State.commands (s : State) : Vector I16 8 :=
  #v[(s.slot 0).commandedCurrent, (s.slot 1).commandedCurrent,
     (s.slot 2).commandedCurrent, (s.slot 3).commandedCurrent,
     (s.slot 4).commandedCurrent, (s.slot 5).commandedCurrent,
     (s.slot 6).commandedCurrent, (s.slot 7).commandedCurrent]

end Sys2Proof.Machine
end

