-- ==== Sys2Proof/Machine/Operands.lean ====
section
/-! DEFINITION. How an operation gets its operands: byte order, the slot index and its bounds check, the
timebase width, and the value recorded for a faulting operand. -/

namespace Sys2Proof.Machine

/-- A 16-bit field from two payload bytes, the lower offset more significant (rule R63). -/
def beField (hi lo : Byte) : BitVec 16 := hi ++ lo

/-- The more significant byte of a command, `u16bits(c)[15:8]` (rule R63). -/
def hiByte (c : I16) : Byte := c.extractLsb' 8 8

/-- The less significant byte of a command, `u16bits(c)[7:0]` (rule R63). -/
def loByte (c : I16) : Byte := c.extractLsb' 0 8

/-- The bounds check of a slot index, a mathematical integer (rules R48 and R61): 0 to 7 name a slot. -/
def slotIx (i : Int) : Option (Fin 8) :=
  if h : 0 ≤ i ∧ i < 8 then some ⟨i.toNat, by omega⟩ else none

/-- `zext(TARGET_SLOT)`, 0 to 255 (rules R133 and R135). -/
def State.targetIx (s : State) : Int := (s.cfg.targetSlot.toNat : Int)

/-- The 32 bits recorded for an index: `sext_32` of -1, `zext_32` of 8 to 255 (rule R242). -/
def indexInfo (i : Int) : BitVec 32 := BitVec.ofInt 32 i

/-- The period operand `{a1, a0}[TIME_W-1:0]` (rule R89). -/
def periodOperand (p : Params) (lo hi : BitVec 32) : Time :=
  BitVec.ofNat 64 ((hi ++ lo).toNat % 2 ^ p.timeW)

/-- The error operand of CALC3: target minus actual, rounded once (rules R169 and R204). -/
def State.errorOperand (s : State) : F32 :=
  s.params.arith.fsub s.cfg.targetRpm (s.params.arith.i16ToF32 s.lat.act)

end Sys2Proof.Machine
end

