-- ==== Sys2Proof/Machine/Flags.lean ====
section
/-! DEFINITION. The conditions an operation tests and the one-bit flags it writes: PPR_VALID, RUN, and the
tests behind a fault or a tick. The block has no arithmetic flags (spec/60_exceptions.md rule R236). -/

namespace Sys2Proof.Machine

/-- CALC's precondition `flt(+0.0, dt)`: false for zeros, negative values and NaNs (rule R170). -/
def dtPositive (fp : FP) (dt : F32) : Bool := fp.flt F32.posZero dt

/-- LIMIT_CHECK `fle(min, max)`: false for crossed limits and NaN limits (rule R176). -/
def limitsOk (fp : FP) (lo hi : F32) : Bool := fp.fle lo hi

/-- TRIGGER(t) (rule R194): modular unsigned subtraction in TIME_W bits, strict comparison. -/
def trigger (p : Params) (t lastTick period : Time) : Bool :=
  decide (period.toNat < (t - lastTick).toNat % 2 ^ p.timeW)

/-- The runtime registers PID_RESET leaves: PPR_VALID <- 0, the rest +0.0, PREV_PR unspecified, here the
free value passed in (rule R171). -/
def PidRuntime.cold (freePr : F32) : PidRuntime :=
  { prevErr := F32.posZero, prevPr := freePr, pprValid := false, fd := F32.posZero, acc := F32.posZero }

/-- PID_RESET's effect on the state, and the free value it draws for PREV_PR (log 2). -/
def State.clearRuntime (s : State) : State :=
  { s with rt := PidRuntime.cold (Config.freePrevPr s.freeIx), freeIx := s.freeIx + 1 }

/-- START's effect: RUN <- 1 and LAST_TICK <- t, only while RUN = 0 (rule R218). -/
def LoopRegs.started (l : LoopRegs) (t : Time) : LoopRegs :=
  if l.run then l else { l with run := true, lastTick := t }

end Sys2Proof.Machine
end

