-- ==== Sys2Proof/Machine/FrameCodec.lean ====
section
/-! DEFINITION. FrameCodec: DECODE_TELEMETRY and ENCODE_COMMANDS (spec/40_frame_codec.md), and the offer of
a command frame to the bus (spec/43_control_loop.md rule R208). -/

namespace Sys2Proof.Machine

/-! ### The pure functions -/

/-- The four clauses of the acceptance test; the identifier is compared on all 32 bits (rules R82, R111). -/
def isTelemetry (f : Frame) : Bool :=
  f.isStandard && f.isData && f.length == 8#8
    && decide (0x200 ≤ f.id.toNat) && decide (f.id.toNat ≤ 0x208)

/-- DECODE_TELEMETRY (rule R110). The index subtraction does not wrap (rule R112). -/
def decodeTelemetry (f : Frame) : Option Telem :=
  if isTelemetry f then
    some { idx := (f.id.toNat : Int) - 0x201
           angle := beField f.payload[0] f.payload[1]
           rpm := beField f.payload[2] f.payload[3]
           cur := beField f.payload[4] f.payload[5]
           temp := f.payload[6] }
  else none

/-- A standard data frame of length 8 (rule R85). -/
def dataFrame (id : BitVec 32) (payload : Vector Byte 8) : Frame :=
  { id := id, isStandard := true, isData := true, length := 8#8, payload := payload }

/-- Four commands, big-endian, packed without overlap: slot `i` at bytes `2i`, `2i+1` (rules R86, R119). -/
def commandPayload (c0 c1 c2 c3 : I16) : Vector Byte 8 :=
  #v[hiByte c0, loByte c0, hiByte c1, loByte c1, hiByte c2, loByte c2, hiByte c3, loByte c3]

/-- Frame A (rule R85). -/
def frameA (c0 c1 c2 c3 : I16) : Frame := dataFrame 0x200#32 (commandPayload c0 c1 c2 c3)

/-- Frame B (rule R85). -/
def frameB (c4 c5 c6 c7 : I16) : Frame := dataFrame 0x1FF#32 (commandPayload c4 c5 c6 c7)

/-- ENCODE_COMMANDS (rule R117): total on all of i16, no clamp (rule R120). -/
def encodeFrames (v : Vector I16 8) : Frame × Frame :=
  (frameA v[0] v[1] v[2] v[3], frameB v[4] v[5] v[6] v[7])

/-! ### Offering a frame -/

/-- `if not try_send(f) then diag(e) ; PHASE <- p` (rule R208): the frame is offered exactly once and a
failure leaves only the diagnostic event (rule R209). -/
def offerFrame (f : Frame) (e : DiagEvent) (p : BitVec 4) (s : State) : State :=
  let ok := s.txAnswer
  let t := (s.popTx.emit (.offered f ok)).withPhase p
  if ok then t else t.emit (.diag e)

/-! ### Meanings -/

/-- DECODE_TELEMETRY in phase DECODE (rules R110 and R198): pure; its result goes to REG_UPDATE. -/
def execDecodeTelemetry (s : State) : Outcome :=
  .next { s with loc := { s.loc with dec := s.lat.rxf.bind decodeTelemetry } }

/-- ENCODE_COMMANDS in phase ENCODE (rules R117 and R207). -/
def execEncodeCommands (s : State) : Outcome :=
  let fs := encodeFrames s.loc.snap
  .next { s with lat := { s.lat with fra := fs.1, frb := fs.2 }, phase := Phase.txa }

/-- CMD_FRAME_A: the block offers frame A with these four commands, as phase TXA does (rules R85, R208). -/
def execCmdFrameA (c0 c1 c2 c3 : I16) (s : State) : Outcome :=
  .next (offerFrame (frameA c0 c1 c2 c3) .txaFail Phase.txb s)

/-- CMD_FRAME_B: the block offers frame B with these four commands, as phase TXB does (rules R85, R208). -/
def execCmdFrameB (c4 c5 c6 c7 : I16) (s : State) : Outcome :=
  .next (offerFrame (frameB c4 c5 c6 c7) .txbFail Phase.idle s)

end Sys2Proof.Machine
end

