-- ==== Sys2Proof/Machine/MotorRegistry.lean ====
section
/-! DEFINITION. MotorRegistry: REG_UPDATE, SLOT_RD, SLOT_WR_CMD, SNAPSHOT and the debug read
(spec/41_motor_registry.md), and the nine telemetry frames, whose operation is DECODE_TELEMETRY then
REG_UPDATE. -/

namespace Sys2Proof.Machine

/-! ### Shared operations -/

/-- REG_UPDATE on a decoded frame or none (rules R130 and R131): an index that names no slot faults under
ID200_POLICY = FAULT and is ignored under DROP; no slot is ever written from it. -/
def registryUpdate (d : Option Telem) (s : State) : State :=
  match d with
  | none => s.withPhase Phase.lookup
  | some t =>
    match slotIx t.idx with
    | some i => (s.putTelemetry i t).withPhase Phase.lookup
    | none =>
      match s.params.id200 with
      | .fault => s.raise Cause.slotRange (indexInfo t.idx)
      | .drop => s.withPhase Phase.lookup

/-- A telemetry frame with index `idx`: DECODE_TELEMETRY leaves its result, REG_UPDATE applies it. -/
def routeTelemetry (idx : Int) (angle : U16) (rpm cur : I16) (temp : Byte) (s : State) : State :=
  let d : Option Telem := some { idx := idx, angle := angle, rpm := rpm, cur := cur, temp := temp }
  registryUpdate d { s with loc := { s.loc with dec := d } }

/-- The 72 bits of a slot on the debug port (rule R139). -/
def Slot.debugBits (x : Slot) : BitVec 72 :=
  x.angle ++ x.rpm ++ x.measuredCurrent ++ x.temperature ++ x.commandedCurrent

/-! ### Meanings: the telemetry frames (rules R61, R110 and R130) -/

/-- TELEM_0x200: index -1, no slot (rule R131). -/
def execTelem200 (a : U16) (r c : I16) (t : Byte) (s : State) : Outcome := .next (routeTelemetry (-1) a r c t s)
/-- TELEM_0x201: slot 0. -/
def execTelem201 (a : U16) (r c : I16) (t : Byte) (s : State) : Outcome := .next (routeTelemetry 0 a r c t s)
/-- TELEM_0x202: slot 1. -/
def execTelem202 (a : U16) (r c : I16) (t : Byte) (s : State) : Outcome := .next (routeTelemetry 1 a r c t s)
/-- TELEM_0x203: slot 2. -/
def execTelem203 (a : U16) (r c : I16) (t : Byte) (s : State) : Outcome := .next (routeTelemetry 2 a r c t s)
/-- TELEM_0x204: slot 3. -/
def execTelem204 (a : U16) (r c : I16) (t : Byte) (s : State) : Outcome := .next (routeTelemetry 3 a r c t s)
/-- TELEM_0x205: slot 4. -/
def execTelem205 (a : U16) (r c : I16) (t : Byte) (s : State) : Outcome := .next (routeTelemetry 4 a r c t s)
/-- TELEM_0x206: slot 5. -/
def execTelem206 (a : U16) (r c : I16) (t : Byte) (s : State) : Outcome := .next (routeTelemetry 5 a r c t s)
/-- TELEM_0x207: slot 6. -/
def execTelem207 (a : U16) (r c : I16) (t : Byte) (s : State) : Outcome := .next (routeTelemetry 6 a r c t s)
/-- TELEM_0x208: slot 7. -/
def execTelem208 (a : U16) (r c : I16) (t : Byte) (s : State) : Outcome := .next (routeTelemetry 7 a r c t s)

/-! ### Meanings: the micro-operations and the debug read -/

/-- REG_UPDATE in phase DECODE, on the result DECODE_TELEMETRY left (rules R130 and R198). -/
def execRegUpdate (s : State) : Outcome := .next (registryUpdate s.loc.dec s)

/-- SLOT_RD in phase LOOKUP (rules R133 and R199): `ACT <- RF[TARGET_SLOT].rpm`. -/
def execSlotRd (s : State) : Outcome :=
  match slotIx s.targetIx with
  | some i => .next { s with lat := { s.lat with act := (s.slot i).rpm }, phase := Phase.compute }
  | none => .next (s.raise Cause.slotRange (indexInfo s.targetIx))

/-- SLOT_WR_CMD in phase QUANT (rules R135 and R206): `RF[TARGET_SLOT].commanded_current <- q`. -/
def execSlotWrCmd (s : State) : Outcome :=
  match slotIx s.targetIx with
  | some i => .next ((s.putCommand i s.loc.q).withPhase Phase.encode)
  | none => .next (s.raise Cause.slotRange (indexInfo s.targetIx))

/-- SNAPSHOT in phase ENCODE (rule R137): one atomic read of the eight commands. -/
def execSnapshot (s : State) : Outcome :=
  .next { s with loc := { s.loc with snap := s.commands } }

/-- DBG_READ (rules R72 and R139): the port answers; no register changes. -/
def execDbgRead (sel : BitVec 3) (s : State) : Outcome :=
  .next (s.emit (.dbg sel (s.slot sel.toFin).debugBits))

end Sys2Proof.Machine
end

