-- ==== Sys2Proof/Machine/VelocityPid.lean ====
section
/-! DEFINITION. VelocityPid: CALC, CALC3, PID_RESET, SET_PARAM, SET_GAIN, SET_LIMIT
(spec/42_velocity_pid.md). The step is written over any FP record, and the machine runs it with the
one its parameters name (rules R8 and R150). -/

namespace Sys2Proof.Machine

/-! ### The pure controller step -/

/-- CALC steps 1 to 7 past the precondition (rule R165), in the evaluation order of rule R152. The answer
is the new `acc`. -/
def pidStep (fp : FP) (filterDiv : F32) (p : PidParam) (r : PidRuntime) (e dt : F32) : PidRuntime :=
  let pr := fp.fdiv (fp.fsub e r.prevErr) dt
  let d := if r.pprValid then fp.fdiv (fp.fsub pr r.prevPr) dt else F32.posZero
  let fd := fp.fadd r.fd (fp.fdiv (fp.fsub d r.fd) filterDiv)
  let delta := fp.fadd (fp.fadd (fp.fmul p.kp pr) (fp.fmul p.ki e)) (fp.fmul p.kd fd)
  { prevErr := e
    prevPr := pr
    pprValid := true
    fd := fd
    acc := clamp fp (fp.fadd r.acc delta) p.min p.max }

/-! ### Shared operations -/

/-- CALC on an error, with the phase's `dt` (rules R165, R170 and R204): DT_RANGE before any write, else
all five runtime registers and OUT. -/
def calcStep (e : F32) (s : State) : State :=
  if dtPositive s.params.arith s.loop.dtLatch then
    let r := pidStep s.params.arith s.params.filterDiv s.param s.rt e s.loop.dtLatch
    { s with rt := r, lat := { s.lat with out := r.acc }, phase := Phase.quant }
  else s.raise Cause.dtRange s.loop.dtLatch

/-! ### Meanings -/

/-- CALC in phase COMPUTE, on the error CALC3 handed over (rule R165). -/
def execCalc (s : State) : Outcome := .next (calcStep s.loc.err s)

/-- CALC3 in phase COMPUTE (rules R169 and R204): `CALC(fsub(TARGET_RPM, i16_to_f32(ACT)), DT_LATCH)`. -/
def execCalc3 (s : State) : Outcome :=
  let e := s.errorOperand
  .next (calcStep e { s with loc := { s.loc with err := e } })

/-- PID_RESET (rule R171). -/
def execPidReset (s : State) : Outcome := .next s.clearRuntime

/-- SET_PARAM (rule R173): the limit check precedes every write. -/
def execSetParam (kp ki kd lo hi : F32) (s : State) : Outcome :=
  if limitsOk s.params.arith lo hi then
    .next ({ s with param := { kp := kp, ki := ki, kd := kd, min := lo, max := hi } }).clearRuntime
  else .next (s.raise Cause.limitOrder lo)

/-- SET_GAIN (rule R174): MIN and MAX keep their values; the runtime registers are reset. -/
def execSetGain (kp ki kd : F32) (s : State) : Outcome :=
  .next ({ s with param := { s.param with kp := kp, ki := ki, kd := kd } }).clearRuntime

/-- SET_LIMIT (rules R175 and R178): no reset, ACC is not clamped again. -/
def execSetLimit (lo hi : F32) (s : State) : Outcome :=
  if limitsOk s.params.arith lo hi then
    .next { s with param := { s.param with min := lo, max := hi } }
  else .next (s.raise Cause.limitOrder lo)

end Sys2Proof.Machine
end

