-- ==== Sys2Proof/Machine/ControlLoop.lean ====
section
/-! DEFINITION. ControlLoop: the loop's own micro-operations and the loop configuration commands
(spec/43_control_loop.md), and HALT. -/

namespace Sys2Proof.Machine

/-! ### Meanings: the loop configuration commands -/

/-- SET_TARGET (rule R215): any bit pattern; the controller is not reset. -/
def execSetTarget (rpm : F32) (s : State) : Outcome :=
  .next { s with cfg := { s.cfg with targetRpm := rpm } }

/-- SET_SLOT (rule R216): any u8; the bounds check is LOOKUP's (rule R134). -/
def execSetSlot (slot : Byte) (s : State) : Outcome :=
  .next { s with cfg := { s.cfg with targetSlot := slot } }

/-- SET_PERIOD (rule R217): LAST_TICK is unchanged. -/
def execSetPeriod (lo hi : BitVec 32) (s : State) : Outcome :=
  .next { s with cfg := { s.cfg with period := periodOperand s.params lo hi } }

/-- START (rule R218), with `t` the `now()` this IDLE step sampled. -/
def execStart (s : State) : Outcome :=
  .next { s with loop := s.loop.started s.loc.tNow }

/-! ### EXEC_CMD and the tick trigger -/

/-- EXEC_CMD (rule R213): one command, or the diagnostic CMD_UNKNOWN for a reserved opcode (rule R95). The
decoder of command words answers host commands only, so the last arm but one is never taken. -/
def execCmdWord (w : CmdWord) (s : State) : Outcome :=
  match decodeCmd w with
  | .ok .pidReset => execPidReset s
  | .ok (.setParam kp ki kd lo hi) => execSetParam kp ki kd lo hi s
  | .ok (.setGain kp ki kd) => execSetGain kp ki kd s
  | .ok (.setLimit lo hi) => execSetLimit lo hi s
  | .ok (.setTarget rpm) => execSetTarget rpm s
  | .ok (.setSlot slot) => execSetSlot slot s
  | .ok (.setPeriod lo hi) => execSetPeriod lo hi s
  | .ok .start => execStart s
  | .ok _ => .next (s.emit (.diag .cmdUnknown))
  | .error _ => .next (s.emit (.diag .cmdUnknown))

/-- `let t = now()`: the IDLE step's one sample of the timebase (rule R193). -/
def State.sampleNow (s : State) : State :=
  { s.popNow with loc := { s.loc with tNow := s.nowAnswer } }

/-- A tick fires: `LAST_TICK <- t ; DT_LATCH <- dt_in() ; PHASE <- RX` (rules R193 and R194). -/
def State.fireTick (s : State) : State :=
  { s.popDt with
    loop := { s.loop with lastTick := s.loc.tNow, dtLatch := s.dtAnswer }
    phase := Phase.rx }

/-! ### Meanings: the loop's micro-operations -/

/-- IDLE_STEP (rule R193): a pending command first, else the trigger if RUN = 1, else nothing. -/
def execIdleStep (s : State) : Outcome :=
  let s1 := s.sampleNow
  let s2 := s1.popCmd
  match s1.cmdAnswer with
  | some w => execCmdWord w s2
  | none =>
    if s2.loop.run && trigger s2.params s2.loc.tNow s2.loop.lastTick s2.cfg.period then .next s2.fireTick
    else .next s2

/-- TRY_RECEIVE in phase RX (rule R196): one non-blocking attempt. -/
def execTryReceive (s : State) : Outcome :=
  .next { s.popRx with lat := { s.lat with rxf := s.rxAnswer }, phase := Phase.decode }

/-- The quantiser (rule R206): `none` on a NaN, else the command in [-16384, 16384]. -/
def quantize (fp : FP) (out : F32) : Option I16 :=
  if fp.isNan out then none
  else
    let x := fp.fmul out F32.cmdMax
    let r := fp.froundHaz x
    let c := clamp fp r F32.cmdMin F32.cmdMax
    some (BitVec.ofInt 16 (fp.f32ToInt c))

/-- QUANT in phase QUANT, first of two (rule R206); its result goes to SLOT_WR_CMD. -/
def execQuant (s : State) : Outcome :=
  match quantize s.params.arith s.lat.out with
  | none => .next (s.raise Cause.numeric s.lat.out)
  | some q => .next { s with loc := { s.loc with q := q } }

/-- TRY_SEND of frame A in phase TXA (rule R208). -/
def execTrySendA (s : State) : Outcome := .next (offerFrame s.lat.fra .txaFail Phase.txb s)

/-- TRY_SEND of frame B in phase TXB (rule R208). -/
def execTrySendB (s : State) : Outcome := .next (offerFrame s.lat.frb .txbFail Phase.idle s)

/-- HALT (rules R212 and R244): no successor step; the recorded cause is the reason the run ends. -/
def execHalt (s : State) : Outcome := .fault (.halted s.flt.cause s.flt.info)

end Sys2Proof.Machine
end

