-- ==== Sys2Proof/Machine/Dispatch.lean ====
section
/-! DEFINITION. One arm per operation, each one call of its meaning. -/

namespace Sys2Proof.Machine

def exec (i : Instr) (s : State) : Host.Outcome State Fault Refusal :=
  match i with
  | .telem200 a r c t => Sys2Proof.Machine.execTelem200 a r c t s
  | .telem201 a r c t => Sys2Proof.Machine.execTelem201 a r c t s
  | .telem202 a r c t => Sys2Proof.Machine.execTelem202 a r c t s
  | .telem203 a r c t => Sys2Proof.Machine.execTelem203 a r c t s
  | .telem204 a r c t => Sys2Proof.Machine.execTelem204 a r c t s
  | .telem205 a r c t => Sys2Proof.Machine.execTelem205 a r c t s
  | .telem206 a r c t => Sys2Proof.Machine.execTelem206 a r c t s
  | .telem207 a r c t => Sys2Proof.Machine.execTelem207 a r c t s
  | .telem208 a r c t => Sys2Proof.Machine.execTelem208 a r c t s
  | .cmdFrameA c0 c1 c2 c3 => Sys2Proof.Machine.execCmdFrameA c0 c1 c2 c3 s
  | .cmdFrameB c4 c5 c6 c7 => Sys2Proof.Machine.execCmdFrameB c4 c5 c6 c7 s
  | .pidReset => Sys2Proof.Machine.execPidReset s
  | .setParam kp ki kd lo hi => Sys2Proof.Machine.execSetParam kp ki kd lo hi s
  | .setGain kp ki kd => Sys2Proof.Machine.execSetGain kp ki kd s
  | .setLimit lo hi => Sys2Proof.Machine.execSetLimit lo hi s
  | .setTarget rpm => Sys2Proof.Machine.execSetTarget rpm s
  | .setSlot slot => Sys2Proof.Machine.execSetSlot slot s
  | .setPeriod lo hi => Sys2Proof.Machine.execSetPeriod lo hi s
  | .start => Sys2Proof.Machine.execStart s
  | .idleStep => Sys2Proof.Machine.execIdleStep s
  | .tryReceive => Sys2Proof.Machine.execTryReceive s
  | .decodeTelemetry => Sys2Proof.Machine.execDecodeTelemetry s
  | .regUpdate => Sys2Proof.Machine.execRegUpdate s
  | .slotRd => Sys2Proof.Machine.execSlotRd s
  | .calc3 => Sys2Proof.Machine.execCalc3 s
  | .calcPid => Sys2Proof.Machine.execCalc s
  | .quant => Sys2Proof.Machine.execQuant s
  | .slotWrCmd => Sys2Proof.Machine.execSlotWrCmd s
  | .snapshot => Sys2Proof.Machine.execSnapshot s
  | .encodeCommands => Sys2Proof.Machine.execEncodeCommands s
  | .trySendA => Sys2Proof.Machine.execTrySendA s
  | .trySendB => Sys2Proof.Machine.execTrySendB s
  | .halt => Sys2Proof.Machine.execHalt s
  | .dbgRead sel => Sys2Proof.Machine.execDbgRead sel s

end Sys2Proof.Machine
end

