-- ==== Sys2Proof/Machine/Step.lean ====
section
/-! DEFINITION. One step: an outside event if one is due, else the work of one phase
(spec/43_control_loop.md rule R191). -/

namespace Sys2Proof.Machine

/-- A phase's micro-operations in order. A fault is the last thing the block does (rule R239): once PHASE
is HALT the rest of the phase does not run. -/
def runOps : List Instr → State → Host.Outcome State Fault Refusal
  | [], s => .next s
  | i :: is, s =>
    match exec i s with
    | .next t => if t.phase = Phase.halt then .next t else runOps is t
    | .fault r => .fault r
    | .refused r => .refused r

/-- The work of the phase that PHASE names; a code 9 to 14 has no step (rule R96). -/
def phaseStep (s : State) : Host.Outcome State Fault Refusal :=
  match phaseOps s.phase with
  | some l => runOps l s
  | none => .refused (.undefinedPhase s.phase)

/-- One step of the machine. Before any step, between any two phases and in HALT, the outside may assert
reset (rule R260) or read the debug port (rule R72); where it does neither, the control loop does one
phase (rule R191). -/
def step (s : State) : Host.Outcome State Fault Refusal :=
  match s.extAnswer with
  | some .reset => .next s.popExt.resetEvent
  | some (.dbgRead sel) => exec (.dbgRead sel) s.popExt
  | none => phaseStep s.popExt

/-- The state in which the next step runs exactly the given table word (log 12). A phase code goes into
PHASE; for IDLE no command is pending, since a pending command would be the operation instead. A
command word is what `cmd_pending()` answers in IDLE. A telemetry frame is in RXF in phase DECODE; frame
B is in FRB in phase TXB. A debug select is the next outside event; for every other word the outside does
nothing before the step. -/
def State.withFetchWord (s : State) (nbits w : Nat) : State :=
  match tableEncoded nbits w with
  | .uop p _ =>
    { s with
      phase := p
      env := { s.env with ext := none :: s.env.ext, cmd := if p = Phase.idle then none :: s.env.cmd else s.env.cmd } }
  | .cmd c => { s with phase := Phase.idle, env := { s.env with ext := none :: s.env.ext, cmd := some c :: s.env.cmd } }
  | .frameIn b =>
    { s with
      phase := Phase.decode
      lat := { s.lat with rxf := some (Frame.ofBits b) }
      env := { s.env with ext := none :: s.env.ext } }
  | .frameOut b =>
    { s with
      phase := Phase.txb
      lat := { s.lat with frb := Frame.ofBits b }
      env := { s.env with ext := none :: s.env.ext } }
  | .port sel => { s with env := { s.env with ext := some (.dbgRead sel) :: s.env.ext } }

end Sys2Proof.Machine
end

