-- ==== Sys2Proof/Machine/Tick.lean ====
section
/-! DEFINITION. The whole tick as one function (spec/43_control_loop.md rule R210), beside the phase by
phase machine: the reading of rule R191 a coarser model would take. It works on local values, not on
the tick-local latches. -/

namespace Sys2Proof.Machine

/-- The two offers that end a tick, A then B, with their diagnostic events (rules R208 and R210). -/
def State.offerBoth (s : State) (fs : Frame × Frame) (okA okB : Bool) : State :=
  { s with outs := s.outs
      ++ ([.offered fs.1 okA] ++ if okA then [] else [.diag .txaFail])
      ++ ([.offered fs.2 okB] ++ if okB then [] else [.diag .txbFail]) }

/-- The end of a tick from the controller's output on: QUANT, SLOT_WR_CMD, SNAPSHOT, ENCODE_COMMANDS and
the two offers. -/
def tickCommand (i : Fin 8) (okA okB : Bool) (s : State) : State :=
  match quantize s.params.arith s.rt.acc with
  | none => s.raise Cause.numeric s.rt.acc
  | some q =>
    let u := s.putCommand i q
    (u.offerBoth (encodeFrames u.commands) okA okB).withPhase Phase.idle

/-- The middle of a tick: SLOT_RD and CALC3. -/
def tickControl (okA okB : Bool) (s : State) : State :=
  match slotIx s.targetIx with
  | none => s.raise Cause.slotRange (indexInfo s.targetIx)
  | some i =>
    let e := s.params.arith.fsub s.cfg.targetRpm (s.params.arith.i16ToF32 (s.slot i).rpm)
    if dtPositive s.params.arith s.loop.dtLatch then
      tickCommand i okA okB
        { s with rt := pidStep s.params.arith s.params.filterDiv s.param s.rt e s.loop.dtLatch }
    else s.raise Cause.dtRange s.loop.dtLatch

/-- TICK(rx, dt, okA, okB) with `dt` already latched (rule R210): a fault stops it where it is raised and
the effects of the lines before stay. -/
def tick (rx : Option Frame) (okA okB : Bool) (s : State) : State :=
  let s1 := registryUpdate (rx.bind decodeTelemetry) s
  if s1.phase = Phase.halt then s1 else tickControl okA okB s1

end Sys2Proof.Machine
end

