-- ==== Sys2Proof/Safety.lean ====
section
/-! DEFINITION. What counts as a sound state of the block, in the terms the statements use: the legal
parameters, the invariant every step keeps, and what two states share. -/

namespace Sys2Proof.Machine

/-- The legal values of the parameters (rule R8): FILTER_DIV finite and at least 1.0, TIME_W 1 to 64. -/
def paramsLegal (p : Params) : Prop :=
  F32.isFinite p.filterDiv = true ∧ F32.le 0x3F800000#32 p.filterDiv = true ∧ 1 ≤ p.timeW ∧ p.timeW ≤ 64

/-- A count below 2^TIME_W. -/
def inTimeW (p : Params) (t : Time) : Prop := t.toNat < 2 ^ p.timeW

/-- A controller output: a NaN, or inside the limits (rules R35 and R168). -/
def withinLimits (p : PidParam) (x : F32) : Prop :=
  F32.isNan x = true ∨ (F32.le p.min x = true ∧ F32.le x p.max = true)

/-- The phases of a tick, RX to TXB. -/
def inTick (p : BitVec 4) : Prop := 1 ≤ p.toNat ∧ p.toNat ≤ 8

/-- The invariant of the running block. What depends on how the arithmetic rounds, compares and converts is
claimed for the default record only (rule R8); the rest holds for every record. -/
structure State.Inv (s : State) : Prop where
  /-- The parameters are legal. -/
  params : paramsLegal s.params
  /-- PHASE holds one of the ten codes (rules R40 and R219). -/
  phaseLegal : s.phase.toNat ≤ 8 ∨ s.phase = Phase.halt
  /-- FAULT is 1 exactly when PHASE = HALT (rule R44). -/
  faultIff : s.flt.fault = true ↔ s.phase = Phase.halt
  /-- Without a fault FAULT_CAUSE and FAULT_INFO hold their reset value 0 (rules R45 and R46). -/
  noFault : s.flt.fault = false → s.flt.cause = Cause.none ∧ s.flt.info = 0#32
  /-- With one FAULT_CAUSE holds a code 1 to 4 (rule R230). -/
  causeLegal : s.flt.fault = true → 1 ≤ s.flt.cause.toNat ∧ s.flt.cause.toNat ≤ 4
  /-- Every command lies in [-16384, 16384] (rule R25), and so does the one on its way to a slot. -/
  commands : s.params.fp = .binary32 → ∀ i, cmdInRange (s.slot i).commandedCurrent = true
  pending : s.params.fp = .binary32 → cmdInRange s.loc.q = true
  /-- MIN and MAX are ordered and no NaN (rule R30). -/
  limits : s.params.fp = .binary32 → F32.le s.param.min s.param.max = true
  /-- The timebase registers fit TIME_W (rules R38 and R41). -/
  period : inTimeW s.params s.cfg.period
  lastTick : inTimeW s.params s.loop.lastTick
  sampled : inTimeW s.params s.loc.tNow
  /-- A tick runs only after START (rule R43). -/
  running : inTick s.phase → s.loop.run = true
  /-- Past LOOKUP the target slot is a slot (rule R135). -/
  target : s.phase = Phase.compute ∨ s.phase = Phase.quant → s.cfg.targetSlot.toNat ≤ 7
  /-- What QUANT reads is the accumulator (rules R165 and R204), inside the limits or a NaN (rules R35 and
  R168). -/
  output : s.phase = Phase.quant → s.lat.out = s.rt.acc
  clamped : s.params.fp = .binary32 → s.phase = Phase.quant → withinLimits s.param s.rt.acc
  /-- The frames on offer carry the commands of the register file (rules R68 and R207). -/
  frames : s.phase = Phase.txa ∨ s.phase = Phase.txb → (s.lat.fra, s.lat.frb) = encodeFrames s.commands

/-- The registers of the spec that are no tick-local latch agree: everything a tick leaves for the next
and everything the outside can see (rules R191 and R211). -/
def sameAtTickEnd (s t : State) : Prop :=
  t.rf = s.rf ∧ t.param = s.param ∧ t.rt = s.rt ∧ t.cfg = s.cfg ∧ t.phase = s.phase ∧ t.loop = s.loop
    ∧ t.flt = s.flt ∧ t.outs = s.outs

/-- The telemetry frame that names slot `k`, as an operation (rule R61). -/
def telemetryInstr (k : Fin 8) (a : U16) (r c : I16) (t : Byte) : Instr :=
  match k with
  | 0 => .telem201 a r c t
  | 1 => .telem202 a r c t
  | 2 => .telem203 a r c t
  | 3 => .telem204 a r c t
  | 4 => .telem205 a r c t
  | 5 => .telem206 a r c t
  | 6 => .telem207 a r c t
  | 7 => .telem208 a r c t

end Sys2Proof.Machine
end

