-- ==== Sys2Proof/Certificates/Slice0/Obligations.lean ====
section
/-! DEFINITION. The statements about the model, each from the numbered rules of spec/. Nothing is proved
here. A field of `loc`, `env`, `outs`, `params` or `freeIx` is the MODEL's own (log entries 2 to 6); a
statement names such a field only to say that it, too, is untouched or how a tape moves. -/

open Sys2Proof Sys2Proof.Machine

/-! ### What the statements are written with -/

namespace Sys2Proof.Claims

/-- A frame that meets the four clauses of rule R82. -/
def Accepted (f : Frame) : Prop :=
  f.isStandard = true ∧ f.isData = true ∧ f.length = 8#8 ∧ 0x200 ≤ f.id.toNat ∧ f.id.toNat ≤ 0x208

/-- `s16` of two payload bytes as an integer (rule R9). -/
def s16 (hi lo : Byte) : Int :=
  let z : Int := 256 * (hi.toNat : Int) + (lo.toNat : Int)
  if 128 ≤ hi.toNat then z - 65536 else z

/-- Every register of the spec but those of the register file agrees, PHASE included. -/
def SameRegs (s t : State) : Prop :=
  t.param = s.param ∧ t.rt = s.rt ∧ t.cfg = s.cfg ∧ t.phase = s.phase ∧ t.loop = s.loop ∧ t.flt = s.flt
    ∧ t.lat = s.lat

/-- Everything of the model that is no register of the spec agrees, the operand latches `loc` apart. -/
def SameWorld (s t : State) : Prop :=
  t.params = s.params ∧ t.env = s.env ∧ t.outs = s.outs ∧ t.freeIx = s.freeIx

/-- The state a fault entry leaves (rule R241). -/
def faulted (s : State) (cause : BitVec 3) (info : BitVec 32) : State :=
  { s with flt := { fault := true, cause := cause, info := info }, phase := 15#4 }

/-- The bytes of four commands, big-endian in order: byte `2k` above byte `2k+1` (rule R86). -/
def CarriesCommands (f : Frame) (c0 c1 c2 c3 : I16) : Prop :=
  256 * f.payload[0].toNat + f.payload[1].toNat = c0.toNat
    ∧ 256 * f.payload[2].toNat + f.payload[3].toNat = c1.toNat
    ∧ 256 * f.payload[4].toNat + f.payload[5].toNat = c2.toNat
    ∧ 256 * f.payload[6].toNat + f.payload[7].toNat = c3.toNat

/-- A standard data frame of length 8 with the given identifier (rule R85). -/
def IsDataFrame (f : Frame) (id : BitVec 32) : Prop :=
  f.id = id ∧ f.isStandard = true ∧ f.isData = true ∧ f.length = 8#8

/-- The state's PREV_PR hidden. -/
def hidePrevPr (s : State) : State := { s with rt := { s.rt with prevPr := 0#32 } }

/-- An outcome with PREV_PR of its next state hidden. -/
def hideOutcome : Outcome → Outcome
  | .next t => .next (hidePrevPr t)
  | .fault r => .fault r
  | .refused r => .refused r

/-- The value of `out * 16384` rounded to an integer, ties away from zero, in exact arithmetic: `v` is the
value of `out` in units of 2^-149. -/
def exactCommand (v : Int) : Int :=
  let r : Int := (((2 * (v.natAbs * 16384) + 2 ^ 149) / 2 ^ 150 : Nat) : Int)
  if v < 0 then -r else r

/-- A result that overflows rightly: from `2^128 - 2^103` on it is the infinity of the given sign, and below it
is finite. `num / den` is the magnitude of the exact result in units of 2^-149. -/
def OverflowsRightly (r : F32) (negative : Bool) (num den : Nat) : Prop :=
  ((2 ^ 277 - 2 ^ 252) * den ≤ num → r = F32.inf negative)
    ∧ (num < (2 ^ 277 - 2 ^ 252) * den → F32.isFinite r = true)

/-- A step of the control loop runs a host command whose opcode is in the list. -/
def RunsCommand (s : State) (ops : List (BitVec 4)) : Prop :=
  s.extAnswer = none ∧ s.phase = 0#4 ∧ ∃ w, s.popExt.sampleNow.cmdAnswer = some w ∧ cmdOp w ∈ ops

/-- A step of the control loop from `s` to `t` fires a tick. -/
def FiresTick (s t : State) : Prop :=
  s.extAnswer = none ∧ s.phase = 0#4 ∧ t.phase = 1#4 ∧ s.popExt.sampleNow.cmdAnswer = none

/-- A step of the control loop does the work of the given phase. -/
def DoesPhase (s : State) (p : BitVec 4) : Prop := s.extAnswer = none ∧ s.phase = p

end Sys2Proof.Claims

open Sys2Proof.Claims

/-! ### Reset and faults -/

/-- Rule R51. The reset event, in any phase and HALT included, gives every register the value of the table;
PREV_PR, DT_LATCH, RXF, ACT, OUT, FRA and FRB are "unspecified" there and nothing is said of them. The
environment and the parameters are untouched (rule R263; keeping the model's own `outs` and `params` is log
entry 17). That the controller's runtime registers take these values at reset is "the spec's reading", decision
D19, as rule R51 says itself. -/
def Obligations.ResetEventGivesEveryRegisterItsResetValue : Prop :=
  (∀ s : State, s.extAnswer = some .reset →
    ∃ t, step s = .next t
      ∧ (∀ i, t.slot i = ⟨0#16, 0#16, 0#16, 0#8, 0#16⟩)
      ∧ t.param = ⟨0#32, 0#32, 0#32, 0#32, 0#32⟩
      ∧ t.rt.prevErr = 0#32 ∧ t.rt.pprValid = false ∧ t.rt.fd = 0#32 ∧ t.rt.acc = 0#32
      ∧ t.cfg = ⟨0#32, 0#8, 0#64⟩ ∧ t.phase = 0#4 ∧ t.loop.lastTick = 0#64 ∧ t.loop.run = false
      ∧ t.flt = ⟨false, 0#3, 0#32⟩
      ∧ t.env = { s.env with ext := s.env.ext.tail } ∧ t.outs = s.outs ∧ t.params = s.params)
  ∧ (∀ i, State.reset.slot i = ⟨0#16, 0#16, 0#16, 0#8, 0#16⟩)
  ∧ State.reset.param = ⟨0#32, 0#32, 0#32, 0#32, 0#32⟩
  ∧ State.reset.rt.prevErr = 0#32 ∧ State.reset.rt.pprValid = false
  ∧ State.reset.rt.fd = 0#32 ∧ State.reset.rt.acc = 0#32
  ∧ State.reset.cfg = ⟨0#32, 0#8, 0#64⟩ ∧ State.reset.phase = 0#4
  ∧ State.reset.loop.lastTick = 0#64 ∧ State.reset.loop.run = false
  ∧ State.reset.flt = ⟨false, 0#3, 0#32⟩

/-- From rules R244, R212, R72 and R260. HALT has no successor step: the fault `halted` with the recorded cause
and info is the model's form of that (DEDUCED, log entry 9). In a halted state the block does nothing of its
own, a debug read is answered with the selected slot's 72 bits and changes no register, and the reset event
leads to IDLE with the fault cleared; what the outside does lands between two steps (DEDUCED, log entry 17). -/
def Obligations.HaltIsTerminalUntilReset : Prop :=
  (∀ s, exec .halt s = .fault (.halted s.flt.cause s.flt.info))
  ∧ (∀ s : State, s.phase = 15#4 → s.extAnswer = none → step s = .fault (.halted s.flt.cause s.flt.info))
  ∧ (∀ (s : State) (sel : BitVec 3), s.phase = 15#4 → s.extAnswer = some (.dbgRead sel) →
      let x := s.slot sel.toFin
      ∃ t, step s = .next t
        ∧ t.outs = s.outs
            ++ [.dbg sel (x.angle ++ x.rpm ++ x.measuredCurrent ++ x.temperature ++ x.commandedCurrent)]
        ∧ SameRegs s t ∧ t.rf = s.rf ∧ t.loc = s.loc ∧ t.params = s.params
        ∧ t.env = { s.env with ext := s.env.ext.tail })
  ∧ (∀ s : State, s.phase = 15#4 → s.extAnswer = some .reset →
      ∃ t, step s = .next t ∧ t.phase = 0#4 ∧ t.flt = ⟨false, 0#3, 0#32⟩)

/-- Rule R241. Whatever operation takes the block into HALT, it writes FAULT, FAULT_CAUSE, FAULT_INFO and
PHASE and no other register, and nothing is sent or reported on the way. -/
def Obligations.EnteringHaltChangesOnlyFaultRegistersAndPhase : Prop :=
  ∀ (i : Instr) (s t : State), exec i s = .next t → t.phase = 15#4 → s.phase ≠ 15#4 →
    t.flt.fault = true ∧ 1 ≤ t.flt.cause.toNat ∧ t.flt.cause.toNat ≤ 4
      ∧ t.rf = s.rf ∧ t.param = s.param ∧ t.rt = s.rt ∧ t.cfg = s.cfg ∧ t.loop = s.loop ∧ t.lat = s.lat
      ∧ t.outs = s.outs

/-- Rule R242. The cause and the offending value each fault site records, and that the faulting operation
writes nothing else. CALC3 has handed its error to CALC when CALC faults. -/
def Obligations.FaultsRecordCauseAndOffendingValue : Prop :=
  (∀ s : State, s.params.arith.flt 0x00000000#32 s.loop.dtLatch = false →
    exec .calcPid s = .next (faulted s 1#3 s.loop.dtLatch)
    ∧ ∃ e, exec .calc3 s = .next (faulted { s with loc := { s.loc with err := e } } 1#3 s.loop.dtLatch))
  ∧ (∀ (s : State) (d : Telem), s.loc.dec = some d → d.idx = -1 → s.params.id200 = .fault →
      exec .regUpdate s = .next (faulted s 2#3 0xFFFFFFFF#32))
  ∧ (∀ s : State, 8 ≤ s.cfg.targetSlot.toNat →
      exec .slotRd s = .next (faulted s 2#3 (s.cfg.targetSlot.setWidth 32))
      ∧ exec .slotWrCmd s = .next (faulted s 2#3 (s.cfg.targetSlot.setWidth 32)))
  ∧ (∀ s : State, s.params.arith.isNan s.lat.out = true → exec .quant s = .next (faulted s 3#3 s.lat.out))
  ∧ (∀ (s : State) (kp ki kd lo hi : F32), s.params.arith.fle lo hi = false →
      exec (.setParam kp ki kd lo hi) s = .next (faulted s 4#3 lo)
      ∧ exec (.setLimit lo hi) s = .next (faulted s 4#3 lo))

/-! ### FrameCodec -/

/-- Rule R110. A frame is accepted exactly when the four clauses hold; the index is `id - 0x201` as an
integer; the fields are big-endian, the signed ones two's complement, and `payload[7]` is not read. The
micro-operation applies this to RXF and writes no register. -/
def Obligations.DecodeTelemetryAcceptsAndReadsTheFields : Prop :=
  (∀ f : Frame, Accepted f →
    ∃ d, decodeTelemetry f = some d
      ∧ d.idx = (f.id.toNat : Int) - 0x201
      ∧ d.angle.toNat = 256 * f.payload[0].toNat + f.payload[1].toNat
      ∧ d.rpm.toInt = s16 f.payload[2] f.payload[3]
      ∧ d.cur.toInt = s16 f.payload[4] f.payload[5]
      ∧ d.temp = f.payload[6])
  ∧ (∀ f : Frame, ¬ Accepted f → decodeTelemetry f = none)
  ∧ (∀ s : State, s.lat.rxf = none →
      exec .decodeTelemetry s = .next { s with loc := { s.loc with dec := none } })
  ∧ (∀ (s : State) (f : Frame), s.lat.rxf = some f →
      exec .decodeTelemetry s = .next { s with loc := { s.loc with dec := decodeTelemetry f } })

/-- Rule R115. A frame built by hand from field values decodes to exactly those values, whatever its last
byte. -/
def Obligations.TelemetryFieldsRoundTrip : Prop :=
  ∀ (i : Fin 8) (a : U16) (r c : I16) (t x : Byte),
    decodeTelemetry
      { id := BitVec.ofNat 32 (0x201 + i.val), isStandard := true, isData := true, length := 8#8
        payload := #v[a.extractLsb 15 8, a.extractLsb 7 0, r.extractLsb 15 8, r.extractLsb 7 0,
                      c.extractLsb 15 8, c.extractLsb 7 0, t, x] }
      = some { idx := (i.val : Int), angle := a, rpm := r, cur := c, temp := t }

/-- Rule R94. A received frame that fails the test changes no state in phase DECODE, raises no fault and no
diagnostic, and the tick goes on; it left the queue in phase RX, as every frame does, and is not put back. -/
def Obligations.RejectedFrameIsIgnored : Prop :=
  (∀ (s : State) (f : Frame), s.extAnswer = none → s.phase = 2#4 → s.lat.rxf = some f → ¬ Accepted f →
    step s = .next { s.popExt with phase := 3#4, loc := { s.loc with dec := none } })
  ∧ (∀ (s : State) (f : Frame) (l : List (Option Frame)), s.extAnswer = none → s.phase = 1#4 →
      s.env.rx = some f :: l → ∃ t, step s = .next t ∧ t.lat.rxf = some f ∧ t.env.rx = l ∧ t.phase = 2#4)

/-- Rule R117 with the layout of rules R85 and R86. ENCODE_COMMANDS builds both frames from the eight
commands it is given, slot `i` at bytes `2i` and `2i+1`, and writes FRA, FRB and PHASE only. -/
def Obligations.EncodeCommandsLaysOutBothFrames : Prop :=
  ∀ s : State, ∃ t, exec .encodeCommands s = .next t
    ∧ IsDataFrame t.lat.fra 0x200#32 ∧ IsDataFrame t.lat.frb 0x1FF#32
    ∧ CarriesCommands t.lat.fra s.loc.snap[0] s.loc.snap[1] s.loc.snap[2] s.loc.snap[3]
    ∧ CarriesCommands t.lat.frb s.loc.snap[4] s.loc.snap[5] s.loc.snap[6] s.loc.snap[7]
    ∧ t = { s with lat := { s.lat with fra := t.lat.fra, frb := t.lat.frb }, phase := 7#4 }

/-- Rule R121, the source's own example and the extreme legal values. -/
def Obligations.EncodeLayoutExampleHolds : Prop :=
  (let fs := encodeFrames #v[1#16, -1#16, 2#16, -2#16, 3#16, -3#16, 4#16, -4#16]
   fs.1.payload = #v[0x00#8, 0x01#8, 0xFF#8, 0xFF#8, 0x00#8, 0x02#8, 0xFF#8, 0xFE#8]
   ∧ fs.2.payload = #v[0x00#8, 0x03#8, 0xFF#8, 0xFD#8, 0x00#8, 0x04#8, 0xFF#8, 0xFC#8])
  ∧ (let fs := encodeFrames #v[16384#16, -16384#16, 0#16, 0#16, 0#16, 0#16, 0#16, 0#16]
     fs.1.payload = #v[0x40#8, 0x00#8, 0xC0#8, 0x00#8, 0x00#8, 0x00#8, 0x00#8, 0x00#8])

/-- Rules R85 and R208 for the two outbound formats. A command frame as an operation is the offer of that
frame (the model's reading, DEDUCED in log entry 14): it completes in every state, offers exactly the frame with those commands, reports a failure and
moves PHASE on; where FRA or FRB holds that frame, TRY_SEND does the same. -/
def Obligations.CommandFramesAreOfferedAsBuilt : Prop :=
  (∀ (c0 c1 c2 c3 : I16) (s : State), ∃ f t,
    exec (.cmdFrameA c0 c1 c2 c3) s = .next t
      ∧ IsDataFrame f 0x200#32 ∧ CarriesCommands f c0 c1 c2 c3
      ∧ t.outs = s.outs ++ [.offered f s.txAnswer] ++ (if s.txAnswer then [] else [.diag .txaFail])
      ∧ t.phase = 8#4 ∧ SameRegs s { t with phase := s.phase } ∧ t.rf = s.rf
      ∧ t.env = { s.env with tx := s.env.tx.tail }
      ∧ (s.lat.fra = f → exec .trySendA s = .next t))
  ∧ (∀ (c4 c5 c6 c7 : I16) (s : State), ∃ f t,
    exec (.cmdFrameB c4 c5 c6 c7) s = .next t
      ∧ IsDataFrame f 0x1FF#32 ∧ CarriesCommands f c4 c5 c6 c7
      ∧ t.outs = s.outs ++ [.offered f s.txAnswer] ++ (if s.txAnswer then [] else [.diag .txbFail])
      ∧ t.phase = 0#4 ∧ SameRegs s { t with phase := s.phase } ∧ t.rf = s.rf
      ∧ t.env = { s.env with tx := s.env.tx.tail }
      ∧ (s.lat.frb = f → exec .trySendB s = .next t))

/-! ### MotorRegistry -/

/-- Rules R130 and R132 for the eight identifiers with a slot. A telemetry frame as an operation is
DECODE_TELEMETRY and REG_UPDATE (the model's reading, DEDUCED in log entry 14). It completes in every state: its slot holds exactly the frame's fields and its old command, every other slot and every other
register but PHASE is unchanged. -/
def Obligations.TelemetryFramesWriteOneSlot : Prop :=
  ∀ (k : Fin 8) (a : U16) (r c : I16) (t : Byte) (s : State),
    ∃ u, exec (telemetryInstr k a r c t) s = .next u
      ∧ u.slot k = ⟨a, r, c, t, (s.slot k).commandedCurrent⟩
      ∧ (∀ j, j ≠ k → u.slot j = s.slot j)
      ∧ u.phase = 3#4 ∧ SameRegs s { u with phase := s.phase } ∧ SameWorld s u

/-- Rule R130. REG_UPDATE: no frame, no change; an index 0 to 7 writes the four fields of that slot and
nothing else; any other index is rule R131's. -/
def Obligations.RegUpdateFollowsTheIndex : Prop :=
  (∀ s : State, s.loc.dec = none → exec .regUpdate s = .next { s with phase := 3#4 })
  ∧ (∀ (s : State) (d : Telem) (k : Fin 8), s.loc.dec = some d → d.idx = (k.val : Int) →
      ∃ u, exec .regUpdate s = .next u
        ∧ u.slot k = ⟨d.angle, d.rpm, d.cur, d.temp, (s.slot k).commandedCurrent⟩
        ∧ (∀ j, j ≠ k → u.slot j = s.slot j)
        ∧ u = { s with rf := u.rf, phase := 3#4 })
  ∧ (∀ (s : State) (d : Telem), s.loc.dec = some d → (d.idx < 0 ∨ 7 < d.idx) →
      (s.params.id200 = .fault → exec .regUpdate s = .next (faulted s 2#3 (BitVec.ofInt 32 d.idx)))
      ∧ (s.params.id200 = .drop → exec .regUpdate s = .next { s with phase := 3#4 }))

/-- Rule R131, the frame being the operation of log entry 14. Identifier 0x200 under both policies: no slot is ever written; FAULT halts with
FAULT_INFO = 0xFFFFFFFF, DROP ignores the frame. -/
def Obligations.Identifier200FaultsOrIsDropped : Prop :=
  ∀ (a : U16) (r c : I16) (t : Byte) (s : State),
    let s' := { s with loc := { s.loc with dec := some ⟨-1, a, r, c, t⟩ } }
    (s.params.id200 = .fault → exec (.telem200 a r c t) s = .next (faulted s' 2#3 0xFFFFFFFF#32))
    ∧ (s.params.id200 = .drop → exec (.telem200 a r c t) s = .next { s' with phase := 3#4 })

/-- Rule R133. SLOT_RD reads the target slot's rpm into ACT, or faults SLOT_RANGE with the index. -/
def Obligations.SlotRdReadsTheTargetSlot : Prop :=
  (∀ (s : State) (k : Fin 8), s.cfg.targetSlot.toNat = k.val →
    exec .slotRd s = .next { s with lat := { s.lat with act := (s.slot k).rpm }, phase := 4#4 })
  ∧ (∀ s : State, 7 < s.cfg.targetSlot.toNat →
      exec .slotRd s = .next (faulted s 2#3 (s.cfg.targetSlot.setWidth 32)))

/-- Rule R135. SLOT_WR_CMD writes one field of one slot, or faults SLOT_RANGE with the index. -/
def Obligations.SlotWrCmdWritesOneCommand : Prop :=
  (∀ (s : State) (k : Fin 8), s.cfg.targetSlot.toNat = k.val →
    ∃ u, exec .slotWrCmd s = .next u
      ∧ u.slot k = { s.slot k with commandedCurrent := s.loc.q }
      ∧ (∀ j, j ≠ k → u.slot j = s.slot j)
      ∧ u = { s with rf := u.rf, phase := 6#4 })
  ∧ (∀ s : State, 7 < s.cfg.targetSlot.toNat →
      exec .slotWrCmd s = .next (faulted s 2#3 (s.cfg.targetSlot.setWidth 32)))

/-- Rule R137. SNAPSHOT answers the eight commands in slot order and writes no register. -/
def Obligations.SnapshotReadsTheCommandsInSlotOrder : Prop :=
  ∀ s : State, ∃ u, exec .snapshot s = .next u
    ∧ (∀ i : Fin 8, u.loc.snap[i.val] = (s.slot i).commandedCurrent)
    ∧ u = { s with loc := { s.loc with snap := u.loc.snap } }

/-- Rule R139. The debug read answers the 72 bits of the selected slot in every phase and changes no
register. -/
def Obligations.DebugReadAnswersTheSelectedSlot : Prop :=
  ∀ (sel : BitVec 3) (s : State), ∃ v : BitVec 72,
    exec (.dbgRead sel) s = .next { s with outs := s.outs ++ [.dbg sel v] }
      ∧ v.extractLsb 71 56 = (s.slot sel.toFin).angle
      ∧ v.extractLsb 55 40 = (s.slot sel.toFin).rpm
      ∧ v.extractLsb 39 24 = (s.slot sel.toFin).measuredCurrent
      ∧ v.extractLsb 23 16 = (s.slot sel.toFin).temperature
      ∧ v.extractLsb 15 0 = (s.slot sel.toFin).commandedCurrent

/-! ### VelocityPid -/

/-- Rule R165 in the evaluation order of rule R152. CALC past its precondition writes the five runtime
registers and OUT by the seven steps, for every arithmetic record FP, moves PHASE to QUANT and writes nothing else; without the precondition
it faults DT_RANGE with the interval and writes nothing. -/
def Obligations.CalcFollowsTheSevenSteps : Prop :=
  ∀ s : State,
    (s.params.arith.flt 0x00000000#32 s.loop.dtLatch = false → exec .calcPid s = .next (faulted s 1#3 s.loop.dtLatch))
    ∧ (s.params.arith.flt 0x00000000#32 s.loop.dtLatch = true →
      let fp := s.params.arith
      let e := s.loc.err
      let dt := s.loop.dtLatch
      let pr := fp.fdiv (fp.fsub e s.rt.prevErr) dt
      let d := if s.rt.pprValid = false then 0x00000000#32 else fp.fdiv (fp.fsub pr s.rt.prevPr) dt
      let fd := fp.fadd s.rt.fd (fp.fdiv (fp.fsub d s.rt.fd) s.params.filterDiv)
      let delta := fp.fadd (fp.fadd (fp.fmul s.param.kp pr) (fp.fmul s.param.ki e)) (fp.fmul s.param.kd fd)
      let x := fp.fadd s.rt.acc delta
      let acc := if fp.flt x s.param.min = true then s.param.min
                 else if fp.flt s.param.max x = true then s.param.max else x
      exec .calcPid s
        = .next { s with rt := ⟨e, pr, true, fd, acc⟩, lat := { s.lat with out := acc }, phase := 5#4 })

/-- Rule R169 with the operands of rule R204. CALC3 is CALC on the error target minus actual; with a
positive `dt` it completes and leaves PHASE at QUANT with OUT the new accumulator. -/
def Obligations.Calc3IsCalcOnTheError : Prop :=
  ∀ s : State,
    let fp := s.params.arith
    let e := fp.fsub s.cfg.targetRpm (fp.i16ToF32 s.lat.act)
    exec .calc3 s = exec .calcPid { s with loc := { s.loc with err := e } }
    ∧ (s.params.arith.flt 0x00000000#32 s.loop.dtLatch = true →
        ∃ t, exec .calc3 s = .next t ∧ t.phase = 5#4 ∧ t.lat.out = t.rt.acc ∧ t.rt.pprValid = true
          ∧ t.rt.prevErr = e ∧ t.rt.prevPr = fp.fdiv (fp.fsub e s.rt.prevErr) s.loop.dtLatch
          ∧ t = { s with rt := t.rt, lat := { s.lat with out := t.lat.out }
                         loc := { s.loc with err := e }, phase := 5#4 })

/-- Rule R168, which the spec derives from rules R165 and R12. Under the default arithmetic and with
ordered limits, the value CALC returns and keeps lies in [MIN, MAX] or is a NaN, for
any gains, any error and any history. -/
def Obligations.CalcOutputStaysInsideTheLimits : Prop :=
  ∀ s : State, s.params.fp = .binary32 →
    F32.lt 0x00000000#32 s.loop.dtLatch = true → F32.le s.param.min s.param.max = true →
    ∃ t, exec .calcPid s = .next t ∧ t.lat.out = t.rt.acc
      ∧ (F32.isNan t.rt.acc = true
          ∨ (F32.le s.param.min t.rt.acc = true ∧ F32.le t.rt.acc s.param.max = true))

/-- Rule R166, under the default arithmetic. The first CALC after a reset of the controller: PREV_PR is not read, the filter state stays
+0.0, the derivative term is a zero for a finite KD and a NaN otherwise, the proportional term is not
suppressed, and the controller is warm afterwards. -/
def Obligations.ColdCalcSuppressesTheDerivative : Prop :=
  ∀ s : State, s.params.fp = .binary32 → paramsLegal s.params → F32.lt 0x00000000#32 s.loop.dtLatch = true →
    s.rt.pprValid = false → s.rt.fd = 0x00000000#32 →
    ∃ t, exec .calcPid s = .next t ∧ t.rt.fd = 0x00000000#32 ∧ t.rt.pprValid = true
      ∧ t.rt.prevPr = F32.div (F32.sub s.loc.err s.rt.prevErr) s.loop.dtLatch
      ∧ (F32.isFinite s.param.kd = true → F32.isZero (F32.mul s.param.kd t.rt.fd) = true)
      ∧ (F32.isFinite s.param.kd = false → F32.isNan (F32.mul s.param.kd t.rt.fd) = true)
      ∧ (∀ x : F32, exec .calcPid { s with rt := { s.rt with prevPr := x } } = .next t)

/-- Rule R172, under the default arithmetic. After PID_RESET a CALC on a zero error adds nothing before clamping, for finite gains: the
output is the clamped zero. -/
def Obligations.ZeroErrorAfterPidResetAddsNothing : Prop :=
  ∀ s t : State, s.params.fp = .binary32 → paramsLegal s.params → F32.lt 0x00000000#32 s.loop.dtLatch = true →
    F32.isFinite s.param.kp = true → F32.isFinite s.param.ki = true → F32.isFinite s.param.kd = true →
    exec .pidReset s = .next t →
    ∃ u, exec .calcPid { t with loc := { t.loc with err := 0x00000000#32 } } = .next u
      ∧ u.rt.acc = (if F32.lt 0x00000000#32 s.param.min = true then s.param.min
                    else if F32.lt s.param.max 0x00000000#32 = true then s.param.max else 0x00000000#32)

/-- Rule R171. PID_RESET writes the four runtime registers and PPR_VALID; PREV_PR becomes unspecified and
nothing is said of it; every other register keeps its value. -/
def Obligations.PidResetClearsTheRuntimeRegisters : Prop :=
  ∀ s : State, ∃ t, exec .pidReset s = .next t
    ∧ t.rt.prevErr = 0x00000000#32 ∧ t.rt.pprValid = false ∧ t.rt.fd = 0x00000000#32
    ∧ t.rt.acc = 0x00000000#32
    ∧ SameRegs s { t with rt := s.rt } ∧ t.rf = s.rf ∧ t.loc = s.loc
    ∧ t.params = s.params ∧ t.env = s.env ∧ t.outs = s.outs

/-- Rule R173. SET_PARAM with ordered limits replaces gains and limits and resets the controller; otherwise
it faults LIMIT_ORDER and writes nothing. -/
def Obligations.SetParamReplacesAndResets : Prop :=
  ∀ (kp ki kd lo hi : F32) (s : State),
    (s.params.arith.fle lo hi = true → ∃ t, exec (.setParam kp ki kd lo hi) s = .next t
      ∧ t.param = ⟨kp, ki, kd, lo, hi⟩
      ∧ t.rt.prevErr = 0x00000000#32 ∧ t.rt.pprValid = false ∧ t.rt.fd = 0x00000000#32
      ∧ t.rt.acc = 0x00000000#32
      ∧ SameRegs s { t with param := s.param, rt := s.rt } ∧ t.rf = s.rf ∧ t.loc = s.loc
      ∧ t.params = s.params ∧ t.env = s.env ∧ t.outs = s.outs)
    ∧ (s.params.arith.fle lo hi = false → exec (.setParam kp ki kd lo hi) s = .next (faulted s 4#3 lo))

/-- Rule R174. SET_GAIN replaces the gains, keeps the limits and resets the controller. -/
def Obligations.SetGainReplacesGainsAndResets : Prop :=
  ∀ (kp ki kd : F32) (s : State), ∃ t, exec (.setGain kp ki kd) s = .next t
    ∧ t.param = { s.param with kp := kp, ki := ki, kd := kd }
    ∧ t.rt.prevErr = 0x00000000#32 ∧ t.rt.pprValid = false ∧ t.rt.fd = 0x00000000#32
    ∧ t.rt.acc = 0x00000000#32
    ∧ SameRegs s { t with param := s.param, rt := s.rt } ∧ t.rf = s.rf ∧ t.loc = s.loc
    ∧ t.params = s.params ∧ t.env = s.env ∧ t.outs = s.outs

/-- Rule R175. SET_LIMIT with ordered limits replaces MIN and MAX and nothing else, in particular none of
the five runtime registers; otherwise it faults LIMIT_ORDER and writes nothing. -/
def Obligations.SetLimitDoesNotReset : Prop :=
  ∀ (lo hi : F32) (s : State),
    (s.params.arith.fle lo hi = true →
      exec (.setLimit lo hi) s = .next { s with param := { s.param with min := lo, max := hi } })
    ∧ (s.params.arith.fle lo hi = false → exec (.setLimit lo hi) s = .next (faulted s 4#3 lo))

/-- Rule R101, derived. SET_PARAM leaves the state that SET_LIMIT followed by SET_GAIN leaves, and the one
that SET_GAIN followed by SET_LIMIT leaves; PREV_PR, which is unspecified after both, and the model's
count of free values apart. -/
def Obligations.SetParamIsSetLimitAndSetGain : Prop :=
  ∀ (kp ki kd lo hi : F32) (s : State), s.params.arith.fle lo hi = true →
    ∃ t u v w x, exec (.setParam kp ki kd lo hi) s = .next t
      ∧ exec (.setLimit lo hi) s = .next u ∧ exec (.setGain kp ki kd) u = .next v
      ∧ exec (.setGain kp ki kd) s = .next w ∧ exec (.setLimit lo hi) w = .next x
      ∧ { hidePrevPr v with freeIx := 0 } = { hidePrevPr t with freeIx := 0 }
      ∧ { hidePrevPr x with freeIx := 0 } = { hidePrevPr t with freeIx := 0 }

/-- Rule R33. While PPR_VALID is 0 no step reads PREV_PR: whatever its bits, the step ends the same way,
and the next states agree on everything but PREV_PR itself. -/
def Obligations.UnsetPrevPrIsNeverRead : Prop :=
  ∀ (s : State) (x : F32), s.rt.pprValid = false →
    hideOutcome (step { s with rt := { s.rt with prevPr := x } }) = hideOutcome (step s)

/-! ### The arithmetic -/

/-- Rule R151 for the four operations on finite operands. The result, where finite, is a nearest f32 to the
exact result, and of two equally near ones the one with an even last bit. Values are integers in units
of 2^-149; a product is compared in units of 2^-298 and a quotient after multiplying by the divisor. -/
def Obligations.ArithmeticRoundsToNearestTiesToEven : Prop :=
  ∀ a b c : F32, F32.isFinite a = true → F32.isFinite b = true → F32.isFinite c = true →
    (F32.isFinite (F32.add a b) = true →
      let x := F32.val a + F32.val b
      let r := F32.add a b
      |x - F32.val r| ≤ |x - F32.val c|
      ∧ (|x - F32.val r| = |x - F32.val c| → F32.val c ≠ F32.val r → r.getLsbD 0 = false))
    ∧ (F32.isFinite (F32.sub a b) = true →
      let x := F32.val a - F32.val b
      let r := F32.sub a b
      |x - F32.val r| ≤ |x - F32.val c|
      ∧ (|x - F32.val r| = |x - F32.val c| → F32.val c ≠ F32.val r → r.getLsbD 0 = false))
    ∧ (F32.isFinite (F32.mul a b) = true →
      let x := F32.val a * F32.val b
      let r := F32.mul a b
      |x - F32.val r * 2 ^ 149| ≤ |x - F32.val c * 2 ^ 149|
      ∧ (|x - F32.val r * 2 ^ 149| = |x - F32.val c * 2 ^ 149| → F32.val c ≠ F32.val r →
          r.getLsbD 0 = false))
    ∧ (F32.isZero b = false → F32.isFinite (F32.div a b) = true →
      let x := F32.val a * 2 ^ 149
      let r := F32.div a b
      |x - F32.val r * F32.val b| ≤ |x - F32.val c * F32.val b|
      ∧ (|x - F32.val r * F32.val b| = |x - F32.val c * F32.val b| → F32.val c ≠ F32.val r →
          r.getLsbD 0 = false))

/-- Rule R11, the special values of the four operations. A NaN operand gives a NaN; `inf - inf`, `0 * inf`,
`0 / 0` and `inf / inf` give a NaN and nothing else without a NaN operand does; a zero divisor gives a signed
infinity; one infinite operand gives an infinity, or a zero where it divides a finite one; and finite
operands, a zero divisor apart, give a finite result or, exactly from 2^128 - 2^103 on, the infinity of the
exact result's sign. -/
def Obligations.ArithmeticSpecialValuesFollowTheTable : Prop :=
  (∀ a b : F32, (F32.isNan a = true ∨ F32.isNan b = true) →
    F32.isNan (F32.add a b) = true ∧ F32.isNan (F32.sub a b) = true
      ∧ F32.isNan (F32.mul a b) = true ∧ F32.isNan (F32.div a b) = true)
  ∧ (∀ p q : Bool, F32.isNan (F32.add (F32.inf p) (F32.inf (!p))) = true
      ∧ F32.isNan (F32.sub (F32.inf p) (F32.inf p)) = true
      ∧ F32.isNan (F32.mul (F32.zero p) (F32.inf q)) = true
      ∧ F32.isNan (F32.mul (F32.inf q) (F32.zero p)) = true
      ∧ F32.isNan (F32.div (F32.zero p) (F32.zero q)) = true
      ∧ F32.isNan (F32.div (F32.inf p) (F32.inf q)) = true
      ∧ F32.add (F32.inf p) (F32.inf p) = F32.inf p ∧ F32.sub (F32.inf p) (F32.inf (!p)) = F32.inf p
      ∧ F32.mul (F32.inf p) (F32.inf q) = F32.inf (p != q))
  ∧ (∀ (a : F32) (q : Bool), F32.isFinite a = true → F32.isZero a = false →
      F32.div a (F32.zero q) = F32.inf (F32.sign a != q))
  ∧ (∀ (a : F32) (q : Bool), F32.isFinite a = true →
      F32.add (F32.inf q) a = F32.inf q ∧ F32.add a (F32.inf q) = F32.inf q
      ∧ F32.sub (F32.inf q) a = F32.inf q ∧ F32.sub a (F32.inf q) = F32.inf (!q)
      ∧ (F32.isZero a = false → F32.mul (F32.inf q) a = F32.inf (q != F32.sign a)
          ∧ F32.mul a (F32.inf q) = F32.inf (F32.sign a != q))
      ∧ F32.div (F32.inf q) a = F32.inf (q != F32.sign a)
      ∧ F32.div a (F32.inf q) = F32.zero (F32.sign a != q))
  ∧ (∀ a b : F32, F32.isFinite a = true → F32.isFinite b = true →
      OverflowsRightly (F32.add a b) (decide (F32.val a + F32.val b < 0)) (F32.val a + F32.val b).natAbs 1
      ∧ OverflowsRightly (F32.sub a b) (decide (F32.val a - F32.val b < 0)) (F32.val a - F32.val b).natAbs 1
      ∧ OverflowsRightly (F32.mul a b) (F32.sign a != F32.sign b) (F32.val a * F32.val b).natAbs (2 ^ 149)
      ∧ (F32.isZero b = false →
          OverflowsRightly (F32.div a b) (F32.sign a != F32.sign b)
            (F32.val a * 2 ^ 149).natAbs (F32.val b).natAbs))

/-- Rule R11 for the two conversions and the two comparisons. `i16_to_f32` is exact. `fround_haz` gives the
nearest integer, ties away from zero, with the operand's sign, and returns infinities and NaNs unchanged.
`flt` and `fle` are false on a NaN, order finite operands by their values, so that the two zeros are equal,
and order the infinities around them. -/
def Obligations.ConversionsAndComparisonsAreExact : Prop :=
  (∀ x : I16, F32.isFinite (F32.ofI16 x) = true ∧ F32.val (F32.ofI16 x) = x.toInt * 2 ^ 149)
  ∧ (∀ a : F32, F32.isFinite a = false → F32.roundHaz a = a)
  ∧ (∀ a : F32, F32.isFinite a = true →
      F32.isFinite (F32.roundHaz a) = true ∧ F32.sign (F32.roundHaz a) = F32.sign a
        ∧ F32.mag (F32.roundHaz a) = (2 * F32.mag a + 2 ^ 149) / 2 ^ 150 * 2 ^ 149)
  ∧ (∀ a b : F32, (F32.isNan a = true ∨ F32.isNan b = true) → F32.lt a b = false ∧ F32.le a b = false)
  ∧ (∀ a b : F32, F32.isFinite a = true → F32.isFinite b = true →
      F32.lt a b = decide (F32.val a < F32.val b) ∧ F32.le a b = decide (F32.val a ≤ F32.val b))
  ∧ (∀ p q : Bool, F32.lt (F32.zero p) (F32.zero q) = false ∧ F32.le (F32.zero p) (F32.zero q) = true)
  ∧ (∀ (a : F32) (p : Bool), F32.isFinite a = true →
      F32.lt a (F32.inf p) = !p ∧ F32.le a (F32.inf p) = !p
        ∧ F32.lt (F32.inf p) a = p ∧ F32.le (F32.inf p) a = p)
  ∧ (∀ p q : Bool, F32.lt (F32.inf p) (F32.inf q) = (p && !q) ∧ F32.le (F32.inf p) (F32.inf q) = (p || !q))

/-! ### ControlLoop -/

/-- Rules R193 and R194. Each IDLE step samples `now()` once and asks for a command; `u` is the state after
these two exchanges, which change no register. A pending command word is executed; without one a tick
fires exactly when RUN = 1 and the elapsed count, modulo 2^TIME_W, exceeds PERIOD; else nothing. -/
def Obligations.IdleStepDoesOneOfThreeThings : Prop :=
  ∀ s : State, s.params.timeW ≤ 64 →
    let u := s.sampleNow.popCmd
    let elapsed : Int := ((s.nowAnswer.toNat : Int) - (s.loop.lastTick.toNat : Int)) % 2 ^ s.params.timeW
    SameRegs s u ∧ u.rf = s.rf ∧ u.outs = s.outs ∧ u.params = s.params ∧ u.loc.tNow = s.nowAnswer
    ∧ (∀ (w : CmdWord) (i : Instr), s.sampleNow.cmdAnswer = some w → decode (.cmd w) = .ok i →
        exec .idleStep s = exec i u)
    ∧ (s.sampleNow.cmdAnswer = none → s.loop.run = true → (s.cfg.period.toNat : Int) < elapsed →
        ∃ t, exec .idleStep s = .next t
          ∧ t.loop = ⟨s.nowAnswer, u.dtAnswer, true⟩ ∧ t.phase = 1#4
          ∧ SameRegs s { t with loop := s.loop, phase := s.phase } ∧ t.rf = s.rf ∧ t.outs = s.outs)
    ∧ (s.sampleNow.cmdAnswer = none →
        ¬ (s.loop.run = true ∧ (s.cfg.period.toNat : Int) < elapsed) → exec .idleStep s = .next u)

/-- Rule R196. TRY_RECEIVE asks the bus once, latches the answer and goes to DECODE. -/
def Obligations.TryReceiveLatchesOneAnswer : Prop :=
  ∀ s : State, ∃ t, exec .tryReceive s = .next t
    ∧ t.lat = { s.lat with rxf := s.rxAnswer } ∧ t.phase = 2#4
    ∧ SameRegs s { t with lat := s.lat, phase := s.phase } ∧ t.rf = s.rf ∧ t.outs = s.outs ∧ t.loc = s.loc
    ∧ t.env = { s.env with rx := s.env.rx.tail }

/-- Rule R208. Each frame is offered once; a failure raises its diagnostic event and nothing else: no
register but PHASE depends on the answer. -/
def Obligations.TrySendOffersOnceAndReportsFailure : Prop :=
  ∀ s : State,
    (∃ t, exec .trySendA s = .next t
      ∧ t.outs = s.outs ++ [.offered s.lat.fra s.txAnswer] ++ (if s.txAnswer then [] else [.diag .txaFail])
      ∧ t.phase = 8#4 ∧ SameRegs s { t with phase := s.phase } ∧ t.rf = s.rf ∧ t.loc = s.loc
      ∧ t.env = { s.env with tx := s.env.tx.tail })
    ∧ (∃ t, exec .trySendB s = .next t
      ∧ t.outs = s.outs ++ [.offered s.lat.frb s.txAnswer] ++ (if s.txAnswer then [] else [.diag .txbFail])
      ∧ t.phase = 0#4 ∧ SameRegs s { t with phase := s.phase } ∧ t.rf = s.rf ∧ t.loc = s.loc
      ∧ t.env = { s.env with tx := s.env.tx.tail })

/-- Rule R206. QUANT on anything but a NaN completes and writes no register: its result is `OUT * 16384.0`
rounded by `fround_haz` and held to ±16384.0, in the evaluation order of the rule, for every arithmetic record.
Under the default one that is `OUT * 16384` rounded to an integer in exact arithmetic, ties away from zero, held
to ±16384; infinities saturate. -/
def Obligations.QuantRoundsHalfAwayAndSaturates : Prop :=
  (∀ s : State, s.params.arith.isNan s.lat.out = false →
    let fp := s.params.arith
    let r := fp.froundHaz (fp.fmul s.lat.out 0x46800000#32)
    let c := if fp.flt r 0xC6800000#32 = true then 0xC6800000#32
             else if fp.flt 0x46800000#32 r = true then 0x46800000#32 else r
    exec .quant s = .next { s with loc := { s.loc with q := BitVec.ofInt 16 (fp.f32ToInt c) } })
  ∧ (∀ s : State, s.params.fp = .binary32 → F32.isNan s.lat.out = false →
      ∃ q : I16, exec .quant s = .next { s with loc := { s.loc with q := q } }
        ∧ q.toInt = max (-16384) (min 16384 (exactCommand (F32.val s.lat.out))))

/-- Rules R215, R216 and R217. SET_TARGET, SET_SLOT and SET_PERIOD each write their one register and
nothing else, for every operand; the period is `{a1, a0}` cut to TIME_W bits. -/
def Obligations.LoopConfigurationCommandsWriteOneRegister : Prop :=
  (∀ (r : F32) (s : State), exec (.setTarget r) s = .next { s with cfg := { s.cfg with targetRpm := r } })
  ∧ (∀ (n : Byte) (s : State), exec (.setSlot n) s = .next { s with cfg := { s.cfg with targetSlot := n } })
  ∧ (∀ (lo hi : BitVec 32) (s : State), s.params.timeW ≤ 64 →
      ∃ p : Time, exec (.setPeriod lo hi) s = .next { s with cfg := { s.cfg with period := p } }
        ∧ p.toNat = (lo.toNat + hi.toNat * 2 ^ 32) % 2 ^ s.params.timeW)

/-- Rule R218. START sets RUN and takes this IDLE step's `now()` into LAST_TICK; while running it changes
nothing. -/
def Obligations.StartArmsTheLoopOnce : Prop :=
  ∀ s : State,
    (s.loop.run = false →
      exec .start s = .next { s with loop := { s.loop with run := true, lastTick := s.loc.tNow } })
    ∧ (s.loop.run = true → exec .start s = .next s)

/-! ### Encodings -/

/-- From the layouts of rules R81 to R91, each format in its own space (log entry 16). Every operation's
encoding decodes to that operation, with every operand at every value. -/
def Obligations.DecodeOfEncodeIsTheInstruction : Prop :=
  ∀ i : Instr, decode (encode i) = .ok i

/-- Rule R93. Every encoded object that decodes matches its operation's row of the opcode table, and an
inbound frame is dropped exactly when it matches no telemetry row. -/
def Obligations.DecodedObjectsMatchTheirTableRow : Prop :=
  (∀ (e : Encoded) (i : Instr), decode e = .ok i → e.value &&& e.mask = i.rowMatch)
  ∧ (∀ b : FrameBits, decode (.frameIn b) = .error .notTelemetry ↔
      ∀ k : Fin 9, b.toNat &&& 0x3FFFFFFFFFF0000000000000000 ≠ 0x803080000000000000000 + k.val * 2 ^ 74)

/-- From rules R81, R82 and R110, decision D28's canonical bits. The decoder of canonical inbound words and DECODE_TELEMETRY agree on every frame: rejected together, or
the word's operation is the telemetry operation of the decoded index and fields. -/
def Obligations.InboundWordAndFrameDecodersAgree : Prop :=
  ∀ f : Frame,
    (decodeTelemetry f = none → decode (.frameIn f.toBits) = .error .notTelemetry)
    ∧ (∀ d : Telem, decodeTelemetry f = some d → d.idx = -1 →
        decode (.frameIn f.toBits) = .ok (.telem200 d.angle d.rpm d.cur d.temp))
    ∧ (∀ (d : Telem) (k : Fin 8), decodeTelemetry f = some d → d.idx = (k.val : Int) →
        decode (.frameIn f.toBits) = .ok (telemetryInstr k d.angle d.rpm d.cur d.temp))
    ∧ (∀ d : Telem, decodeTelemetry f = some d → -1 ≤ d.idx ∧ d.idx ≤ 7)

/-- A few words written out from the spec's encodings and test vectors, one for each format. -/
def Obligations.WrittenOutWordsDecode : Prop :=
  decode (.frameIn 0x000000807080000070800000000#106) = .ok (.telem201 0x0000#16 0x0708#16 0x0000#16 0x00#8)
  ∧ decode (.frameOut 0x000000803080001FFFF0002FFFE#106)
      = .ok (.cmdFrameA 0x0001#16 0xFFFF#16 0x0002#16 0xFFFE#16)
  ∧ decode (.cmd 0x3F000000BF00000000000000000000003A83126F2#164)
      = .ok (.setParam 0x3A83126F#32 0x00000000#32 0x00000000#32 0xBF000000#32 0x3F000000#32)
  ∧ decode (.uop 0x5#4 .second) = .ok .slotWrCmd
  ∧ decode (.port 0x3#3) = .ok (.dbgRead 0x3#3)

/-! ### The step -/

/-- Rule R191 with the table of rule R90; that a step is one phase, that the rest of a phase is left out after
a fault and that CALC3 performs CALC itself is DEDUCED in log entry 8. Where the outside does nothing, a step
is the work of the phase PHASE names: the operation that decodes from the phase code, and after it, unless it
ended in HALT, the second one where the phase has two (CALC excepted). A code 9 to 14 is refused as
`undefinedPhase`, which is the model's choice (DEDUCED, log entry 11): rule R96 asks for no meaning. `popExt`
is the state once it is known that the outside does nothing; it changes no register. -/
def Obligations.StepRunsTheOperationsOfThePhase : Prop :=
  (∀ (s : State) (i : Instr), s.extAnswer = none → decode (.uop s.phase .first) = .ok i →
    (∀ j, decode (.uop s.phase .second) ≠ .ok j) ∨ s.phase = 4#4 →
    step s = exec i s.popExt)
  ∧ (∀ (s u : State) (i j : Instr), s.extAnswer = none → s.phase ≠ 4#4 →
      decode (.uop s.phase .first) = .ok i → decode (.uop s.phase .second) = .ok j →
      exec i s.popExt = .next u →
      (u.phase = 15#4 → step s = .next u) ∧ (u.phase ≠ 15#4 → step s = exec j u))
  ∧ (∀ (s : State) (e : DecodeError), s.extAnswer = none → decode (.uop s.phase .first) = .error e →
      step s = .refused (.undefinedPhase s.phase))
  ∧ (∀ s : State, SameRegs s s.popExt ∧ s.popExt.rf = s.rf ∧ s.popExt.loc = s.loc ∧ s.popExt.outs = s.outs
      ∧ s.popExt.params = s.params ∧ s.popExt.env = { s.env with ext := s.env.ext.tail })

/-- Rules R193 and R213. In IDLE the step runs the command word the host presents: `step` is `exec` of the
decoded command in the state where it is known that the outside does nothing (log entry 17), `now()` has been
sampled and the word has been taken. -/
def Obligations.StepRunsThePendingCommand : Prop :=
  ∀ (s : State) (w : CmdWord) (i : Instr), s.extAnswer = none → s.phase = 0#4 →
    s.popExt.sampleNow.cmdAnswer = some w → decode (.cmd w) = .ok i →
    step s = exec i s.popExt.sampleNow.popCmd

/-- From rules R198, R208, R139 and R72. In DECODE the step runs the telemetry frame in RXF, and in TXA and TXB
the command frame in FRA and FRB, as the decoder reads it: that a frame row of the table is such an operation
is DEDUCED in log entry 14. A debug read that is due is run before the phase (DEDUCED, log entry 17). -/
def Obligations.StepRunsTheFrameOrDebugRead : Prop :=
  (∀ (s : State) (f : Frame) (i : Instr), s.extAnswer = none → s.phase = 2#4 → s.lat.rxf = some f →
    decode (.frameIn f.toBits) = .ok i → step s = exec i s.popExt)
  ∧ (∀ (s : State) (c0 c1 c2 c3 : I16), s.extAnswer = none → s.phase = 7#4 →
      decode (.frameOut s.lat.fra.toBits) = .ok (.cmdFrameA c0 c1 c2 c3) →
      step s = exec (.cmdFrameA c0 c1 c2 c3) s.popExt)
  ∧ (∀ (s : State) (c4 c5 c6 c7 : I16), s.extAnswer = none → s.phase = 8#4 →
      decode (.frameOut s.lat.frb.toBits) = .ok (.cmdFrameB c4 c5 c6 c7) →
      step s = exec (.cmdFrameB c4 c5 c6 c7) s.popExt)
  ∧ (∀ (s : State) (sel : BitVec 3), s.extAnswer = some (.dbgRead sel) →
      step s = exec (.dbgRead sel) s.popExt)

/-- The invariant holds after reset. -/
def Obligations.InvariantHoldsAtReset : Prop := State.reset.Inv

/-- Every step keeps the invariant, from every state that meets it, with any parameters, the arithmetic among them,
any answers of the environment and any outside event. What rests on rounding and comparing is an invariant of
the default arithmetic only. -/
def Obligations.StepKeepsTheInvariant : Prop :=
  ∀ s t : State, s.Inv → step s = .next t → t.Inv

/-- Rule R219, which the spec derives from rules R193 to R212. Every transition of PHASE: the reset event leads to IDLE, HALT has no step of its own, and from
a state that meets the invariant, outside HALT and where the outside does nothing, the step never stops and goes
where the table says. A pending word with a reserved opcode is left out, since rule R95 says that no claim
may depend on one. -/
def Obligations.PhaseTransitionsFollowTheTable : Prop :=
  (∀ s : State, s.extAnswer = some .reset → ∃ t, step s = .next t ∧ t.phase = 0#4)
  ∧ (∀ s t : State, s.extAnswer = none → s.phase = 15#4 → step s ≠ .next t)
  ∧ (∀ s : State, s.Inv → s.extAnswer = none → s.phase ≠ 15#4 →
    (s.phase = 0#4 → ∀ w op, s.popExt.sampleNow.cmdAnswer = some w → decode (.cmd w) ≠ .error (.reservedOpcode op)) →
    ∃ t, step s = .next t
      ∧ (s.phase = 0#4 → t.phase = 0#4 ∨ t.phase = 1#4 ∨ (t.phase = 15#4 ∧ t.flt.cause = 4#3))
      ∧ (s.phase = 0#4 → (t.phase = 1#4 ↔
          s.popExt.sampleNow.cmdAnswer = none ∧ s.loop.run = true
            ∧ s.cfg.period.toNat < (s.popExt.nowAnswer - s.loop.lastTick).toNat % 2 ^ s.params.timeW))
      ∧ (s.phase = 0#4 → (t.phase = 15#4 ↔
          ∃ w, s.popExt.sampleNow.cmdAnswer = some w
            ∧ ((∃ kp ki kd lo hi, decode (.cmd w) = .ok (.setParam kp ki kd lo hi) ∧ s.params.arith.fle lo hi = false)
              ∨ (∃ lo hi, decode (.cmd w) = .ok (.setLimit lo hi) ∧ s.params.arith.fle lo hi = false))))
      ∧ (s.phase = 1#4 → t.phase = 2#4)
      ∧ (s.phase = 2#4 →
          ((∃ f, s.lat.rxf = some f ∧ Accepted f ∧ f.id = 0x200#32) ∧ s.params.id200 = .fault →
            t.phase = 15#4 ∧ t.flt.cause = 2#3)
          ∧ (¬ ((∃ f, s.lat.rxf = some f ∧ Accepted f ∧ f.id = 0x200#32) ∧ s.params.id200 = .fault) →
            t.phase = 3#4))
      ∧ (s.phase = 3#4 → s.cfg.targetSlot.toNat ≤ 7 → t.phase = 4#4)
      ∧ (s.phase = 3#4 → 7 < s.cfg.targetSlot.toNat → t.phase = 15#4 ∧ t.flt.cause = 2#3)
      ∧ (s.phase = 4#4 → s.params.arith.flt 0x00000000#32 s.loop.dtLatch = true → t.phase = 5#4)
      ∧ (s.phase = 4#4 → s.params.arith.flt 0x00000000#32 s.loop.dtLatch = false → t.phase = 15#4 ∧ t.flt.cause = 1#3)
      ∧ (s.phase = 5#4 → s.params.arith.isNan s.lat.out = false → t.phase = 6#4)
      ∧ (s.phase = 5#4 → s.params.arith.isNan s.lat.out = true → t.phase = 15#4 ∧ t.flt.cause = 3#3)
      ∧ (s.phase = 6#4 → t.phase = 7#4)
      ∧ (s.phase = 7#4 → t.phase = 8#4)
      ∧ (s.phase = 8#4 → t.phase = 0#4))

/-- From the table of rule R245, in part decided by the spec, with rules R39, R41 to R43 and R47. Who may write
what, over every step that is no reset event, from every state: telemetry fields only in DECODE; one command
only in QUANT and only the target slot's; runtime registers in COMPUTE or by PID_RESET, SET_PARAM and
SET_GAIN; parameters and configuration by their own commands in IDLE; RUN by START alone and never back to 0;
LAST_TICK by START or a tick that fires, DT_LATCH by a tick that fires; PHASE by the control loop outside HALT;
each latch in its phase; the fault registers by a fault entry; nothing by a debug read; and the model's
parameters never. -/
def Obligations.StateIsWrittenOnlyByItsOwner : Prop :=
  ∀ s t : State, s.extAnswer ≠ some .reset → step s = .next t →
    ((∃ i, { t.slot i with commandedCurrent := 0#16 } ≠ { s.slot i with commandedCurrent := 0#16 }) →
      DoesPhase s 2#4)
    ∧ (∀ i, (t.slot i).commandedCurrent ≠ (s.slot i).commandedCurrent →
        DoesPhase s 5#4 ∧ s.cfg.targetSlot.toNat = i.val)
    ∧ (t.rt ≠ s.rt → DoesPhase s 4#4 ∨ RunsCommand s [1#4, 2#4, 3#4])
    ∧ ((t.param.kp, t.param.ki, t.param.kd) ≠ (s.param.kp, s.param.ki, s.param.kd) → RunsCommand s [2#4, 3#4])
    ∧ ((t.param.min, t.param.max) ≠ (s.param.min, s.param.max) → RunsCommand s [2#4, 4#4])
    ∧ (t.cfg.targetRpm ≠ s.cfg.targetRpm → RunsCommand s [5#4])
    ∧ (t.cfg.targetSlot ≠ s.cfg.targetSlot → RunsCommand s [6#4])
    ∧ (t.cfg.period ≠ s.cfg.period → RunsCommand s [7#4])
    ∧ (t.loop.run ≠ s.loop.run → t.loop.run = true ∧ RunsCommand s [8#4])
    ∧ (t.loop.lastTick ≠ s.loop.lastTick → RunsCommand s [8#4] ∨ FiresTick s t)
    ∧ (t.loop.dtLatch ≠ s.loop.dtLatch → FiresTick s t)
    ∧ (t.phase ≠ s.phase → s.extAnswer = none ∧ s.phase ≠ 15#4)
    ∧ (t.lat.rxf ≠ s.lat.rxf → DoesPhase s 1#4)
    ∧ (t.lat.act ≠ s.lat.act → DoesPhase s 3#4)
    ∧ (t.lat.out ≠ s.lat.out → DoesPhase s 4#4)
    ∧ ((t.lat.fra, t.lat.frb) ≠ (s.lat.fra, s.lat.frb) → DoesPhase s 6#4)
    ∧ (t.flt ≠ s.flt → t.phase = 15#4 ∧ s.phase ≠ 15#4)
    ∧ t.params = s.params

/-- Rule R213. Outside IDLE a step leaves the command port alone: a presented word waits, unchanged. -/
def Obligations.CommandsWaitOutsideIdle : Prop :=
  ∀ s t : State, s.phase ≠ 0#4 → step s = .next t → t.env.cmd = s.env.cmd

/-- Rule R67 with rule R208. `try_receive()` is asked in phase RX, once, and nowhere else. `try_send` is asked
in TXA and in TXB, once each, and nowhere else: all that such a step sends and reports is the one offer of FRA
or FRB and, where it fails, the diagnostic event, and no other step offers a frame. -/
def Obligations.BusIsUsedOnlyInItsPhases : Prop :=
  ∀ s t : State, step s = .next t →
    (DoesPhase s 1#4 → t.env.rx = s.env.rx.tail) ∧ (¬ DoesPhase s 1#4 → t.env.rx = s.env.rx)
    ∧ (DoesPhase s 7#4 ∨ DoesPhase s 8#4 → t.env.tx = s.env.tx.tail)
    ∧ (¬ DoesPhase s 7#4 → ¬ DoesPhase s 8#4 → t.env.tx = s.env.tx)
    ∧ ∃ l, t.outs = s.outs ++ l
      ∧ (DoesPhase s 7#4 → l = .offered s.lat.fra s.popExt.txAnswer
          :: (if s.popExt.txAnswer = true then [] else [.diag .txaFail]))
      ∧ (DoesPhase s 8#4 → l = .offered s.lat.frb s.popExt.txAnswer
          :: (if s.popExt.txAnswer = true then [] else [.diag .txbFail]))
      ∧ (¬ DoesPhase s 7#4 → ¬ DoesPhase s 8#4 → ∀ f ok, Output.offered f ok ∉ l)

/-- From rules R191 and R210, the latter derived in the spec from rules R192 to R208. Stepping phase by phase from RX gives the whole tick's function: where the outside does nothing for
eight steps, at most eight steps lead to a state that agrees with `tick` on every register that is no
tick-local latch and on everything sent and reported, eight of them where the tick does not fault. -/
def Obligations.PhasesRefineTheWholeTick : Prop :=
  ∀ (s : State) (l : List (Option ExtEvent)), s.env.ext = List.replicate 8 none ++ l → s.phase = 1#4 →
    let t := tick s.rxAnswer s.popRx.txAnswer s.popRx.popTx.txAnswer s
    ∃ k u, k ≤ 8 ∧ core.run k s = .next u ∧ sameAtTickEnd t u ∧ (t.phase ≠ 15#4 → k = 8 ∧ t.phase = 0#4)

/-! ### Parameters and the outside -/

/-- From rules R8, R150 and R11. That FP is open, an argument of the model with binary32 as its default, is R8's
and R150's, and what the default's functions are called is R11's. That the argument is held as plain data is the
model's choice: the parameters stand in `State.params` (DESIGN CHOICE, log entry 6), and their datum `fp` names the
record, `binary32` the default and `other n` the opaque constant `Config.otherFP n` (DESIGN CHOICE, log entry 22).
Said in that form: the parameters that name the default give the binary32 functions, those that name another record
give the opaque one, the state after reset holds R8's default values, and no step changes the parameters, which
rule R50 calls constants of the step relation. -/
def Obligations.ArithmeticIsAParameter : Prop :=
  (∀ p : Params, p.fp = .binary32 →
    p.arith.fadd = F32.add ∧ p.arith.fsub = F32.sub ∧ p.arith.fmul = F32.mul ∧ p.arith.fdiv = F32.div
      ∧ p.arith.flt = F32.lt ∧ p.arith.fle = F32.le ∧ p.arith.isNan = F32.isNan
      ∧ p.arith.i16ToF32 = F32.ofI16 ∧ p.arith.froundHaz = F32.roundHaz ∧ p.arith.f32ToInt = F32.toInt)
  ∧ (∀ (p : Params) (n : Nat), p.fp = .other n → p.arith = Config.otherFP n)
  ∧ State.reset.params = { fp := .binary32, filterDiv := 0x41000000#32, id200 := .fault, timeW := 32 }
  ∧ (∀ s t : State, step s = .next t → t.params = s.params)

/-- From rules R72, R191, R260 and R51. The outside may act after any step, whatever phase it ended in, in the
middle of a tick and in a HALT just entered: a debug read is then answered from the register file as that step left
it, and changes nothing else; a reset event gives every register its reset value, PREV_PR, DT_LATCH and the latches
RXF, ACT, OUT, FRA and FRB apart, which rule R51 leaves unspecified. That such an event is a step of its own, and
that a reset keeps the environment, the parameters and the outputs, is DEDUCED in log entry 17. -/
def Obligations.OutsideEventsLandAfterAnyStep : Prop :=
  ∀ (s t : State) (e : ExtEvent) (l : List (Option ExtEvent)), s.env.ext = none :: some e :: l →
    step s = .next t →
    (∀ sel, e = .dbgRead sel →
      let x := t.slot sel.toFin
      step t = .next { t with
        env := { t.env with ext := l }
        outs := t.outs
          ++ [.dbg sel (x.angle ++ x.rpm ++ x.measuredCurrent ++ x.temperature ++ x.commandedCurrent)] })
    ∧ (e = .reset → ∃ u, step t = .next u
        ∧ (∀ i, u.slot i = ⟨0#16, 0#16, 0#16, 0#8, 0#16⟩)
        ∧ u.param = ⟨0#32, 0#32, 0#32, 0#32, 0#32⟩
        ∧ u.rt.prevErr = 0#32 ∧ u.rt.pprValid = false ∧ u.rt.fd = 0#32 ∧ u.rt.acc = 0#32
        ∧ u.cfg = ⟨0#32, 0#8, 0#64⟩ ∧ u.phase = 0#4 ∧ u.loop.lastTick = 0#64 ∧ u.loop.run = false
        ∧ u.flt = ⟨false, 0#3, 0#32⟩
        ∧ u.env = { t.env with ext := l } ∧ u.outs = t.outs ∧ u.params = t.params)
end

