-- ==== Sys2Proof/Laws/State.lean ====
section
/-! SUPPORT. The named updates of the state, field by field: one lemma per field per update, each true by
`rfl`, so that no later proof unfolds a record update. -/

namespace Sys2Proof.Machine

/-! ### withPhase -/

@[simp] theorem State.withPhase_params (s : State) (p : BitVec 4) : (s.withPhase p).params = s.params := rfl
@[simp] theorem State.withPhase_rf (s : State) (p : BitVec 4) : (s.withPhase p).rf = s.rf := rfl
@[simp] theorem State.withPhase_param (s : State) (p : BitVec 4) : (s.withPhase p).param = s.param := rfl
@[simp] theorem State.withPhase_rt (s : State) (p : BitVec 4) : (s.withPhase p).rt = s.rt := rfl
@[simp] theorem State.withPhase_cfg (s : State) (p : BitVec 4) : (s.withPhase p).cfg = s.cfg := rfl
@[simp] theorem State.withPhase_phase (s : State) (p : BitVec 4) : (s.withPhase p).phase = p := rfl
@[simp] theorem State.withPhase_loop (s : State) (p : BitVec 4) : (s.withPhase p).loop = s.loop := rfl
@[simp] theorem State.withPhase_flt (s : State) (p : BitVec 4) : (s.withPhase p).flt = s.flt := rfl
@[simp] theorem State.withPhase_lat (s : State) (p : BitVec 4) : (s.withPhase p).lat = s.lat := rfl
@[simp] theorem State.withPhase_loc (s : State) (p : BitVec 4) : (s.withPhase p).loc = s.loc := rfl
@[simp] theorem State.withPhase_env (s : State) (p : BitVec 4) : (s.withPhase p).env = s.env := rfl
@[simp] theorem State.withPhase_outs (s : State) (p : BitVec 4) : (s.withPhase p).outs = s.outs := rfl
@[simp] theorem State.withPhase_freeIx (s : State) (p : BitVec 4) : (s.withPhase p).freeIx = s.freeIx := rfl

/-! ### raise -/

@[simp] theorem State.raise_params (s : State) (c : BitVec 3) (v : BitVec 32) : (s.raise c v).params = s.params := rfl
@[simp] theorem State.raise_rf (s : State) (c : BitVec 3) (v : BitVec 32) : (s.raise c v).rf = s.rf := rfl
@[simp] theorem State.raise_param (s : State) (c : BitVec 3) (v : BitVec 32) : (s.raise c v).param = s.param := rfl
@[simp] theorem State.raise_rt (s : State) (c : BitVec 3) (v : BitVec 32) : (s.raise c v).rt = s.rt := rfl
@[simp] theorem State.raise_cfg (s : State) (c : BitVec 3) (v : BitVec 32) : (s.raise c v).cfg = s.cfg := rfl
@[simp] theorem State.raise_phase (s : State) (c : BitVec 3) (v : BitVec 32) : (s.raise c v).phase = Phase.halt := rfl
@[simp] theorem State.raise_loop (s : State) (c : BitVec 3) (v : BitVec 32) : (s.raise c v).loop = s.loop := rfl
@[simp] theorem State.raise_flt (s : State) (c : BitVec 3) (v : BitVec 32) : (s.raise c v).flt = ⟨true, c, v⟩ := rfl
@[simp] theorem State.raise_lat (s : State) (c : BitVec 3) (v : BitVec 32) : (s.raise c v).lat = s.lat := rfl
@[simp] theorem State.raise_loc (s : State) (c : BitVec 3) (v : BitVec 32) : (s.raise c v).loc = s.loc := rfl
@[simp] theorem State.raise_env (s : State) (c : BitVec 3) (v : BitVec 32) : (s.raise c v).env = s.env := rfl
@[simp] theorem State.raise_outs (s : State) (c : BitVec 3) (v : BitVec 32) : (s.raise c v).outs = s.outs := rfl
@[simp] theorem State.raise_freeIx (s : State) (c : BitVec 3) (v : BitVec 32) : (s.raise c v).freeIx = s.freeIx := rfl

/-! ### emit -/

@[simp] theorem State.emit_params (s : State) (o : Output) : (s.emit o).params = s.params := rfl
@[simp] theorem State.emit_rf (s : State) (o : Output) : (s.emit o).rf = s.rf := rfl
@[simp] theorem State.emit_param (s : State) (o : Output) : (s.emit o).param = s.param := rfl
@[simp] theorem State.emit_rt (s : State) (o : Output) : (s.emit o).rt = s.rt := rfl
@[simp] theorem State.emit_cfg (s : State) (o : Output) : (s.emit o).cfg = s.cfg := rfl
@[simp] theorem State.emit_phase (s : State) (o : Output) : (s.emit o).phase = s.phase := rfl
@[simp] theorem State.emit_loop (s : State) (o : Output) : (s.emit o).loop = s.loop := rfl
@[simp] theorem State.emit_flt (s : State) (o : Output) : (s.emit o).flt = s.flt := rfl
@[simp] theorem State.emit_lat (s : State) (o : Output) : (s.emit o).lat = s.lat := rfl
@[simp] theorem State.emit_loc (s : State) (o : Output) : (s.emit o).loc = s.loc := rfl
@[simp] theorem State.emit_env (s : State) (o : Output) : (s.emit o).env = s.env := rfl
@[simp] theorem State.emit_outs (s : State) (o : Output) : (s.emit o).outs = s.outs ++ [o] := rfl
@[simp] theorem State.emit_freeIx (s : State) (o : Output) : (s.emit o).freeIx = s.freeIx := rfl

/-! ### clearRuntime -/

@[simp] theorem State.clearRuntime_params (s : State) : (s.clearRuntime).params = s.params := rfl
@[simp] theorem State.clearRuntime_rf (s : State) : (s.clearRuntime).rf = s.rf := rfl
@[simp] theorem State.clearRuntime_param (s : State) : (s.clearRuntime).param = s.param := rfl
@[simp] theorem State.clearRuntime_rt (s : State) : (s.clearRuntime).rt = PidRuntime.cold (Config.freePrevPr s.freeIx) := rfl
@[simp] theorem State.clearRuntime_cfg (s : State) : (s.clearRuntime).cfg = s.cfg := rfl
@[simp] theorem State.clearRuntime_phase (s : State) : (s.clearRuntime).phase = s.phase := rfl
@[simp] theorem State.clearRuntime_loop (s : State) : (s.clearRuntime).loop = s.loop := rfl
@[simp] theorem State.clearRuntime_flt (s : State) : (s.clearRuntime).flt = s.flt := rfl
@[simp] theorem State.clearRuntime_lat (s : State) : (s.clearRuntime).lat = s.lat := rfl
@[simp] theorem State.clearRuntime_loc (s : State) : (s.clearRuntime).loc = s.loc := rfl
@[simp] theorem State.clearRuntime_env (s : State) : (s.clearRuntime).env = s.env := rfl
@[simp] theorem State.clearRuntime_outs (s : State) : (s.clearRuntime).outs = s.outs := rfl
@[simp] theorem State.clearRuntime_freeIx (s : State) : (s.clearRuntime).freeIx = s.freeIx + 1 := rfl

/-! ### popRx -/

@[simp] theorem State.popRx_params (s : State) : (s.popRx).params = s.params := rfl
@[simp] theorem State.popRx_rf (s : State) : (s.popRx).rf = s.rf := rfl
@[simp] theorem State.popRx_param (s : State) : (s.popRx).param = s.param := rfl
@[simp] theorem State.popRx_rt (s : State) : (s.popRx).rt = s.rt := rfl
@[simp] theorem State.popRx_cfg (s : State) : (s.popRx).cfg = s.cfg := rfl
@[simp] theorem State.popRx_phase (s : State) : (s.popRx).phase = s.phase := rfl
@[simp] theorem State.popRx_loop (s : State) : (s.popRx).loop = s.loop := rfl
@[simp] theorem State.popRx_flt (s : State) : (s.popRx).flt = s.flt := rfl
@[simp] theorem State.popRx_lat (s : State) : (s.popRx).lat = s.lat := rfl
@[simp] theorem State.popRx_loc (s : State) : (s.popRx).loc = s.loc := rfl
@[simp] theorem State.popRx_env (s : State) : (s.popRx).env = { s.env with rx := s.env.rx.tail } := rfl
@[simp] theorem State.popRx_outs (s : State) : (s.popRx).outs = s.outs := rfl
@[simp] theorem State.popRx_freeIx (s : State) : (s.popRx).freeIx = drawn s.env.rx s.freeIx := rfl

/-! ### popTx -/

@[simp] theorem State.popTx_params (s : State) : (s.popTx).params = s.params := rfl
@[simp] theorem State.popTx_rf (s : State) : (s.popTx).rf = s.rf := rfl
@[simp] theorem State.popTx_param (s : State) : (s.popTx).param = s.param := rfl
@[simp] theorem State.popTx_rt (s : State) : (s.popTx).rt = s.rt := rfl
@[simp] theorem State.popTx_cfg (s : State) : (s.popTx).cfg = s.cfg := rfl
@[simp] theorem State.popTx_phase (s : State) : (s.popTx).phase = s.phase := rfl
@[simp] theorem State.popTx_loop (s : State) : (s.popTx).loop = s.loop := rfl
@[simp] theorem State.popTx_flt (s : State) : (s.popTx).flt = s.flt := rfl
@[simp] theorem State.popTx_lat (s : State) : (s.popTx).lat = s.lat := rfl
@[simp] theorem State.popTx_loc (s : State) : (s.popTx).loc = s.loc := rfl
@[simp] theorem State.popTx_env (s : State) : (s.popTx).env = { s.env with tx := s.env.tx.tail } := rfl
@[simp] theorem State.popTx_outs (s : State) : (s.popTx).outs = s.outs := rfl
@[simp] theorem State.popTx_freeIx (s : State) : (s.popTx).freeIx = drawn s.env.tx s.freeIx := rfl

/-! ### popNow -/

@[simp] theorem State.popNow_params (s : State) : (s.popNow).params = s.params := rfl
@[simp] theorem State.popNow_rf (s : State) : (s.popNow).rf = s.rf := rfl
@[simp] theorem State.popNow_param (s : State) : (s.popNow).param = s.param := rfl
@[simp] theorem State.popNow_rt (s : State) : (s.popNow).rt = s.rt := rfl
@[simp] theorem State.popNow_cfg (s : State) : (s.popNow).cfg = s.cfg := rfl
@[simp] theorem State.popNow_phase (s : State) : (s.popNow).phase = s.phase := rfl
@[simp] theorem State.popNow_loop (s : State) : (s.popNow).loop = s.loop := rfl
@[simp] theorem State.popNow_flt (s : State) : (s.popNow).flt = s.flt := rfl
@[simp] theorem State.popNow_lat (s : State) : (s.popNow).lat = s.lat := rfl
@[simp] theorem State.popNow_loc (s : State) : (s.popNow).loc = s.loc := rfl
@[simp] theorem State.popNow_env (s : State) : (s.popNow).env = { s.env with now := s.env.now.tail } := rfl
@[simp] theorem State.popNow_outs (s : State) : (s.popNow).outs = s.outs := rfl
@[simp] theorem State.popNow_freeIx (s : State) : (s.popNow).freeIx = drawn s.env.now s.freeIx := rfl

/-! ### popDt -/

@[simp] theorem State.popDt_params (s : State) : (s.popDt).params = s.params := rfl
@[simp] theorem State.popDt_rf (s : State) : (s.popDt).rf = s.rf := rfl
@[simp] theorem State.popDt_param (s : State) : (s.popDt).param = s.param := rfl
@[simp] theorem State.popDt_rt (s : State) : (s.popDt).rt = s.rt := rfl
@[simp] theorem State.popDt_cfg (s : State) : (s.popDt).cfg = s.cfg := rfl
@[simp] theorem State.popDt_phase (s : State) : (s.popDt).phase = s.phase := rfl
@[simp] theorem State.popDt_loop (s : State) : (s.popDt).loop = s.loop := rfl
@[simp] theorem State.popDt_flt (s : State) : (s.popDt).flt = s.flt := rfl
@[simp] theorem State.popDt_lat (s : State) : (s.popDt).lat = s.lat := rfl
@[simp] theorem State.popDt_loc (s : State) : (s.popDt).loc = s.loc := rfl
@[simp] theorem State.popDt_env (s : State) : (s.popDt).env = { s.env with dt := s.env.dt.tail } := rfl
@[simp] theorem State.popDt_outs (s : State) : (s.popDt).outs = s.outs := rfl
@[simp] theorem State.popDt_freeIx (s : State) : (s.popDt).freeIx = drawn s.env.dt s.freeIx := rfl

/-! ### popCmd -/

@[simp] theorem State.popCmd_params (s : State) : (s.popCmd).params = s.params := rfl
@[simp] theorem State.popCmd_rf (s : State) : (s.popCmd).rf = s.rf := rfl
@[simp] theorem State.popCmd_param (s : State) : (s.popCmd).param = s.param := rfl
@[simp] theorem State.popCmd_rt (s : State) : (s.popCmd).rt = s.rt := rfl
@[simp] theorem State.popCmd_cfg (s : State) : (s.popCmd).cfg = s.cfg := rfl
@[simp] theorem State.popCmd_phase (s : State) : (s.popCmd).phase = s.phase := rfl
@[simp] theorem State.popCmd_loop (s : State) : (s.popCmd).loop = s.loop := rfl
@[simp] theorem State.popCmd_flt (s : State) : (s.popCmd).flt = s.flt := rfl
@[simp] theorem State.popCmd_lat (s : State) : (s.popCmd).lat = s.lat := rfl
@[simp] theorem State.popCmd_loc (s : State) : (s.popCmd).loc = s.loc := rfl
@[simp] theorem State.popCmd_env (s : State) : (s.popCmd).env = { s.env with cmd := s.env.cmd.tail } := rfl
@[simp] theorem State.popCmd_outs (s : State) : (s.popCmd).outs = s.outs := rfl
@[simp] theorem State.popCmd_freeIx (s : State) : (s.popCmd).freeIx = drawn s.env.cmd s.freeIx := rfl

/-! ### sampleNow -/

@[simp] theorem State.sampleNow_params (s : State) : (s.sampleNow).params = s.params := rfl
@[simp] theorem State.sampleNow_rf (s : State) : (s.sampleNow).rf = s.rf := rfl
@[simp] theorem State.sampleNow_param (s : State) : (s.sampleNow).param = s.param := rfl
@[simp] theorem State.sampleNow_rt (s : State) : (s.sampleNow).rt = s.rt := rfl
@[simp] theorem State.sampleNow_cfg (s : State) : (s.sampleNow).cfg = s.cfg := rfl
@[simp] theorem State.sampleNow_phase (s : State) : (s.sampleNow).phase = s.phase := rfl
@[simp] theorem State.sampleNow_loop (s : State) : (s.sampleNow).loop = s.loop := rfl
@[simp] theorem State.sampleNow_flt (s : State) : (s.sampleNow).flt = s.flt := rfl
@[simp] theorem State.sampleNow_lat (s : State) : (s.sampleNow).lat = s.lat := rfl
@[simp] theorem State.sampleNow_loc (s : State) : (s.sampleNow).loc = { s.loc with tNow := s.nowAnswer } := rfl
@[simp] theorem State.sampleNow_env (s : State) : (s.sampleNow).env = { s.env with now := s.env.now.tail } := rfl
@[simp] theorem State.sampleNow_outs (s : State) : (s.sampleNow).outs = s.outs := rfl
@[simp] theorem State.sampleNow_freeIx (s : State) : (s.sampleNow).freeIx = drawn s.env.now s.freeIx := rfl

/-! ### fireTick -/

@[simp] theorem State.fireTick_params (s : State) : (s.fireTick).params = s.params := rfl
@[simp] theorem State.fireTick_rf (s : State) : (s.fireTick).rf = s.rf := rfl
@[simp] theorem State.fireTick_param (s : State) : (s.fireTick).param = s.param := rfl
@[simp] theorem State.fireTick_rt (s : State) : (s.fireTick).rt = s.rt := rfl
@[simp] theorem State.fireTick_cfg (s : State) : (s.fireTick).cfg = s.cfg := rfl
@[simp] theorem State.fireTick_phase (s : State) : (s.fireTick).phase = Phase.rx := rfl
@[simp] theorem State.fireTick_loop (s : State) : (s.fireTick).loop = { s.loop with lastTick := s.loc.tNow, dtLatch := s.dtAnswer } := rfl
@[simp] theorem State.fireTick_flt (s : State) : (s.fireTick).flt = s.flt := rfl
@[simp] theorem State.fireTick_lat (s : State) : (s.fireTick).lat = s.lat := rfl
@[simp] theorem State.fireTick_loc (s : State) : (s.fireTick).loc = s.loc := rfl
@[simp] theorem State.fireTick_env (s : State) : (s.fireTick).env = { s.env with dt := s.env.dt.tail } := rfl
@[simp] theorem State.fireTick_outs (s : State) : (s.fireTick).outs = s.outs := rfl
@[simp] theorem State.fireTick_freeIx (s : State) : (s.fireTick).freeIx = drawn s.env.dt s.freeIx := rfl

/-! ### popExt -/

@[simp] theorem State.popExt_params (s : State) : (s.popExt).params = s.params := rfl
@[simp] theorem State.popExt_rf (s : State) : (s.popExt).rf = s.rf := rfl
@[simp] theorem State.popExt_param (s : State) : (s.popExt).param = s.param := rfl
@[simp] theorem State.popExt_rt (s : State) : (s.popExt).rt = s.rt := rfl
@[simp] theorem State.popExt_cfg (s : State) : (s.popExt).cfg = s.cfg := rfl
@[simp] theorem State.popExt_phase (s : State) : (s.popExt).phase = s.phase := rfl
@[simp] theorem State.popExt_loop (s : State) : (s.popExt).loop = s.loop := rfl
@[simp] theorem State.popExt_flt (s : State) : (s.popExt).flt = s.flt := rfl
@[simp] theorem State.popExt_lat (s : State) : (s.popExt).lat = s.lat := rfl
@[simp] theorem State.popExt_loc (s : State) : (s.popExt).loc = s.loc := rfl
@[simp] theorem State.popExt_env (s : State) : (s.popExt).env = { s.env with ext := s.env.ext.tail } := rfl
@[simp] theorem State.popExt_outs (s : State) : (s.popExt).outs = s.outs := rfl
@[simp] theorem State.popExt_freeIx (s : State) : (s.popExt).freeIx = drawn s.env.ext s.freeIx := rfl

/-! ### putTelemetry -/

@[simp] theorem State.putTelemetry_params (s : State) (i : Fin 8) (d : Telem) : (s.putTelemetry i d).params = s.params := rfl
@[simp] theorem State.putTelemetry_param (s : State) (i : Fin 8) (d : Telem) : (s.putTelemetry i d).param = s.param := rfl
@[simp] theorem State.putTelemetry_rt (s : State) (i : Fin 8) (d : Telem) : (s.putTelemetry i d).rt = s.rt := rfl
@[simp] theorem State.putTelemetry_cfg (s : State) (i : Fin 8) (d : Telem) : (s.putTelemetry i d).cfg = s.cfg := rfl
@[simp] theorem State.putTelemetry_phase (s : State) (i : Fin 8) (d : Telem) : (s.putTelemetry i d).phase = s.phase := rfl
@[simp] theorem State.putTelemetry_loop (s : State) (i : Fin 8) (d : Telem) : (s.putTelemetry i d).loop = s.loop := rfl
@[simp] theorem State.putTelemetry_flt (s : State) (i : Fin 8) (d : Telem) : (s.putTelemetry i d).flt = s.flt := rfl
@[simp] theorem State.putTelemetry_lat (s : State) (i : Fin 8) (d : Telem) : (s.putTelemetry i d).lat = s.lat := rfl
@[simp] theorem State.putTelemetry_loc (s : State) (i : Fin 8) (d : Telem) : (s.putTelemetry i d).loc = s.loc := rfl
@[simp] theorem State.putTelemetry_env (s : State) (i : Fin 8) (d : Telem) : (s.putTelemetry i d).env = s.env := rfl
@[simp] theorem State.putTelemetry_outs (s : State) (i : Fin 8) (d : Telem) : (s.putTelemetry i d).outs = s.outs := rfl
@[simp] theorem State.putTelemetry_freeIx (s : State) (i : Fin 8) (d : Telem) : (s.putTelemetry i d).freeIx = s.freeIx := rfl

/-! ### putCommand -/

@[simp] theorem State.putCommand_params (s : State) (i : Fin 8) (q : I16) : (s.putCommand i q).params = s.params := rfl
@[simp] theorem State.putCommand_param (s : State) (i : Fin 8) (q : I16) : (s.putCommand i q).param = s.param := rfl
@[simp] theorem State.putCommand_rt (s : State) (i : Fin 8) (q : I16) : (s.putCommand i q).rt = s.rt := rfl
@[simp] theorem State.putCommand_cfg (s : State) (i : Fin 8) (q : I16) : (s.putCommand i q).cfg = s.cfg := rfl
@[simp] theorem State.putCommand_phase (s : State) (i : Fin 8) (q : I16) : (s.putCommand i q).phase = s.phase := rfl
@[simp] theorem State.putCommand_loop (s : State) (i : Fin 8) (q : I16) : (s.putCommand i q).loop = s.loop := rfl
@[simp] theorem State.putCommand_flt (s : State) (i : Fin 8) (q : I16) : (s.putCommand i q).flt = s.flt := rfl
@[simp] theorem State.putCommand_lat (s : State) (i : Fin 8) (q : I16) : (s.putCommand i q).lat = s.lat := rfl
@[simp] theorem State.putCommand_loc (s : State) (i : Fin 8) (q : I16) : (s.putCommand i q).loc = s.loc := rfl
@[simp] theorem State.putCommand_env (s : State) (i : Fin 8) (q : I16) : (s.putCommand i q).env = s.env := rfl
@[simp] theorem State.putCommand_outs (s : State) (i : Fin 8) (q : I16) : (s.putCommand i q).outs = s.outs := rfl
@[simp] theorem State.putCommand_freeIx (s : State) (i : Fin 8) (q : I16) : (s.putCommand i q).freeIx = s.freeIx := rfl

/-! ### resetEvent -/

@[simp] theorem State.resetEvent_params (s : State) : (s.resetEvent).params = s.params := rfl
@[simp] theorem State.resetEvent_rf (s : State) : (s.resetEvent).rf = State.reset.rf := rfl
@[simp] theorem State.resetEvent_param (s : State) : (s.resetEvent).param = State.reset.param := rfl
@[simp] theorem State.resetEvent_rt (s : State) : (s.resetEvent).rt = State.reset.rt := rfl
@[simp] theorem State.resetEvent_cfg (s : State) : (s.resetEvent).cfg = State.reset.cfg := rfl
@[simp] theorem State.resetEvent_phase (s : State) : (s.resetEvent).phase = State.reset.phase := rfl
@[simp] theorem State.resetEvent_loop (s : State) : (s.resetEvent).loop = State.reset.loop := rfl
@[simp] theorem State.resetEvent_flt (s : State) : (s.resetEvent).flt = State.reset.flt := rfl
@[simp] theorem State.resetEvent_lat (s : State) : (s.resetEvent).lat = State.reset.lat := rfl
@[simp] theorem State.resetEvent_loc (s : State) : (s.resetEvent).loc = State.reset.loc := rfl
@[simp] theorem State.resetEvent_env (s : State) : (s.resetEvent).env = s.env := rfl
@[simp] theorem State.resetEvent_outs (s : State) : (s.resetEvent).outs = s.outs := rfl
@[simp] theorem State.resetEvent_freeIx (s : State) : (s.resetEvent).freeIx = s.freeIx := rfl

/-! ### Tapes -/

@[simp] theorem answer_cons {α : Type} (a : α) (l : List α) (d : α) : answer (a :: l) d = a := rfl
@[simp] theorem answer_nil {α : Type} (d : α) : answer [] d = d := rfl
@[simp] theorem drawn_cons {α : Type} (a : α) (l : List α) (n : Nat) : drawn (a :: l) n = n := rfl
@[simp] theorem drawn_nil {α : Type} (n : Nat) : drawn ([] : List α) n = n + 1 := rfl

end Sys2Proof.Machine
end

