-- ==== Sys2Proof/Laws/RegFile.lean ====
section
/-! SUPPORT. The register file: a read after a write of the same slot gives the value written, and a write
leaves every other slot alone (spec/20_memory.md rules R60 and R66). -/

namespace Sys2Proof.Machine

theorem State.slot_eq (s : State) (i : Fin 8) : s.slot i = s.rf[i.val] := rfl

/-- The slots of two states with the same register file agree. -/
theorem State.slot_of_rf {s t : State} (h : t.rf = s.rf) (i : Fin 8) : t.slot i = s.slot i := by
  simp [State.slot_eq, h]

@[simp] theorem State.slot_withPhase (s : State) (p : BitVec 4) (i : Fin 8) : (s.withPhase p).slot i = s.slot i := rfl
@[simp] theorem State.slot_raise (s : State) (c : BitVec 3) (v : BitVec 32) (i : Fin 8) :
    (s.raise c v).slot i = s.slot i := rfl
@[simp] theorem State.slot_emit (s : State) (o : Output) (i : Fin 8) : (s.emit o).slot i = s.slot i := rfl
@[simp] theorem State.slot_clearRuntime (s : State) (i : Fin 8) : s.clearRuntime.slot i = s.slot i := rfl
@[simp] theorem State.slot_popExt (s : State) (i : Fin 8) : s.popExt.slot i = s.slot i := rfl

/-- Two register files with the same slots are the same. -/
theorem State.rf_ext {s t : State} (h : ∀ i, t.slot i = s.slot i) : t.rf = s.rf := by
  refine Vector.ext fun i hi => ?_
  exact h ⟨i, hi⟩

@[simp] theorem State.slot_putTelemetry_same (s : State) (i : Fin 8) (d : Telem) :
    (s.putTelemetry i d).slot i = ⟨d.angle, d.rpm, d.cur, d.temp, (s.slot i).commandedCurrent⟩ := by
  simp [State.slot_eq, State.putTelemetry]

theorem State.slot_putTelemetry_other (s : State) {i j : Fin 8} (d : Telem) (h : j ≠ i) :
    (s.putTelemetry i d).slot j = s.slot j := by
  have : i.val ≠ j.val := fun e => h (Fin.ext e.symm)
  simp [State.slot_eq, State.putTelemetry, this]

@[simp] theorem State.slot_putCommand_same (s : State) (i : Fin 8) (q : I16) :
    (s.putCommand i q).slot i = { s.slot i with commandedCurrent := q } := by
  simp [State.slot_eq, State.putCommand]

theorem State.slot_putCommand_other (s : State) {i j : Fin 8} (q : I16) (h : j ≠ i) :
    (s.putCommand i q).slot j = s.slot j := by
  have : i.val ≠ j.val := fun e => h (Fin.ext e.symm)
  simp [State.slot_eq, State.putCommand, this]

/-- REG_UPDATE's write leaves every command alone (rule R132). -/
@[simp] theorem State.command_putTelemetry (s : State) (i j : Fin 8) (d : Telem) :
    ((s.putTelemetry i d).slot j).commandedCurrent = (s.slot j).commandedCurrent := by
  by_cases h : j = i
  · subst h; simp
  · rw [s.slot_putTelemetry_other d h]

/-- The snapshot's entry `i` is the command of slot `i` (rule R138). -/
theorem State.commands_get (s : State) (i : Fin 8) : s.commands[i.val] = (s.slot i).commandedCurrent := by
  fin_cases i <;> rfl

/-- The snapshot depends on the register file alone. -/
theorem State.commands_of_rf {s t : State} (h : t.rf = s.rf) : t.commands = s.commands := by
  simp [State.commands, State.slot_eq, h]

/-- A slot index 0 to 7 passes the bounds check. -/
@[simp] theorem slotIx_ofFin (k : Fin 8) : slotIx (k.val : Int) = some k := by
  have : (0 : Int) ≤ (k.val : Int) ∧ (k.val : Int) < 8 := by omega
  simp [slotIx, this]

/-- What the bounds check lets through is the index itself. -/
theorem slotIx_some {i : Int} {k : Fin 8} (h : slotIx i = some k) : i = (k.val : Int) := by
  simp only [slotIx] at h
  split at h
  · cases h; simp; omega
  · cases h

/-- Every other index is stopped. -/
theorem slotIx_none {i : Int} (h : i < 0 ∨ 7 < i) : slotIx i = none := by
  have : ¬ (0 ≤ i ∧ i < 8) := by omega
  simp [slotIx, this]

end Sys2Proof.Machine
end

