-- ==== Sys2Proof/Laws/Codec.lean ====
section
/-! SUPPORT. Bit layouts: reading a field of a word built from fields gives the field back (rules R81, R83,
R86 and R87). -/

namespace Sys2Proof

/-! ### Slices of an appended word -/

theorem extract_append_left {m n : Nat} (x : BitVec m) (y : BitVec n) (k w : Nat) :
    (x ++ y).extractLsb' (n + k) w = x.extractLsb' k w := by
  ext i hi
  have h : n + k + i - n = k + i := by omega
  have g : ¬ n + k + i < n := by omega
  simp [BitVec.getLsbD_append, h, g]

theorem extract_append_right {m n : Nat} (x : BitVec m) (y : BitVec n) (k w : Nat) (h : k + w ≤ n) :
    (x ++ y).extractLsb' k w = y.extractLsb' k w := by
  ext i hi
  have : k + i < n := by omega
  simp [BitVec.getLsbD_append, this]

theorem extract_all {n : Nat} (x : BitVec n) : x.extractLsb' 0 n = x := by
  ext i hi
  simp

theorem extract_top {m n : Nat} (x : BitVec m) (y : BitVec n) : (x ++ y).extractLsb' n m = x := by
  have := extract_append_left x y 0 m
  rwa [Nat.add_zero, extract_all] at this

theorem extract_bottom {m n : Nat} (x : BitVec m) (y : BitVec n) : (x ++ y).extractLsb' 0 n = y := by
  rw [extract_append_right x y 0 n (by omega), extract_all]

/-! ### The canonical frame (rule R81) -/

@[simp] theorem frame_header (h : BitVec 42) (p : BitVec 64) : (h ++ p : FrameBits).extractLsb' 64 42 = h :=
  extract_top h p

/-- A slice of the payload part of a frame word. -/
theorem frame_payload (h : BitVec 42) (p : BitVec 64) (k w : Nat) (hk : k + w ≤ 64) :
    (h ++ p : FrameBits).extractLsb' k w = p.extractLsb' k w :=
  extract_append_right h p k w hk

/-- The four fields and the unused byte of a telemetry payload (rule R83). -/
theorem telem_fields (a r c : BitVec 16) (t u : Byte) :
    (a ++ r ++ c ++ t ++ u : BitVec 64).extractLsb' 48 16 = a
      ∧ (a ++ r ++ c ++ t ++ u : BitVec 64).extractLsb' 32 16 = r
      ∧ (a ++ r ++ c ++ t ++ u : BitVec 64).extractLsb' 16 16 = c
      ∧ (a ++ r ++ c ++ t ++ u : BitVec 64).extractLsb' 8 8 = t := by
  have byte : ∀ k w, (a ++ r ++ c ++ t ++ u).extractLsb' (8 + k) w = (a ++ r ++ c ++ t).extractLsb' k w :=
    extract_append_left (a ++ r ++ c ++ t) u
  have temp : ∀ k w, (a ++ r ++ c ++ t).extractLsb' (8 + k) w = (a ++ r ++ c).extractLsb' k w :=
    extract_append_left (a ++ r ++ c) t
  have cur : ∀ k w, (a ++ r ++ c).extractLsb' (16 + k) w = (a ++ r).extractLsb' k w :=
    extract_append_left (a ++ r) c
  exact ⟨((byte 40 16).trans (temp 32 16)).trans ((cur 16 16).trans (extract_top a r)),
    ((byte 24 16).trans (temp 16 16)).trans ((cur 0 16).trans (extract_bottom a r)),
    ((byte 8 16).trans (temp 0 16)).trans (extract_bottom (a ++ r) c),
    (byte 0 8).trans (extract_bottom (a ++ r ++ c) t)⟩

/-- The four commands of a command payload (rule R86). -/
theorem command_fields (c0 c1 c2 c3 : BitVec 16) :
    (c0 ++ c1 ++ c2 ++ c3 : BitVec 64).extractLsb' 48 16 = c0
      ∧ (c0 ++ c1 ++ c2 ++ c3 : BitVec 64).extractLsb' 32 16 = c1
      ∧ (c0 ++ c1 ++ c2 ++ c3 : BitVec 64).extractLsb' 16 16 = c2
      ∧ (c0 ++ c1 ++ c2 ++ c3 : BitVec 64).extractLsb' 0 16 = c3 := by
  have last : ∀ k w, (c0 ++ c1 ++ c2 ++ c3).extractLsb' (16 + k) w = (c0 ++ c1 ++ c2).extractLsb' k w :=
    extract_append_left (c0 ++ c1 ++ c2) c3
  have third : ∀ k w, (c0 ++ c1 ++ c2).extractLsb' (16 + k) w = (c0 ++ c1).extractLsb' k w :=
    extract_append_left (c0 ++ c1) c2
  exact ⟨((last 32 16).trans (third 16 16)).trans (extract_top c0 c1),
    ((last 16 16).trans (third 0 16)).trans (extract_bottom c0 c1),
    (last 0 16).trans (extract_bottom (c0 ++ c1) c2), extract_bottom (c0 ++ c1 ++ c2) c3⟩

/-- The last two bytes of a word built from bytes. -/
theorem last_bytes {m : Nat} (x : BitVec m) (a b : Byte) :
    (x ++ a ++ b).extractLsb' 0 (8 + 8) = (a ++ b : BitVec (8 + 8)) := by
  refine BitVec.eq_of_getLsbD_eq fun i hi => ?_
  rw [BitVec.getLsbD_extractLsb', BitVec.getLsbD_append, BitVec.getLsbD_append, BitVec.getLsbD_append,
    decide_eq_true hi, Bool.true_and, Nat.zero_add]
  by_cases h : i < 8
  · rw [if_pos h, if_pos h]
  · rw [if_neg h, if_neg h, if_pos (by omega)]

/-- The 16-bit fields and the byte fields of a frame's payload part (rules R81, R83 and R86). -/
theorem payload_fields (p : Vector Byte 8) :
    (payloadBits p).extractLsb' 48 16 = p[0] ++ p[1] ∧ (payloadBits p).extractLsb' 32 16 = p[2] ++ p[3]
      ∧ (payloadBits p).extractLsb' 16 16 = p[4] ++ p[5] ∧ (payloadBits p).extractLsb' 0 16 = p[6] ++ p[7]
      ∧ (payloadBits p).extractLsb' 8 8 = p[6] := by
  have drop : ∀ {m : Nat} (x : BitVec m) (a b : Byte) (k w : Nat),
      (x ++ a ++ b).extractLsb' (8 + (8 + k)) w = x.extractLsb' k w := fun x a b k w =>
    (extract_append_left (x ++ a) b (8 + k) w).trans (extract_append_left x a k w)
  refine ⟨?_, ?_, ?_, last_bytes _ p[6] p[7], ?_⟩
  · exact (drop _ p[6] p[7] 32 16).trans ((drop _ p[4] p[5] 16 16).trans
      ((drop (p[0] ++ p[1]) p[2] p[3] 0 16).trans (extract_all _)))
  · exact (drop _ p[6] p[7] 16 16).trans ((drop _ p[4] p[5] 0 16).trans (last_bytes _ p[2] p[3]))
  · exact (drop _ p[6] p[7] 0 16).trans (last_bytes _ p[4] p[5])
  have last : ∀ k w, (payloadBits p).extractLsb' (8 + k) w
      = (p[0] ++ p[1] ++ p[2] ++ p[3] ++ p[4] ++ p[5] ++ p[6]).extractLsb' k w := extract_append_left _ p[7]
  exact (last 0 8).trans (extract_bottom _ p[6])

/-! ### The command word (rule R87) -/

section
variable (a4 a3 a2 a1 a0 : BitVec 32) (op : BitVec 4)

@[simp] theorem word_op : cmdOp (a4 ++ a3 ++ a2 ++ a1 ++ a0 ++ op : CmdWord) = op :=
  extract_bottom _ op

@[simp] theorem word_arg0 : cmdArg (a4 ++ a3 ++ a2 ++ a1 ++ a0 ++ op : CmdWord) 0 = a0 := by
  unfold cmdArg
  exact (extract_append_left (a4 ++ a3 ++ a2 ++ a1 ++ a0) op 0 32).trans (extract_bottom _ a0)

@[simp] theorem word_arg1 : cmdArg (a4 ++ a3 ++ a2 ++ a1 ++ a0 ++ op : CmdWord) 1 = a1 := by
  unfold cmdArg
  exact ((extract_append_left (a4 ++ a3 ++ a2 ++ a1 ++ a0) op 32 32).trans
    (extract_append_left (a4 ++ a3 ++ a2 ++ a1) a0 0 32)).trans (extract_bottom _ a1)

@[simp] theorem word_arg2 : cmdArg (a4 ++ a3 ++ a2 ++ a1 ++ a0 ++ op : CmdWord) 2 = a2 := by
  unfold cmdArg
  exact (((extract_append_left (a4 ++ a3 ++ a2 ++ a1 ++ a0) op 64 32).trans
    (extract_append_left (a4 ++ a3 ++ a2 ++ a1) a0 32 32)).trans
    (extract_append_left (a4 ++ a3 ++ a2) a1 0 32)).trans (extract_bottom _ a2)

@[simp] theorem word_arg3 : cmdArg (a4 ++ a3 ++ a2 ++ a1 ++ a0 ++ op : CmdWord) 3 = a3 := by
  unfold cmdArg
  exact ((((extract_append_left (a4 ++ a3 ++ a2 ++ a1 ++ a0) op 96 32).trans
    (extract_append_left (a4 ++ a3 ++ a2 ++ a1) a0 64 32)).trans
    (extract_append_left (a4 ++ a3 ++ a2) a1 32 32)).trans
    (extract_append_left (a4 ++ a3) a2 0 32)).trans (extract_bottom _ a3)

@[simp] theorem word_arg4 : cmdArg (a4 ++ a3 ++ a2 ++ a1 ++ a0 ++ op : CmdWord) 4 = a4 := by
  unfold cmdArg
  exact ((((extract_append_left (a4 ++ a3 ++ a2 ++ a1 ++ a0) op 128 32).trans
    (extract_append_left (a4 ++ a3 ++ a2 ++ a1) a0 96 32)).trans
    (extract_append_left (a4 ++ a3 ++ a2) a1 64 32)).trans
    (extract_append_left (a4 ++ a3) a2 32 32)).trans (extract_top a4 a3)

end

@[simp] theorem slot_operand (n : Byte) : (0#24 ++ n : BitVec 32).extractLsb' 0 8 = n :=
  extract_bottom _ n

/-! ### Headers (rules R82 and R85) -/

/-- Two data headers agree exactly when their identifiers do. -/
theorem dataHeader_inj {a b : BitVec 32} : dataHeader a = dataHeader b ↔ a = b := by
  constructor
  · intro h
    have e : ∀ x : BitVec 32, (dataHeader x).extractLsb' 10 32 = x := fun x => by
      unfold dataHeader headerBits
      exact ((extract_append_left (x ++ flagBit true ++ flagBit true) (8#8) 2 32).trans
        (extract_append_left (x ++ flagBit true) (flagBit true) 1 32)).trans (extract_top x (flagBit true))
    rw [← e a, h, e b]
  · rintro rfl; rfl

/-- The header part of a frame's canonical bits. -/
theorem toBits_header (f : Frame) :
    f.toBits.extractLsb' 64 42 = headerBits f.id f.isStandard f.isData f.length := frame_header _ _

/-- A slice of the payload part of a frame's canonical bits. -/
theorem toBits_payload (f : Frame) (k w : Nat) (hk : k + w ≤ 64) :
    f.toBits.extractLsb' k w = (payloadBits f.payload).extractLsb' k w := frame_payload _ _ k w hk

/-- A header is the data header of an identifier exactly when its four fields say so (rules R82 and R85). -/
theorem headerBits_eq_dataHeader {id k : BitVec 32} {s d : Bool} {l : Byte} :
    headerBits id s d l = dataHeader k ↔ id = k ∧ s = true ∧ d = true ∧ l = 8#8 := by
  constructor
  · intro h
    have hl : (headerBits id s d l).extractLsb' 0 8 = (dataHeader k).extractLsb' 0 8 := by rw [h]
    have hd : (headerBits id s d l).extractLsb' 8 1 = (dataHeader k).extractLsb' 8 1 := by rw [h]
    have hs : (headerBits id s d l).extractLsb' 9 1 = (dataHeader k).extractLsb' 9 1 := by rw [h]
    have hi : (headerBits id s d l).extractLsb' 10 32 = (dataHeader k).extractLsb' 10 32 := by rw [h]
    have fl : ∀ (x : BitVec 32) (a b : Bool) (c : Byte), (headerBits x a b c).extractLsb' 0 8 = c :=
      fun _ _ _ c => extract_bottom _ c
    have fd : ∀ (x : BitVec 32) (a b : Bool) (c : Byte), (headerBits x a b c).extractLsb' 8 1 = flagBit b :=
      fun x a b c => (extract_append_left (x ++ flagBit a ++ flagBit b) c 0 1).trans (extract_bottom _ (flagBit b))
    have fs : ∀ (x : BitVec 32) (a b : Bool) (c : Byte), (headerBits x a b c).extractLsb' 9 1 = flagBit a :=
      fun x a b c => ((extract_append_left (x ++ flagBit a ++ flagBit b) c 1 1).trans
        (extract_append_left (x ++ flagBit a) (flagBit b) 0 1)).trans (extract_bottom x (flagBit a))
    have fi : ∀ (x : BitVec 32) (a b : Bool) (c : Byte), (headerBits x a b c).extractLsb' 10 32 = x :=
      fun x a b c => ((extract_append_left (x ++ flagBit a ++ flagBit b) c 2 32).trans
        (extract_append_left (x ++ flagBit a) (flagBit b) 1 32)).trans (extract_top x (flagBit a))
    rw [dataHeader, fl, fl] at hl
    rw [dataHeader, fd, fd] at hd
    rw [dataHeader, fs, fs] at hs
    rw [dataHeader, fi, fi] at hi
    exact ⟨hi, by cases s <;> first | rfl | exact absurd hs (by decide),
      by cases d <;> first | rfl | exact absurd hd (by decide), hl⟩
  · rintro ⟨rfl, rfl, rfl, rfl⟩; rfl

/-! ### What a decoder can answer -/

/-- Decoding a telemetry frame built from fields looks at its identifier alone (rules R82 and R83). -/
theorem decode_encodeTelem (id : BitVec 32) (a : U16) (r c : I16) (t : Byte) :
    decode (encodeTelem id a r c t)
      = if id = 0x200#32 then .ok (.telem200 a r c t) else if id = 0x201#32 then .ok (.telem201 a r c t)
        else if id = 0x202#32 then .ok (.telem202 a r c t) else if id = 0x203#32 then .ok (.telem203 a r c t)
        else if id = 0x204#32 then .ok (.telem204 a r c t) else if id = 0x205#32 then .ok (.telem205 a r c t)
        else if id = 0x206#32 then .ok (.telem206 a r c t) else if id = 0x207#32 then .ok (.telem207 a r c t)
        else if id = 0x208#32 then .ok (.telem208 a r c t) else .error .notTelemetry := by
  obtain ⟨h1, h2, h3, h4⟩ := telem_fields a r c t 0#8
  simp [encodeTelem, decode, decodeFrameIn, frame_payload, dataHeader_inj, h1, h2, h3, h4]

/-- Decoding a frame's canonical inbound word looks at the frame's fields (rules R82 and R83). -/
theorem decode_frameIn (f : Frame) :
    decode (.frameIn f.toBits) =
      if f.isStandard = true ∧ f.isData = true ∧ f.length = 8#8 then
        (let a := f.payload[0] ++ f.payload[1]
         let r := f.payload[2] ++ f.payload[3]
         let c := f.payload[4] ++ f.payload[5]
         let t := f.payload[6]
         if f.id = 0x200#32 then .ok (.telem200 a r c t) else if f.id = 0x201#32 then .ok (.telem201 a r c t)
         else if f.id = 0x202#32 then .ok (.telem202 a r c t) else if f.id = 0x203#32 then .ok (.telem203 a r c t)
         else if f.id = 0x204#32 then .ok (.telem204 a r c t) else if f.id = 0x205#32 then .ok (.telem205 a r c t)
         else if f.id = 0x206#32 then .ok (.telem206 a r c t) else if f.id = 0x207#32 then .ok (.telem207 a r c t)
         else if f.id = 0x208#32 then .ok (.telem208 a r c t) else .error .notTelemetry)
      else .error .notTelemetry := by
  obtain ⟨h1, h2, h3, -, h4⟩ := payload_fields f.payload
  simp only [decode, decodeFrameIn, toBits_header, headerBits_eq_dataHeader]
  rw [toBits_payload f 48 16 (by omega), toBits_payload f 32 16 (by omega), toBits_payload f 16 16 (by omega),
    toBits_payload f 8 8 (by omega), h1, h2, h3, h4]
  by_cases h : f.isStandard = true ∧ f.isData = true ∧ f.length = 8#8
  · simp only [h, if_true, and_true]
  · simp only [h, if_false, and_false]

/-- Decoding a command frame built from commands looks at its identifier alone (rules R85 and R86). -/
theorem decode_encodeCmdFrame (id : BitVec 32) (c0 c1 c2 c3 : I16) :
    decode (encodeCmdFrame id c0 c1 c2 c3)
      = if id = 0x200#32 then .ok (.cmdFrameA c0 c1 c2 c3)
        else if id = 0x1FF#32 then .ok (.cmdFrameB c0 c1 c2 c3) else .error .notCommandFrame := by
  obtain ⟨h1, h2, h3, h4⟩ := command_fields c0 c1 c2 c3
  simp [encodeCmdFrame, decode, decodeFrameOut, frame_payload, dataHeader_inj, h1, h2, h3, h4]

/-- Decoding a command word built from its opcode and operands (rules R87 to R89). -/
theorem decode_encodeCmd (op : BitVec 4) (a0 a1 a2 a3 a4 : BitVec 32) :
    decode (encodeCmd op a0 a1 a2 a3 a4)
      = if op = 0x1#4 then .ok .pidReset else if op = 0x2#4 then .ok (.setParam a0 a1 a2 a3 a4)
        else if op = 0x3#4 then .ok (.setGain a0 a1 a2) else if op = 0x4#4 then .ok (.setLimit a0 a1)
        else if op = 0x5#4 then .ok (.setTarget a0) else if op = 0x6#4 then .ok (.setSlot (a0.extractLsb' 0 8))
        else if op = 0x7#4 then .ok (.setPeriod a0 a1) else if op = 0x8#4 then .ok .start
        else .error (.reservedOpcode op) := by
  simp only [encodeCmd, decode, decodeCmd, word_op, word_arg0, word_arg1, word_arg2, word_arg3, word_arg4]

/-- The decoder of command words answers host commands only. -/
theorem decodeCmd_ok {w : CmdWord} {i : Instr} (h : decodeCmd w = .ok i) :
    i = .pidReset ∨ (∃ kp ki kd lo hi, i = .setParam kp ki kd lo hi) ∨ (∃ kp ki kd, i = .setGain kp ki kd)
      ∨ (∃ lo hi, i = .setLimit lo hi) ∨ (∃ r, i = .setTarget r) ∨ (∃ n, i = .setSlot n)
      ∨ (∃ lo hi, i = .setPeriod lo hi) ∨ i = .start := by
  simp only [decodeCmd] at h
  repeat' split at h
  all_goals cases h
  all_goals simp

end Sys2Proof
end

