-- ==== Sys2Proof/Laws/Exec.lean ====
section
/-! SUPPORT. What each shared operation can do, what a host command and an IDLE step can do, and what one
step of the machine can do: one inversion lemma each, for later proofs to cite instead of unfolding. -/

namespace Sys2Proof.Machine

/-! ### REG_UPDATE (rules R130 and R131) -/

theorem registryUpdate_none (s : State) : registryUpdate none s = s.withPhase Phase.lookup := rfl

theorem registryUpdate_slot {d : Telem} {k : Fin 8} (s : State) (h : d.idx = (k.val : Int)) :
    registryUpdate (some d) s = (s.putTelemetry k d).withPhase Phase.lookup := by
  simp [registryUpdate, h]

theorem registryUpdate_fault {d : Telem} {s : State} (h : d.idx < 0 ∨ 7 < d.idx)
    (hp : s.params.id200 = .fault) :
    registryUpdate (some d) s = s.raise Cause.slotRange (indexInfo d.idx) := by
  simp [registryUpdate, slotIx_none h, hp]

theorem registryUpdate_drop {d : Telem} {s : State} (h : d.idx < 0 ∨ 7 < d.idx)
    (hp : s.params.id200 = .drop) : registryUpdate (some d) s = s.withPhase Phase.lookup := by
  simp [registryUpdate, slotIx_none h, hp]

/-- REG_UPDATE does one of three things. -/
theorem registryUpdate_cases (d : Option Telem) (s : State) :
    registryUpdate d s = s.withPhase Phase.lookup
      ∨ (∃ x k, d = some x ∧ x.idx = ((k : Fin 8).val : Int)
          ∧ registryUpdate d s = (s.putTelemetry k x).withPhase Phase.lookup)
      ∨ (∃ x, d = some x ∧ (x.idx < 0 ∨ 7 < x.idx) ∧ s.params.id200 = .fault
          ∧ registryUpdate d s = s.raise Cause.slotRange (indexInfo x.idx)) := by
  cases d with
  | none => exact .inl rfl
  | some x =>
    by_cases h : x.idx < 0 ∨ 7 < x.idx
    · cases hp : s.params.id200 with
      | fault => exact .inr (.inr ⟨x, rfl, h, rfl, registryUpdate_fault h hp⟩)
      | drop => exact .inl (registryUpdate_drop h hp)
    · have hk : x.idx = (((⟨x.idx.toNat, by omega⟩ : Fin 8).val : Nat) : Int) := by simp; omega
      exact .inr (.inl ⟨x, _, rfl, hk, registryUpdate_slot s hk⟩)

section
variable (d : Option Telem) (s : State)

@[simp] theorem registryUpdate_params : (registryUpdate d s).params = s.params := by
  rcases registryUpdate_cases d s with h | ⟨_, _, _, _, h⟩ | ⟨_, _, _, _, h⟩ <;> rw [h] <;> rfl
@[simp] theorem registryUpdate_param : (registryUpdate d s).param = s.param := by
  rcases registryUpdate_cases d s with h | ⟨_, _, _, _, h⟩ | ⟨_, _, _, _, h⟩ <;> rw [h] <;> rfl
@[simp] theorem registryUpdate_rt : (registryUpdate d s).rt = s.rt := by
  rcases registryUpdate_cases d s with h | ⟨_, _, _, _, h⟩ | ⟨_, _, _, _, h⟩ <;> rw [h] <;> rfl
@[simp] theorem registryUpdate_cfg : (registryUpdate d s).cfg = s.cfg := by
  rcases registryUpdate_cases d s with h | ⟨_, _, _, _, h⟩ | ⟨_, _, _, _, h⟩ <;> rw [h] <;> rfl
@[simp] theorem registryUpdate_loop : (registryUpdate d s).loop = s.loop := by
  rcases registryUpdate_cases d s with h | ⟨_, _, _, _, h⟩ | ⟨_, _, _, _, h⟩ <;> rw [h] <;> rfl
@[simp] theorem registryUpdate_lat : (registryUpdate d s).lat = s.lat := by
  rcases registryUpdate_cases d s with h | ⟨_, _, _, _, h⟩ | ⟨_, _, _, _, h⟩ <;> rw [h] <;> rfl
@[simp] theorem registryUpdate_loc : (registryUpdate d s).loc = s.loc := by
  rcases registryUpdate_cases d s with h | ⟨_, _, _, _, h⟩ | ⟨_, _, _, _, h⟩ <;> rw [h] <;> rfl
@[simp] theorem registryUpdate_env : (registryUpdate d s).env = s.env := by
  rcases registryUpdate_cases d s with h | ⟨_, _, _, _, h⟩ | ⟨_, _, _, _, h⟩ <;> rw [h] <;> rfl
@[simp] theorem registryUpdate_outs : (registryUpdate d s).outs = s.outs := by
  rcases registryUpdate_cases d s with h | ⟨_, _, _, _, h⟩ | ⟨_, _, _, _, h⟩ <;> rw [h] <;> rfl
@[simp] theorem registryUpdate_freeIx : (registryUpdate d s).freeIx = s.freeIx := by
  rcases registryUpdate_cases d s with h | ⟨_, _, _, _, h⟩ | ⟨_, _, _, _, h⟩ <;> rw [h] <;> rfl

/-- REG_UPDATE leaves every command alone (rule R132). -/
@[simp] theorem registryUpdate_command (i : Fin 8) :
    ((registryUpdate d s).slot i).commandedCurrent = (s.slot i).commandedCurrent := by
  rcases registryUpdate_cases d s with h | ⟨x, k, _, _, h⟩ | ⟨_, _, _, _, h⟩ <;> rw [h]
  · rfl
  · exact State.command_putTelemetry s k i x
  · rfl

end

/-! ### CALC (rules R165 and R170) -/

/-- The test of PPR_VALID, either way round. -/
theorem ite_pprValid {α : Type} (b : Bool) (x y : α) :
    (if b = true then x else y) = if b = false then y else x := by
  cases b <;> rfl

/-- The state a completed CALC leaves. -/
def calcDone (e : F32) (s : State) : State :=
  { s with
    rt := pidStep s.params.arith s.params.filterDiv s.param s.rt e s.loop.dtLatch
    lat := { s.lat with out := (pidStep s.params.arith s.params.filterDiv s.param s.rt e s.loop.dtLatch).acc }
    phase := Phase.quant }

theorem calcStep_done {e : F32} {s : State} (h : s.params.arith.flt F32.posZero s.loop.dtLatch = true) :
    calcStep e s = calcDone e s := if_pos h

theorem calcStep_fault {e : F32} {s : State} (h : s.params.arith.flt F32.posZero s.loop.dtLatch = false) :
    calcStep e s = s.raise Cause.dtRange s.loop.dtLatch :=
  if_neg (by rw [dtPositive, h]; exact Bool.false_ne_true)

theorem calcStep_cases (e : F32) (s : State) :
    (s.params.arith.flt F32.posZero s.loop.dtLatch = true ∧ calcStep e s = calcDone e s)
      ∨ (s.params.arith.flt F32.posZero s.loop.dtLatch = false
          ∧ calcStep e s = s.raise Cause.dtRange s.loop.dtLatch) := by
  cases h : s.params.arith.flt F32.posZero s.loop.dtLatch with
  | true => exact .inl ⟨rfl, calcStep_done h⟩
  | false => exact .inr ⟨rfl, calcStep_fault h⟩

/-! ### Offering a frame (rule R208) -/

theorem offerFrame_eq (f : Frame) (e : DiagEvent) (p : BitVec 4) (s : State) :
    offerFrame f e p s
      = { s.popTx with
          outs := s.outs ++ [.offered f s.txAnswer] ++ (if s.txAnswer then [] else [.diag e])
          phase := p } := by
  cases h : s.txAnswer <;> simp [offerFrame, h, State.emit, State.withPhase, State.popTx]

@[simp] theorem offerFrame_params (f : Frame) (e : DiagEvent) (p : BitVec 4) (s : State) :
    (offerFrame f e p s).params = s.params := by rw [offerFrame_eq]; rfl
@[simp] theorem offerFrame_rf (f : Frame) (e : DiagEvent) (p : BitVec 4) (s : State) :
    (offerFrame f e p s).rf = s.rf := by rw [offerFrame_eq]; rfl
@[simp] theorem offerFrame_param (f : Frame) (e : DiagEvent) (p : BitVec 4) (s : State) :
    (offerFrame f e p s).param = s.param := by rw [offerFrame_eq]; rfl
@[simp] theorem offerFrame_rt (f : Frame) (e : DiagEvent) (p : BitVec 4) (s : State) :
    (offerFrame f e p s).rt = s.rt := by rw [offerFrame_eq]; rfl
@[simp] theorem offerFrame_cfg (f : Frame) (e : DiagEvent) (p : BitVec 4) (s : State) :
    (offerFrame f e p s).cfg = s.cfg := by rw [offerFrame_eq]; rfl
@[simp] theorem offerFrame_loop (f : Frame) (e : DiagEvent) (p : BitVec 4) (s : State) :
    (offerFrame f e p s).loop = s.loop := by rw [offerFrame_eq]; rfl
@[simp] theorem offerFrame_flt (f : Frame) (e : DiagEvent) (p : BitVec 4) (s : State) :
    (offerFrame f e p s).flt = s.flt := by rw [offerFrame_eq]; rfl
@[simp] theorem offerFrame_lat (f : Frame) (e : DiagEvent) (p : BitVec 4) (s : State) :
    (offerFrame f e p s).lat = s.lat := by rw [offerFrame_eq]; rfl
@[simp] theorem offerFrame_loc (f : Frame) (e : DiagEvent) (p : BitVec 4) (s : State) :
    (offerFrame f e p s).loc = s.loc := by rw [offerFrame_eq]; rfl
@[simp] theorem offerFrame_phase (f : Frame) (e : DiagEvent) (p : BitVec 4) (s : State) :
    (offerFrame f e p s).phase = p := by rw [offerFrame_eq]
@[simp] theorem offerFrame_env (f : Frame) (e : DiagEvent) (p : BitVec 4) (s : State) :
    (offerFrame f e p s).env = { s.env with tx := s.env.tx.tail } := by rw [offerFrame_eq]; rfl
@[simp] theorem offerFrame_outs (f : Frame) (e : DiagEvent) (p : BitVec 4) (s : State) :
    (offerFrame f e p s).outs
      = s.outs ++ [.offered f s.txAnswer] ++ (if s.txAnswer then [] else [.diag e]) := by rw [offerFrame_eq]

/-! ### The slot accesses (rules R133 and R135) -/

theorem slotIx_target {s : State} {k : Fin 8} (h : s.cfg.targetSlot.toNat = k.val) :
    slotIx s.targetIx = some k := by
  simp [State.targetIx, h]

theorem slotIx_target_none {s : State} (h : 7 < s.cfg.targetSlot.toNat) : slotIx s.targetIx = none :=
  slotIx_none (.inr (by simp only [State.targetIx]; omega))

/-- The recorded index of a target slot out of range is its zero extension (rule R242). -/
theorem indexInfo_target (s : State) : indexInfo s.targetIx = s.cfg.targetSlot.setWidth 32 := by
  simp only [indexInfo, State.targetIx]
  apply BitVec.eq_of_toNat_eq
  simp

/-- The target slot, or the lack of one. -/
theorem target_cases (s : State) :
    (∃ k : Fin 8, s.cfg.targetSlot.toNat = k.val) ∨ 7 < s.cfg.targetSlot.toNat := by
  by_cases h : s.cfg.targetSlot.toNat ≤ 7
  · exact .inl ⟨⟨s.cfg.targetSlot.toNat, by omega⟩, rfl⟩
  · exact .inr (by omega)

theorem execSlotRd_slot {s : State} {k : Fin 8} (h : s.cfg.targetSlot.toNat = k.val) :
    execSlotRd s = .next { s with lat := { s.lat with act := (s.slot k).rpm }, phase := Phase.compute } := by
  simp [execSlotRd, slotIx_target h]

theorem execSlotRd_fault {s : State} (h : 7 < s.cfg.targetSlot.toNat) :
    execSlotRd s = .next (s.raise Cause.slotRange (s.cfg.targetSlot.setWidth 32)) := by
  simp [execSlotRd, slotIx_target_none h, indexInfo_target]

theorem execSlotWrCmd_slot {s : State} {k : Fin 8} (h : s.cfg.targetSlot.toNat = k.val) :
    execSlotWrCmd s = .next ((s.putCommand k s.loc.q).withPhase Phase.encode) := by
  simp [execSlotWrCmd, slotIx_target h]

theorem execSlotWrCmd_fault {s : State} (h : 7 < s.cfg.targetSlot.toNat) :
    execSlotWrCmd s = .next (s.raise Cause.slotRange (s.cfg.targetSlot.setWidth 32)) := by
  simp [execSlotWrCmd, slotIx_target_none h, indexInfo_target]

/-! ### Host commands (rule R213) -/

/-- Everything a command word can do, by its opcode. -/
theorem execCmdWord_cases (w : CmdWord) (s : State) : ∃ t, execCmdWord w s = .next t ∧
    ((cmdOp w = 1#4 ∧ t = s.clearRuntime)
      ∨ (∃ p : PidParam, cmdOp w = 2#4 ∧ s.params.arith.fle p.min p.max = true ∧ t = ({ s with param := p }).clearRuntime
          ∧ decodeCmd w = .ok (.setParam p.kp p.ki p.kd p.min p.max))
      ∨ (∃ kp ki kd lo hi, cmdOp w = 2#4 ∧ s.params.arith.fle lo hi = false ∧ t = s.raise Cause.limitOrder lo
          ∧ decodeCmd w = .ok (.setParam kp ki kd lo hi))
      ∨ (∃ kp ki kd, cmdOp w = 3#4
          ∧ t = ({ s with param := { s.param with kp := kp, ki := ki, kd := kd } }).clearRuntime)
      ∨ (∃ lo hi, cmdOp w = 4#4 ∧ s.params.arith.fle lo hi = true
          ∧ t = { s with param := { s.param with min := lo, max := hi } }
          ∧ decodeCmd w = .ok (.setLimit lo hi))
      ∨ (∃ lo hi, cmdOp w = 4#4 ∧ s.params.arith.fle lo hi = false ∧ t = s.raise Cause.limitOrder lo
          ∧ decodeCmd w = .ok (.setLimit lo hi))
      ∨ (∃ r, cmdOp w = 5#4 ∧ t = { s with cfg := { s.cfg with targetRpm := r } })
      ∨ (∃ n, cmdOp w = 6#4 ∧ t = { s with cfg := { s.cfg with targetSlot := n } })
      ∨ (∃ lo hi, cmdOp w = 7#4
          ∧ t = { s with cfg := { s.cfg with period := periodOperand s.params lo hi } })
      ∨ (cmdOp w = 8#4 ∧ t = { s with loop := s.loop.started s.loc.tNow })
      ∨ ((∃ op, decodeCmd w = .error (.reservedOpcode op)) ∧ t = s.emit (.diag .cmdUnknown))) := by
  by_cases h1 : cmdOp w = 1#4
  · exact ⟨_, by simp [execCmdWord, decodeCmd, h1]; rfl, .inl ⟨h1, rfl⟩⟩
  by_cases h2 : cmdOp w = 2#4
  · have hd : decodeCmd w
        = .ok (.setParam (cmdArg w 0) (cmdArg w 1) (cmdArg w 2) (cmdArg w 3) (cmdArg w 4)) := by
      simp [decodeCmd, h2]
    cases hl : s.params.arith.fle (cmdArg w 3) (cmdArg w 4) with
    | true =>
      refine ⟨_, ?_, .inr (.inl ⟨⟨cmdArg w 0, cmdArg w 1, cmdArg w 2, cmdArg w 3, cmdArg w 4⟩, h2, hl, rfl, hd⟩)⟩
      simp only [execCmdWord, hd]
      exact if_pos hl
    | false =>
      refine ⟨_, ?_, .inr (.inr (.inl ⟨_, _, _, _, _, h2, hl, rfl, hd⟩))⟩
      simp only [execCmdWord, hd]
      exact if_neg (by rw [limitsOk, hl]; exact Bool.false_ne_true)
  by_cases h3 : cmdOp w = 3#4
  · exact ⟨_, by simp [execCmdWord, decodeCmd, h3]; rfl, .inr (.inr (.inr (.inl ⟨_, _, _, h3, rfl⟩)))⟩
  by_cases h4 : cmdOp w = 4#4
  · have hd : decodeCmd w = .ok (.setLimit (cmdArg w 0) (cmdArg w 1)) := by simp [decodeCmd, h4]
    cases hl : s.params.arith.fle (cmdArg w 0) (cmdArg w 1) with
    | true =>
      refine ⟨_, ?_, .inr (.inr (.inr (.inr (.inl ⟨_, _, h4, hl, rfl, hd⟩))))⟩
      simp only [execCmdWord, hd]
      exact if_pos hl
    | false =>
      refine ⟨_, ?_, .inr (.inr (.inr (.inr (.inr (.inl ⟨_, _, h4, hl, rfl, hd⟩)))))⟩
      simp only [execCmdWord, hd]
      exact if_neg (by rw [limitsOk, hl]; exact Bool.false_ne_true)
  by_cases h5 : cmdOp w = 5#4
  · exact ⟨_, by simp [execCmdWord, decodeCmd, h5]; rfl,
      .inr (.inr (.inr (.inr (.inr (.inr (.inl ⟨_, h5, rfl⟩))))))⟩
  by_cases h6 : cmdOp w = 6#4
  · exact ⟨_, by simp [execCmdWord, decodeCmd, h6]; rfl,
      .inr (.inr (.inr (.inr (.inr (.inr (.inr (.inl ⟨_, h6, rfl⟩)))))))⟩
  by_cases h7 : cmdOp w = 7#4
  · exact ⟨_, by simp [execCmdWord, decodeCmd, h7]; rfl,
      .inr (.inr (.inr (.inr (.inr (.inr (.inr (.inr (.inl ⟨_, _, h7, rfl⟩))))))))⟩
  by_cases h8 : cmdOp w = 8#4
  · exact ⟨_, by simp [execCmdWord, decodeCmd, h8]; rfl,
      .inr (.inr (.inr (.inr (.inr (.inr (.inr (.inr (.inr (.inl ⟨h8, rfl⟩)))))))))⟩
  have hd : decodeCmd w = .error (.reservedOpcode (cmdOp w)) := by
    simp [decodeCmd, h1, h2, h3, h4, h5, h6, h7, h8]
  exact ⟨_, by simp only [execCmdWord, hd],
    .inr (.inr (.inr (.inr (.inr (.inr (.inr (.inr (.inr (.inr ⟨⟨_, hd⟩, rfl⟩)))))))))⟩

/-- EXEC_CMD runs the command the decoder reads. -/
theorem execCmdWord_decoded {w : CmdWord} {i : Instr} (h : decodeCmd w = .ok i) (s : State) :
    execCmdWord w s = exec i s := by
  rcases decodeCmd_ok h with rfl | ⟨_, _, _, _, _, rfl⟩ | ⟨_, _, _, rfl⟩ | ⟨_, _, rfl⟩ | ⟨_, rfl⟩
    | ⟨_, rfl⟩ | ⟨_, _, rfl⟩ | rfl <;> simp only [execCmdWord, h, exec]

/-! ### The IDLE step (rule R193) -/

/-- The state of an IDLE step after its exchanges with the timebase and the command port. -/
def State.asked (s : State) : State := s.sampleNow.popCmd

/-- The IDLE step finds a tick due. -/
def State.tickDue (s : State) : Prop :=
  s.loop.run = true
    ∧ s.cfg.period.toNat < (s.nowAnswer - s.loop.lastTick).toNat % 2 ^ s.params.timeW

/-- The modular difference of two counts, as integers (rule R194). -/
theorem elapsed_toInt (a b : Time) {n : Nat} (h : n ≤ 64) :
    (((a - b).toNat % 2 ^ n : Nat) : Int) = ((a.toNat : Int) - (b.toNat : Int)) % 2 ^ n := by
  obtain ⟨c, hc⟩ : (2 : Int) ^ n ∣ 2 ^ 64 := by exact_mod_cast Nat.pow_dvd_pow 2 h
  have hb := b.isLt
  have e : ((2 ^ 64 - b.toNat + a.toNat : Nat) : Int) = (a.toNat : Int) - b.toNat + 2 ^ n * c := by
    rw [← hc]; omega
  rw [BitVec.toNat_sub, Nat.mod_mod_of_dvd _ (Nat.pow_dvd_pow 2 h)]
  push_cast at e ⊢
  rw [e, Int.add_mul_emod_self_left]

theorem execIdleStep_cases (s : State) :
    (∃ w, s.sampleNow.cmdAnswer = some w ∧ execIdleStep s = execCmdWord w s.asked)
      ∨ (s.sampleNow.cmdAnswer = none ∧ s.tickDue ∧ execIdleStep s = .next s.asked.fireTick)
      ∨ (s.sampleNow.cmdAnswer = none ∧ ¬ s.tickDue ∧ execIdleStep s = .next s.asked) := by
  cases h : s.sampleNow.cmdAnswer with
  | some w => exact .inl ⟨w, rfl, by simp [execIdleStep, h, State.asked]⟩
  | none =>
    have e : execIdleStep s = if s.loop.run && trigger s.params s.nowAnswer s.loop.lastTick s.cfg.period then
        .next s.asked.fireTick else .next s.asked := by
      simp only [execIdleStep, h]
      rfl
    by_cases g : s.tickDue
    · exact .inr (.inl ⟨rfl, g, by rw [e, if_pos (by simpa [trigger, State.tickDue] using g)]⟩)
    · exact .inr (.inr ⟨rfl, g, by rw [e, if_neg (by simpa [trigger, State.tickDue] using g)]⟩)

/-! ### A step of the machine (rule R191) -/

/-- The state of a DECODE phase between its two micro-operations. -/
def State.decoded (s : State) : State :=
  { s with loc := { s.loc with dec := s.lat.rxf.bind decodeTelemetry } }

/-- The state a RX phase leaves. -/
def State.received (s : State) : State :=
  { s.popRx with lat := { s.lat with rxf := s.rxAnswer }, phase := Phase.decode }

/-- The state of a COMPUTE phase with the error handed over. -/
def State.withError (s : State) : State :=
  { s with loc := { s.loc with err := s.errorOperand } }

/-- The state of a QUANT phase between its two micro-operations. -/
def State.quantized (s : State) (q : I16) : State := { s with loc := { s.loc with q := q } }

/-- The state an ENCODE phase leaves. -/
def State.encoded (s : State) : State :=
  { s with
    loc := { s.loc with snap := s.commands }
    lat := { s.lat with fra := (encodeFrames s.commands).1, frb := (encodeFrames s.commands).2 }
    phase := Phase.txa }

/-! ### The named states, field by field -/

@[simp] theorem State.asked_params (s : State) : (s.asked).params = s.params := rfl
@[simp] theorem State.asked_rf (s : State) : (s.asked).rf = s.rf := rfl
@[simp] theorem State.asked_param (s : State) : (s.asked).param = s.param := rfl
@[simp] theorem State.asked_rt (s : State) : (s.asked).rt = s.rt := rfl
@[simp] theorem State.asked_cfg (s : State) : (s.asked).cfg = s.cfg := rfl
@[simp] theorem State.asked_phase (s : State) : (s.asked).phase = s.phase := rfl
@[simp] theorem State.asked_loop (s : State) : (s.asked).loop = s.loop := rfl
@[simp] theorem State.asked_flt (s : State) : (s.asked).flt = s.flt := rfl
@[simp] theorem State.asked_lat (s : State) : (s.asked).lat = s.lat := rfl
@[simp] theorem State.asked_loc (s : State) : (s.asked).loc = { s.loc with tNow := s.nowAnswer } := rfl
@[simp] theorem State.asked_env (s : State) :
    (s.asked).env = { s.env with now := s.env.now.tail, cmd := s.env.cmd.tail } := rfl
@[simp] theorem State.asked_outs (s : State) : (s.asked).outs = s.outs := rfl
@[simp] theorem State.asked_freeIx (s : State) : (s.asked).freeIx = drawn s.env.cmd (drawn s.env.now s.freeIx) := rfl

@[simp] theorem State.decoded_params (s : State) : (s.decoded).params = s.params := rfl
@[simp] theorem State.decoded_rf (s : State) : (s.decoded).rf = s.rf := rfl
@[simp] theorem State.decoded_param (s : State) : (s.decoded).param = s.param := rfl
@[simp] theorem State.decoded_rt (s : State) : (s.decoded).rt = s.rt := rfl
@[simp] theorem State.decoded_cfg (s : State) : (s.decoded).cfg = s.cfg := rfl
@[simp] theorem State.decoded_phase (s : State) : (s.decoded).phase = s.phase := rfl
@[simp] theorem State.decoded_loop (s : State) : (s.decoded).loop = s.loop := rfl
@[simp] theorem State.decoded_flt (s : State) : (s.decoded).flt = s.flt := rfl
@[simp] theorem State.decoded_lat (s : State) : (s.decoded).lat = s.lat := rfl
@[simp] theorem State.decoded_loc (s : State) :
    (s.decoded).loc = { s.loc with dec := s.lat.rxf.bind decodeTelemetry } := rfl
@[simp] theorem State.decoded_env (s : State) : (s.decoded).env = s.env := rfl
@[simp] theorem State.decoded_outs (s : State) : (s.decoded).outs = s.outs := rfl
@[simp] theorem State.decoded_freeIx (s : State) : (s.decoded).freeIx = s.freeIx := rfl

@[simp] theorem State.received_params (s : State) : (s.received).params = s.params := rfl
@[simp] theorem State.received_rf (s : State) : (s.received).rf = s.rf := rfl
@[simp] theorem State.received_param (s : State) : (s.received).param = s.param := rfl
@[simp] theorem State.received_rt (s : State) : (s.received).rt = s.rt := rfl
@[simp] theorem State.received_cfg (s : State) : (s.received).cfg = s.cfg := rfl
@[simp] theorem State.received_phase (s : State) : (s.received).phase = Phase.decode := rfl
@[simp] theorem State.received_loop (s : State) : (s.received).loop = s.loop := rfl
@[simp] theorem State.received_flt (s : State) : (s.received).flt = s.flt := rfl
@[simp] theorem State.received_lat (s : State) : (s.received).lat = { s.lat with rxf := s.rxAnswer } := rfl
@[simp] theorem State.received_loc (s : State) : (s.received).loc = s.loc := rfl
@[simp] theorem State.received_env (s : State) : (s.received).env = { s.env with rx := s.env.rx.tail } := rfl
@[simp] theorem State.received_outs (s : State) : (s.received).outs = s.outs := rfl
@[simp] theorem State.received_freeIx (s : State) : (s.received).freeIx = drawn s.env.rx s.freeIx := rfl

@[simp] theorem State.withError_params (s : State) : (s.withError).params = s.params := rfl
@[simp] theorem State.withError_rf (s : State) : (s.withError).rf = s.rf := rfl
@[simp] theorem State.withError_param (s : State) : (s.withError).param = s.param := rfl
@[simp] theorem State.withError_rt (s : State) : (s.withError).rt = s.rt := rfl
@[simp] theorem State.withError_cfg (s : State) : (s.withError).cfg = s.cfg := rfl
@[simp] theorem State.withError_phase (s : State) : (s.withError).phase = s.phase := rfl
@[simp] theorem State.withError_loop (s : State) : (s.withError).loop = s.loop := rfl
@[simp] theorem State.withError_flt (s : State) : (s.withError).flt = s.flt := rfl
@[simp] theorem State.withError_lat (s : State) : (s.withError).lat = s.lat := rfl
@[simp] theorem State.withError_loc (s : State) :
    (s.withError).loc = { s.loc with err := s.errorOperand } := rfl
@[simp] theorem State.withError_env (s : State) : (s.withError).env = s.env := rfl
@[simp] theorem State.withError_outs (s : State) : (s.withError).outs = s.outs := rfl
@[simp] theorem State.withError_freeIx (s : State) : (s.withError).freeIx = s.freeIx := rfl

@[simp] theorem State.quantized_params (s : State) (q : I16) : (s.quantized q).params = s.params := rfl
@[simp] theorem State.quantized_rf (s : State) (q : I16) : (s.quantized q).rf = s.rf := rfl
@[simp] theorem State.quantized_param (s : State) (q : I16) : (s.quantized q).param = s.param := rfl
@[simp] theorem State.quantized_rt (s : State) (q : I16) : (s.quantized q).rt = s.rt := rfl
@[simp] theorem State.quantized_cfg (s : State) (q : I16) : (s.quantized q).cfg = s.cfg := rfl
@[simp] theorem State.quantized_phase (s : State) (q : I16) : (s.quantized q).phase = s.phase := rfl
@[simp] theorem State.quantized_loop (s : State) (q : I16) : (s.quantized q).loop = s.loop := rfl
@[simp] theorem State.quantized_flt (s : State) (q : I16) : (s.quantized q).flt = s.flt := rfl
@[simp] theorem State.quantized_lat (s : State) (q : I16) : (s.quantized q).lat = s.lat := rfl
@[simp] theorem State.quantized_loc (s : State) (q : I16) : (s.quantized q).loc = { s.loc with q := q } := rfl
@[simp] theorem State.quantized_env (s : State) (q : I16) : (s.quantized q).env = s.env := rfl
@[simp] theorem State.quantized_outs (s : State) (q : I16) : (s.quantized q).outs = s.outs := rfl
@[simp] theorem State.quantized_freeIx (s : State) (q : I16) : (s.quantized q).freeIx = s.freeIx := rfl

@[simp] theorem State.encoded_params (s : State) : (s.encoded).params = s.params := rfl
@[simp] theorem State.encoded_rf (s : State) : (s.encoded).rf = s.rf := rfl
@[simp] theorem State.encoded_param (s : State) : (s.encoded).param = s.param := rfl
@[simp] theorem State.encoded_rt (s : State) : (s.encoded).rt = s.rt := rfl
@[simp] theorem State.encoded_cfg (s : State) : (s.encoded).cfg = s.cfg := rfl
@[simp] theorem State.encoded_phase (s : State) : (s.encoded).phase = Phase.txa := rfl
@[simp] theorem State.encoded_loop (s : State) : (s.encoded).loop = s.loop := rfl
@[simp] theorem State.encoded_flt (s : State) : (s.encoded).flt = s.flt := rfl
@[simp] theorem State.encoded_lat (s : State) :
    (s.encoded).lat = { s.lat with fra := (encodeFrames s.commands).1, frb := (encodeFrames s.commands).2 } := rfl
@[simp] theorem State.encoded_loc (s : State) : (s.encoded).loc = { s.loc with snap := s.commands } := rfl
@[simp] theorem State.encoded_env (s : State) : (s.encoded).env = s.env := rfl
@[simp] theorem State.encoded_outs (s : State) : (s.encoded).outs = s.outs := rfl
@[simp] theorem State.encoded_freeIx (s : State) : (s.encoded).freeIx = s.freeIx := rfl

@[simp] theorem calcDone_params (e : F32) (s : State) : (calcDone e s).params = s.params := rfl
@[simp] theorem calcDone_rf (e : F32) (s : State) : (calcDone e s).rf = s.rf := rfl
@[simp] theorem calcDone_param (e : F32) (s : State) : (calcDone e s).param = s.param := rfl
@[simp] theorem calcDone_rt (e : F32) (s : State) :
    (calcDone e s).rt = pidStep s.params.arith s.params.filterDiv s.param s.rt e s.loop.dtLatch := rfl
@[simp] theorem calcDone_cfg (e : F32) (s : State) : (calcDone e s).cfg = s.cfg := rfl
@[simp] theorem calcDone_phase (e : F32) (s : State) : (calcDone e s).phase = Phase.quant := rfl
@[simp] theorem calcDone_loop (e : F32) (s : State) : (calcDone e s).loop = s.loop := rfl
@[simp] theorem calcDone_flt (e : F32) (s : State) : (calcDone e s).flt = s.flt := rfl
@[simp] theorem calcDone_loc (e : F32) (s : State) : (calcDone e s).loc = s.loc := rfl
@[simp] theorem calcDone_env (e : F32) (s : State) : (calcDone e s).env = s.env := rfl
@[simp] theorem calcDone_outs (e : F32) (s : State) : (calcDone e s).outs = s.outs := rfl
@[simp] theorem calcDone_freeIx (e : F32) (s : State) : (calcDone e s).freeIx = s.freeIx := rfl
@[simp] theorem calcDone_out (e : F32) (s : State) : (calcDone e s).lat.out = (calcDone e s).rt.acc := rfl
@[simp] theorem calcDone_rxf (e : F32) (s : State) : (calcDone e s).lat.rxf = s.lat.rxf := rfl
@[simp] theorem calcDone_act (e : F32) (s : State) : (calcDone e s).lat.act = s.lat.act := rfl
@[simp] theorem calcDone_fra (e : F32) (s : State) : (calcDone e s).lat.fra = s.lat.fra := rfl
@[simp] theorem calcDone_frb (e : F32) (s : State) : (calcDone e s).lat.frb = s.lat.frb := rfl

@[simp] theorem State.slot_fireTick (s : State) (i : Fin 8) : s.fireTick.slot i = s.slot i := rfl
@[simp] theorem State.slot_asked (s : State) (i : Fin 8) : s.asked.slot i = s.slot i := rfl
@[simp] theorem State.slot_decoded (s : State) (i : Fin 8) : s.decoded.slot i = s.slot i := rfl
@[simp] theorem State.slot_received (s : State) (i : Fin 8) : s.received.slot i = s.slot i := rfl
@[simp] theorem State.slot_withError (s : State) (i : Fin 8) : s.withError.slot i = s.slot i := rfl
@[simp] theorem State.slot_encoded (s : State) (i : Fin 8) : s.encoded.slot i = s.slot i := rfl
@[simp] theorem State.slot_quantized (s : State) (q : I16) (i : Fin 8) : (s.quantized q).slot i = s.slot i := rfl
@[simp] theorem slot_calcDone (e : F32) (s : State) (i : Fin 8) : (calcDone e s).slot i = s.slot i := rfl
@[simp] theorem slot_offerFrame (f : Frame) (e : DiagEvent) (p : BitVec 4) (s : State) (i : Fin 8) :
    (offerFrame f e p s).slot i = s.slot i := State.slot_of_rf (by simp) i

/-- What a step does, by what the outside does before it. -/
theorem step_of_reset {s : State} (h : s.extAnswer = some .reset) : step s = .next s.popExt.resetEvent := by
  simp [step, h]

theorem step_of_dbgRead {s : State} {sel : BitVec 3} (h : s.extAnswer = some (.dbgRead sel)) :
    step s = .next (s.popExt.emit (.dbg sel (s.slot sel.toFin).debugBits)) := by
  simp only [step, h]
  rfl

theorem step_of_phase {s : State} (h : s.extAnswer = none) : step s = phaseStep s.popExt := by simp [step, h]

/-- What the outside does is the head of its tape. -/
theorem extAnswer_cons {s : State} {e : Option ExtEvent} {l : List (Option ExtEvent)} (h : s.env.ext = e :: l) :
    s.extAnswer = e := by rw [State.extAnswer, h]; rfl

/-- A tape that names an event draws no free value. -/
theorem popExt_cons {s : State} {e : Option ExtEvent} {l : List (Option ExtEvent)} (h : s.env.ext = e :: l) :
    s.popExt = { s with env := { s.env with ext := l } } := by simp [State.popExt, drawn, h]

/-- A list of one operation. -/
theorem runOps_one (i : Instr) (s : State) : runOps [i] s = exec i s := by
  simp only [runOps]
  split <;> simp_all

/-- The second of two operations runs unless the first took the block into HALT. -/
theorem runOps_two (i j : Instr) {s u : State} (h : exec i s = .next u) :
    runOps [i, j] s = if u.phase = Phase.halt then .next u else exec j u := by
  rw [runOps, h]
  simp only [runOps_one]

section
variable {s : State}

theorem phaseStep_idle (hp : s.phase = 0#4) : phaseStep s = execIdleStep s := by
  rw [phaseStep, hp]; exact runOps_one _ _

theorem phaseStep_rx (hp : s.phase = 1#4) : phaseStep s = .next s.received := by
  rw [phaseStep, hp]; exact runOps_one _ _

theorem phaseStep_decode (hp : s.phase = 2#4) : phaseStep s = .next (registryUpdate (s.lat.rxf.bind decodeTelemetry) s.decoded) := by
  rw [phaseStep, hp]
  refine (runOps_two .decodeTelemetry .regUpdate (u := s.decoded) rfl).trans ?_
  rw [if_neg (by rw [show s.decoded.phase = s.phase from rfl, hp]; decide)]
  rfl

theorem phaseStep_lookup (hp : s.phase = 3#4) : phaseStep s = execSlotRd s := by
  rw [phaseStep, hp]; exact runOps_one _ _

theorem phaseStep_compute (hp : s.phase = 4#4) : phaseStep s = .next (calcStep s.errorOperand s.withError) := by
  rw [phaseStep, hp]; exact runOps_one _ _

theorem phaseStep_quant_nan (hp : s.phase = 5#4) (hq : quantize s.params.arith s.lat.out = none) :
    phaseStep s = .next (s.raise Cause.numeric s.lat.out) := by
  rw [phaseStep, hp]
  refine (runOps_two .quant .slotWrCmd (u := s.raise Cause.numeric s.lat.out) ?_).trans (if_pos rfl)
  simp [exec, execQuant, hq]

theorem phaseStep_quant_some (hp : s.phase = 5#4) {q : I16} (hq : quantize s.params.arith s.lat.out = some q) :
    phaseStep s = execSlotWrCmd (s.quantized q) := by
  rw [phaseStep, hp]
  refine (runOps_two .quant .slotWrCmd (u := s.quantized q) ?_).trans
    (if_neg (by rw [show (s.quantized q).phase = s.phase from rfl, hp]; decide))
  simp [exec, execQuant, hq, State.quantized]

theorem phaseStep_encode (hp : s.phase = 6#4) : phaseStep s = .next s.encoded := by
  rw [phaseStep, hp]
  refine (runOps_two .snapshot .encodeCommands (u := { s with loc := { s.loc with snap := s.commands } })
    rfl).trans ?_
  rw [if_neg (by rw [hp]; decide)]
  rfl

theorem phaseStep_txa (hp : s.phase = 7#4) : phaseStep s = .next (offerFrame s.lat.fra .txaFail Phase.txb s) := by
  rw [phaseStep, hp]; exact runOps_one _ _

theorem phaseStep_txb (hp : s.phase = 8#4) : phaseStep s = .next (offerFrame s.lat.frb .txbFail Phase.idle s) := by
  rw [phaseStep, hp]; exact runOps_one _ _

theorem phaseStep_halt (hp : s.phase = 15#4) : phaseStep s = .fault (.halted s.flt.cause s.flt.info) := by
  rw [phaseStep, hp]; exact runOps_one _ _

end

/-- A phase that has a step is one of the ten codes. -/
theorem phase_cases (p : BitVec 4) :
    p = 0#4 ∨ p = 1#4 ∨ p = 2#4 ∨ p = 3#4 ∨ p = 4#4 ∨ p = 5#4 ∨ p = 6#4 ∨ p = 7#4 ∨ p = 8#4 ∨ p = 15#4
      ∨ phaseOps p = none := by
  revert p
  decide

/-- Everything one phase can do, where it answers a next state. -/
theorem phaseStep_next {s t : State} (h : phaseStep s = .next t) :
    (s.phase = 0#4 ∧ execIdleStep s = .next t)
    ∨ (s.phase = 1#4 ∧ t = s.received)
    ∨ (s.phase = 2#4 ∧ t = registryUpdate (s.lat.rxf.bind decodeTelemetry) s.decoded)
    ∨ (s.phase = 3#4 ∧ ∃ k : Fin 8, s.cfg.targetSlot.toNat = k.val
        ∧ t = { s with lat := { s.lat with act := (s.slot k).rpm }, phase := Phase.compute })
    ∨ (s.phase = 3#4 ∧ 7 < s.cfg.targetSlot.toNat
        ∧ t = s.raise Cause.slotRange (s.cfg.targetSlot.setWidth 32))
    ∨ (s.phase = 4#4 ∧ t = calcStep s.errorOperand s.withError)
    ∨ (s.phase = 5#4 ∧ quantize s.params.arith s.lat.out = none ∧ t = s.raise Cause.numeric s.lat.out)
    ∨ (s.phase = 5#4 ∧ ∃ q, quantize s.params.arith s.lat.out = some q ∧ ∃ k : Fin 8,
        s.cfg.targetSlot.toNat = k.val
        ∧ t = ((s.quantized q).putCommand k q).withPhase Phase.encode)
    ∨ (s.phase = 5#4 ∧ ∃ q, quantize s.params.arith s.lat.out = some q ∧ 7 < s.cfg.targetSlot.toNat
        ∧ t = (s.quantized q).raise Cause.slotRange (s.cfg.targetSlot.setWidth 32))
    ∨ (s.phase = 6#4 ∧ t = s.encoded)
    ∨ (s.phase = 7#4 ∧ t = offerFrame s.lat.fra .txaFail Phase.txb s)
    ∨ (s.phase = 8#4 ∧ t = offerFrame s.lat.frb .txbFail Phase.idle s) := by
  rcases phase_cases s.phase with hp | hp | hp | hp | hp | hp | hp | hp | hp | hp | hp
  · exact .inl ⟨hp, (phaseStep_idle hp).symm.trans h⟩
  · rw [phaseStep_rx hp] at h; cases h; exact .inr (.inl ⟨hp, rfl⟩)
  · rw [phaseStep_decode hp] at h; cases h; exact .inr (.inr (.inl ⟨hp, rfl⟩))
  · rw [phaseStep_lookup hp] at h
    rcases target_cases s with ⟨k, hk⟩ | hk
    · rw [execSlotRd_slot hk] at h; cases h; exact .inr (.inr (.inr (.inl ⟨hp, k, hk, rfl⟩)))
    · rw [execSlotRd_fault hk] at h; cases h; exact .inr (.inr (.inr (.inr (.inl ⟨hp, hk, rfl⟩))))
  · rw [phaseStep_compute hp] at h; cases h; exact .inr (.inr (.inr (.inr (.inr (.inl ⟨hp, rfl⟩)))))
  · cases hq : quantize s.params.arith s.lat.out with
    | none =>
      rw [phaseStep_quant_nan hp hq] at h; cases h
      exact .inr (.inr (.inr (.inr (.inr (.inr (.inl ⟨hp, rfl, rfl⟩))))))
    | some q =>
      rw [phaseStep_quant_some hp hq] at h
      rcases target_cases s with ⟨k, hk⟩ | hk
      · rw [execSlotWrCmd_slot (s := s.quantized q) (k := k) hk] at h; cases h
        exact .inr (.inr (.inr (.inr (.inr (.inr (.inr (.inl ⟨hp, q, rfl, k, hk, rfl⟩)))))))
      · rw [execSlotWrCmd_fault (s := s.quantized q) hk] at h; cases h
        exact .inr (.inr (.inr (.inr (.inr (.inr (.inr (.inr (.inl ⟨hp, q, rfl, hk, rfl⟩))))))))
  · rw [phaseStep_encode hp] at h; cases h
    exact .inr (.inr (.inr (.inr (.inr (.inr (.inr (.inr (.inr (.inl ⟨hp, rfl⟩)))))))))
  · rw [phaseStep_txa hp] at h; cases h
    exact .inr (.inr (.inr (.inr (.inr (.inr (.inr (.inr (.inr (.inr (.inl ⟨hp, rfl⟩))))))))))
  · rw [phaseStep_txb hp] at h; cases h
    exact .inr (.inr (.inr (.inr (.inr (.inr (.inr (.inr (.inr (.inr (.inr ⟨hp, rfl⟩))))))))))
  · rw [phaseStep_halt hp] at h; cases h
  · rw [phaseStep, hp] at h; cases h

/-- The work of a phase leaves the tape of outside events alone. -/
theorem phaseStep_ext {s t : State} (h : phaseStep s = .next t) : t.env.ext = s.env.ext := by
  rcases phaseStep_next h with ⟨-, h⟩ | ⟨-, rfl⟩ | ⟨-, rfl⟩ | ⟨-, k, -, rfl⟩ | ⟨-, -, rfl⟩ | ⟨-, rfl⟩ | ⟨-, -, rfl⟩
    | ⟨-, q, -, k, -, rfl⟩ | ⟨-, q, -, -, rfl⟩ | ⟨-, rfl⟩ | ⟨-, rfl⟩ | ⟨-, rfl⟩
  · rcases execIdleStep_cases s with ⟨w, -, e⟩ | ⟨-, -, e⟩ | ⟨-, -, e⟩ <;> rw [h] at e
    · obtain ⟨u, e', hc⟩ := execCmdWord_cases w s.asked
      rw [← e] at e'
      cases e'
      rcases hc with ⟨-, rfl⟩ | ⟨_, -, -, rfl, -⟩ | ⟨_, _, _, _, _, -, -, rfl, -⟩ | ⟨_, _, _, -, rfl⟩
        | ⟨_, _, -, -, rfl, -⟩ | ⟨_, _, -, -, rfl, -⟩ | ⟨_, -, rfl⟩ | ⟨_, -, rfl⟩ | ⟨_, _, -, rfl⟩ | ⟨-, rfl⟩
        | ⟨-, rfl⟩ <;> rfl
    · cases e; rfl
    · cases e; rfl
  all_goals try simp
  rcases calcStep_cases s.errorOperand s.withError with ⟨-, e⟩ | ⟨-, e⟩ <;> rw [e] <;> rfl

/-- Everything one step can do, where it answers a next state: the reset event, a debug read, or the work of
one phase once it is known that the outside does nothing. -/
theorem step_next {s t : State} (h : step s = .next t) :
    (s.extAnswer = some .reset ∧ t = s.popExt.resetEvent)
    ∨ (∃ sel, s.extAnswer = some (.dbgRead sel) ∧ t = s.popExt.emit (.dbg sel (s.slot sel.toFin).debugBits))
    ∨ (s.extAnswer = none ∧ phaseStep s.popExt = .next t) := by
  match he : s.extAnswer with
  | some .reset => rw [step_of_reset he] at h; cases h; exact .inl ⟨rfl, rfl⟩
  | some (.dbgRead sel) => rw [step_of_dbgRead he] at h; cases h; exact .inr (.inl ⟨sel, rfl, rfl⟩)
  | none => exact .inr (.inr ⟨rfl, (step_of_phase he).symm.trans h⟩)

end Sys2Proof.Machine
end

