-- ==== Sys2Proof/Laws/Float.lean ====
section
/-! SUPPORT. The arithmetic: the fields of a packed f32, which magnitudes are representable, what `pack` and
`roundMag` do on them, and that one rounding goes to the nearest representable magnitude, ties to even
(spec/00_scope.md rule R11, spec/42_velocity_pid.md rule R151). -/

namespace Sys2Proof.F32

/-! ### Fields of a word built from fields -/

theorem toNat_fields (s : Bool) (e : BitVec 8) (f : BitVec 23) :
    (BitVec.ofBool s ++ e ++ f : F32).toNat = s.toNat * 2 ^ 31 + e.toNat * 2 ^ 23 + f.toNat := by
  have he := e.isLt
  have hf := f.isLt
  rw [BitVec.toNat_append, ← Nat.shiftLeft_add_eq_or_of_lt hf, BitVec.toNat_append,
    ← Nat.shiftLeft_add_eq_or_of_lt he, Nat.shiftLeft_eq, Nat.shiftLeft_eq]
  cases s <;> simp
  omega

theorem sign_eq (a : F32) : sign a = decide (2 ^ 31 ≤ a.toNat) := by
  rw [sign, BitVec.msb_eq_decide]

@[simp] theorem sign_fields (s : Bool) (e : BitVec 8) (f : BitVec 23) :
    sign (BitVec.ofBool s ++ e ++ f : F32) = s := by
  have he := e.isLt
  have hf := f.isLt
  rw [sign_eq, toNat_fields]
  cases s <;> simp <;> omega

@[simp] theorem expo_fields (s : Bool) (e : BitVec 8) (f : BitVec 23) :
    expo (BitVec.ofBool s ++ e ++ f : F32) = e.toNat := by
  have he := e.isLt
  have hf := f.isLt
  rw [expo, toNat_fields]
  cases s <;> simp <;> omega

@[simp] theorem frac_fields (s : Bool) (e : BitVec 8) (f : BitVec 23) :
    frac (BitVec.ofBool s ++ e ++ f : F32) = f.toNat := by
  have he := e.isLt
  have hf := f.isLt
  rw [frac, toNat_fields]
  cases s <;> simp <;> omega

theorem lsb_eq (a : F32) : a.getLsbD 0 = decide (frac a % 2 = 1) := by
  rw [BitVec.getLsbD, Nat.testBit_zero, frac]
  congr 1
  simp only [eq_iff_iff]
  omega

theorem expo_lt (a : F32) : expo a < 2 ^ 8 := Nat.mod_lt _ (by decide)
theorem frac_lt (a : F32) : frac a < 2 ^ 23 := Nat.mod_lt _ (by decide)

/-- A word is its three fields. -/
theorem ext_fields {a b : F32} (hs : sign a = sign b) (he : expo a = expo b) (hf : frac a = frac b) :
    a = b := by
  have ha := a.isLt
  have hb := b.isLt
  rw [sign_eq, sign_eq] at hs
  have hs' : (2 ^ 31 ≤ a.toNat) ↔ (2 ^ 31 ≤ b.toNat) := by simpa using hs
  simp only [expo] at he
  simp only [frac] at hf
  apply BitVec.eq_of_toNat_eq
  omega

/-! ### Kinds of words -/

@[simp] theorem isFinite_eq_false {a : F32} : isFinite a = false ↔ expo a = 255 := by
  simp [isFinite]

theorem isFinite_iff {a : F32} : isFinite a = true ↔ expo a ≠ 255 := by
  simp [isFinite]

theorem not_isNan_of_finite {a : F32} (h : isFinite a = true) : isNan a = false := by
  simp [isNan, isFinite_iff.mp h]

theorem not_isInf_of_finite {a : F32} (h : isFinite a = true) : isInf a = false := by
  simp [isInf, isFinite_iff.mp h]

@[simp] theorem isNan_nanOf (op : FpOp) (a b : F32) : isNan (nanOf op a b) = true := by
  simp only [nanOf, isNan, expo_fields, frac_fields]
  split
  · decide
  · rename_i h
    have : ¬ ((Config.freeNan op a b).extractLsb' 0 23).toNat = 0 := fun e =>
      h (BitVec.eq_of_toNat_eq (by simpa using e))
    simpa using this

@[simp] theorem isNan_inf (s : Bool) : isNan (inf s) = false := by cases s <;> decide
@[simp] theorem isInf_inf (s : Bool) : isInf (inf s) = true := by cases s <;> decide
@[simp] theorem sign_inf (s : Bool) : sign (inf s) = s := by cases s <;> decide
@[simp] theorem isFinite_inf (s : Bool) : isFinite (inf s) = false := by cases s <;> decide
@[simp] theorem isZero_inf (s : Bool) : isZero (inf s) = false := by cases s <;> decide
@[simp] theorem isNan_zero (s : Bool) : isNan (zero s) = false := by cases s <;> decide
@[simp] theorem isInf_zero (s : Bool) : isInf (zero s) = false := by cases s <;> decide
@[simp] theorem isZero_zero (s : Bool) : isZero (zero s) = true := by cases s <;> decide
@[simp] theorem isFinite_zero (s : Bool) : isFinite (zero s) = true := by cases s <;> decide
@[simp] theorem sign_zero (s : Bool) : sign (zero s) = s := by cases s <;> decide
@[simp] theorem val_zero (s : Bool) : val (zero s) = 0 := by cases s <;> decide

/-- A zero of either sign is one of two words. -/
theorem isZero_iff {a : F32} : isZero a = true ↔ a = zero (sign a) := by
  constructor
  · intro h
    simp only [isZero, Bool.and_eq_true, beq_iff_eq] at h
    refine ext_fields ?_ ?_ ?_
    · cases sign a <;> decide
    · rw [h.1]; cases sign a <;> decide
    · rw [h.2]; cases sign a <;> decide
  · intro h
    rw [h]
    exact isZero_zero _

theorem mag_eq_zero {a : F32} : mag a = 0 ↔ isZero a = true := by
  simp only [mag, isZero, Bool.and_eq_true, beq_iff_eq]
  have : 0 < 2 ^ 23 + frac a := by omega
  split
  · simp [*]
  · simp [*]

/-- The value's magnitude. -/
@[simp] theorem natAbs_val (a : F32) : (val a).natAbs = mag a := by
  simp only [val]; split <;> simp

theorem val_eq_zero {a : F32} : val a = 0 ↔ isZero a = true := by
  rw [← mag_eq_zero, ← natAbs_val, Int.natAbs_eq_zero]

theorem val_of_sign (a : F32) : val a = if sign a then -(mag a : Int) else (mag a : Int) := rfl

/-- Changing the sign bit changes the sign and nothing else. -/
theorem neg_fields (a : F32) : sign (neg a) = !sign a ∧ expo (neg a) = expo a ∧ frac (neg a) = frac a := by
  have h : neg a = BitVec.ofBool (!sign a) ++ BitVec.ofNat 8 (expo a) ++ BitVec.ofNat 23 (frac a) := by
    have e : a = BitVec.ofBool (sign a) ++ BitVec.ofNat 8 (expo a) ++ BitVec.ofNat 23 (frac a) :=
      ext_fields (by simp) (by simpa using (Nat.mod_eq_of_lt (expo_lt a)).symm)
        (by simpa using (Nat.mod_eq_of_lt (frac_lt a)).symm)
    have x : neg a = (BitVec.ofBool (sign a) ++ BitVec.ofNat 8 (expo a) ++ BitVec.ofNat 23 (frac a))
        ^^^ (BitVec.ofBool true ++ 0#8 ++ 0#23) := by
      rw [← e]; rfl
    rw [x]
    ext i hi
    simp only [BitVec.getElem_xor, BitVec.getElem_append]
    split
    · simp
    · split
      · simp
      · have : i = 31 := by omega
        subst this
        cases sign a <;> simp
  rw [h]
  exact ⟨by simp, by simpa using expo_lt a, by simpa using frac_lt a⟩

@[simp] theorem isNan_neg (a : F32) : isNan (neg a) = isNan a := by simp [isNan, neg_fields a]
@[simp] theorem isInf_neg (a : F32) : isInf (neg a) = isInf a := by simp [isInf, neg_fields a]
@[simp] theorem isFinite_neg (a : F32) : isFinite (neg a) = isFinite a := by simp [isFinite, neg_fields a]
@[simp] theorem sign_neg (a : F32) : sign (neg a) = !sign a := (neg_fields a).1
@[simp] theorem val_neg (a : F32) : val (neg a) = -val a := by
  simp only [val, mag, neg_fields a]; cases sign a <;> simp

/-! ### Representable magnitudes -/

/-- A magnitude an f32 of unbounded exponent has: 24 significant bits at most. -/
def Representable (m : Nat) : Prop := m < 2 ^ 24 ∨ ∃ M k, 2 ^ 23 ≤ M ∧ M < 2 ^ 24 ∧ m = M * 2 ^ k

/-- Every finite f32 has a representable magnitude below 2^277 units. -/
theorem representable_mag {a : F32} (h : isFinite a = true) : Representable (mag a) ∧ mag a < 2 ^ 277 := by
  have he := expo_lt a
  have hf := frac_lt a
  have hn := isFinite_iff.mp h
  simp only [mag]
  split
  · exact ⟨.inl (by omega), lt_of_lt_of_le hf (Nat.pow_le_pow_right (by omega) (by omega))⟩
  · refine ⟨.inr ⟨2 ^ 23 + frac a, expo a - 1, by omega, by omega, rfl⟩, ?_⟩
    calc (2 ^ 23 + frac a) * 2 ^ (expo a - 1)
        < 2 ^ 24 * 2 ^ (expo a - 1) := Nat.mul_lt_mul_of_pos_right (by omega) (Nat.two_pow_pos _)
      _ ≤ 2 ^ 24 * 2 ^ 253 := Nat.mul_le_mul_left _ (Nat.pow_le_pow_right (by omega) (by omega))
      _ = 2 ^ 277 := (Nat.pow_add 2 24 253).symm

/-- The top bit of a normal significand scaled by a power of two. -/
theorem log2_scaled {M k : Nat} (h : 2 ^ 23 ≤ M) (g : M < 2 ^ 24) : Nat.log2 (M * 2 ^ k) = 23 + k := by
  have hpos : M * 2 ^ k ≠ 0 := Nat.mul_ne_zero (by omega) (Nat.two_pow_pos k).ne'
  rw [Nat.log2_eq_iff hpos, Nat.pow_add, Nat.add_right_comm, Nat.pow_add]
  exact ⟨Nat.mul_le_mul_right _ h, Nat.mul_lt_mul_of_pos_right g (Nat.two_pow_pos k)⟩

/-- A subnormal magnitude packs into the fraction. -/
theorem pack_small {s : Bool} {m : Nat} (h : m < 2 ^ 23) :
    pack s m = BitVec.ofBool s ++ 0#8 ++ BitVec.ofNat 23 m := by
  rw [pack, if_pos h]
  apply BitVec.eq_of_toNat_eq
  rw [toNat_fields, BitVec.toNat_append, ← Nat.shiftLeft_add_eq_or_of_lt (BitVec.ofNat 31 m).isLt,
    Nat.shiftLeft_eq]
  cases s <;> simp <;> omega

/-- A normal magnitude packs its significand and exponent. -/
theorem pack_normal {s : Bool} {M k : Nat} (h : 2 ^ 23 ≤ M) (g : M < 2 ^ 24) (hk : k < 254) :
    pack s (M * 2 ^ k) = BitVec.ofBool s ++ BitVec.ofNat 8 (k + 1) ++ BitVec.ofNat 23 M := by
  have hge : ¬ M * 2 ^ k < 2 ^ 23 := Nat.not_lt.mpr (le_trans h (Nat.le_mul_of_pos_right _ (Nat.two_pow_pos k)))
  have h277 : ¬ 277 ≤ 23 + k := by omega
  have hdiv : M * 2 ^ k / 2 ^ (23 + k - 23) = M := by
    rw [Nat.add_sub_cancel_left]; exact Nat.mul_div_cancel _ (Nat.two_pow_pos k)
  rw [pack, if_neg hge]
  simp only [log2_scaled h g, if_neg h277, hdiv, show 23 + k - 22 = k + 1 by omega]

/-- From 2^277 units on a magnitude packs into an infinity. -/
theorem pack_large {s : Bool} {m : Nat} (h : 2 ^ 277 ≤ m) : pack s m = inf s := by
  have hne : m ≠ 0 := (lt_of_lt_of_le (Nat.two_pow_pos 277) h).ne'
  have hlog : 277 ≤ Nat.log2 m := (Nat.le_log2 hne).mpr h
  have hge : ¬ m < 2 ^ 23 := Nat.not_lt.mpr (le_trans (Nat.pow_le_pow_right (by omega) (by omega)) h)
  rw [pack, if_neg hge]
  exact if_pos hlog

/-- A representable magnitude below 2^277 is a normal one below the last exponent, or a subnormal one. -/
theorem representable_cases {m : Nat} (h : Representable m) (hlt : m < 2 ^ 277) :
    m < 2 ^ 23 ∨ ∃ M k, 2 ^ 23 ≤ M ∧ M < 2 ^ 24 ∧ k < 254 ∧ m = M * 2 ^ k := by
  rcases h with h | ⟨M, k, h1, h2, rfl⟩
  · by_cases g : m < 2 ^ 23
    · exact .inl g
    · exact .inr ⟨m, 0, by omega, h, by omega, by simp⟩
  · refine .inr ⟨M, k, h1, h2, ?_, rfl⟩
    by_contra hk
    have h3 : 2 ^ 23 * 2 ^ 254 ≤ M * 2 ^ k :=
      Nat.mul_le_mul h1 (Nat.pow_le_pow_right (by omega) (by omega))
    rw [← Nat.pow_add] at h3
    omega

/-- Packing a representable magnitude below 2^277 loses nothing. -/
theorem pack_representable {s : Bool} {m : Nat} (h : Representable m) (hlt : m < 2 ^ 277) :
    isFinite (pack s m) = true ∧ sign (pack s m) = s ∧ mag (pack s m) = m := by
  rcases representable_cases h hlt with hs | ⟨M, k, h1, h2, hk, rfl⟩
  · rw [pack_small hs]
    refine ⟨by simp [isFinite], by simp, ?_⟩
    simpa [mag] using hs
  · rw [pack_normal h1 h2 hk]
    have hk' : (BitVec.ofNat 8 (k + 1)).toNat = k + 1 := by simp; omega
    have hM : (BitVec.ofNat 23 M).toNat = M - 2 ^ 23 := by simp; omega
    refine ⟨?_, by simp, ?_⟩
    · simp only [isFinite, expo_fields, hk', bne_iff_ne]
      omega
    · simp only [mag, expo_fields, frac_fields, hk', hM]
      rw [if_neg (by omega), Nat.add_sub_cancel, Nat.add_sub_cancel' h1]

theorem val_pack {s : Bool} {m : Nat} (h : Representable m) (hlt : m < 2 ^ 277) :
    val (pack s m) = if s then -(m : Int) else (m : Int) := by
  obtain ⟨_, h2, h3⟩ := pack_representable (s := s) h hlt
  rw [val, h2, h3]

/-- A packed magnitude is never a NaN. -/
theorem isNan_pack {s : Bool} {m : Nat} (h : Representable m) : isNan (pack s m) = false := by
  by_cases hlt : m < 2 ^ 277
  · exact not_isNan_of_finite (pack_representable h hlt).1
  · rw [pack_large (Nat.not_lt.mp hlt), isNan_inf]

/-- A packed representable magnitude is finite exactly below 2^277. -/
theorem isFinite_pack {s : Bool} {m : Nat} (h : Representable m) :
    isFinite (pack s m) = true ↔ m < 2 ^ 277 := by
  constructor
  · intro hf
    by_contra hlt
    rw [pack_large (Nat.not_lt.mp hlt), isFinite_inf] at hf
    exact Bool.false_ne_true hf
  · exact fun hlt => (pack_representable h hlt).1

/-- The last bit of a packed magnitude whose significand is even. -/
theorem lsb_pack_even {s : Bool} {M k : Nat} (hM : M ≤ 2 ^ 24) (he : M % 2 = 0) (hk : k = 0 ∨ 2 ^ 23 ≤ M) :
    (pack s (M * 2 ^ k)).getLsbD 0 = false := by
  have hinf : (inf s).getLsbD 0 = false := by cases s <;> decide
  by_cases hlt : M * 2 ^ k < 2 ^ 277
  swap
  · rw [pack_large (Nat.not_lt.mp hlt), hinf]
  rw [lsb_eq, decide_eq_false_iff_not]
  by_cases hs : M < 2 ^ 23
  · obtain rfl : k = 0 := by omega
    rw [Nat.pow_zero, Nat.mul_one, pack_small hs, frac_fields]
    simp; omega
  · by_cases ht : M < 2 ^ 24
    · have hk' : k < 254 := by
        by_contra hc
        have h3 : 2 ^ 23 * 2 ^ 254 ≤ M * 2 ^ k :=
          Nat.mul_le_mul (by omega) (Nat.pow_le_pow_right (by omega) (by omega))
        rw [← Nat.pow_add] at h3
        omega
      rw [pack_normal (by omega) ht hk', frac_fields]
      simp; omega
    · obtain rfl : M = 2 ^ 24 := by omega
      have e : 2 ^ 24 * 2 ^ k = 2 ^ 23 * 2 ^ (k + 1) := by rw [Nat.pow_succ]; omega
      rw [e] at hlt ⊢
      have hk' : k + 1 < 254 := by
        by_contra hc
        have h3 : 2 ^ 23 * 2 ^ 254 ≤ 2 ^ 23 * 2 ^ (k + 1) :=
          Nat.mul_le_mul_left _ (Nat.pow_le_pow_right (by omega) (by omega))
        rw [← Nat.pow_add] at h3
        omega
      rw [pack_normal (le_refl _) (by omega) hk', frac_fields]
      decide

/-! ### One rounding -/

/-- The exponent `roundMag` rounds at. -/
def roundExp (num den : Nat) : Nat := if num / den < 2 ^ 24 then 0 else Nat.log2 (num / den) - 23

/-- `roundMag` is one of the two neighbours at its exponent, chosen by the remainder. -/
theorem roundMag_eq (num den : Nat) :
    roundMag num den =
      (if den * 2 ^ roundExp num den < 2 * (num % (den * 2 ^ roundExp num den))
          ∨ (den * 2 ^ roundExp num den = 2 * (num % (den * 2 ^ roundExp num den))
              ∧ num / (den * 2 ^ roundExp num den) % 2 = 1)
        then num / (den * 2 ^ roundExp num den) + 1 else num / (den * 2 ^ roundExp num den))
      * 2 ^ roundExp num den := rfl

/-- The truncated significand has 24 bits at most, and exactly 24 where the exponent is not 0. -/
theorem round_significand (num den : Nat) :
    num / (den * 2 ^ roundExp num den) < 2 ^ 24
      ∧ (roundExp num den = 0 ∨ 2 ^ 23 ≤ num / (den * 2 ^ roundExp num den)) := by
  rw [← Nat.div_div_eq_div_mul]
  by_cases h : num / den < 2 ^ 24
  · have hk : roundExp num den = 0 := if_pos h
    rw [hk, Nat.pow_zero, Nat.div_one]
    exact ⟨h, .inl rfl⟩
  · have hk : roundExp num den = Nat.log2 (num / den) - 23 := if_neg h
    have hne : num / den ≠ 0 := by omega
    have hlog : 24 ≤ Nat.log2 (num / den) := (Nat.le_log2 hne).mpr (by omega)
    have hlo : 2 ^ Nat.log2 (num / den) ≤ num / den := Nat.log2_self_le hne
    have hhi : num / den < 2 ^ (Nat.log2 (num / den) + 1) := Nat.lt_log2_self
    rw [hk]
    constructor
    · rw [Nat.div_lt_iff_lt_mul (Nat.two_pow_pos _), ← Nat.pow_add]
      rwa [show 24 + (Nat.log2 (num / den) - 23) = Nat.log2 (num / den) + 1 by omega]
    · right
      rw [Nat.le_div_iff_mul_le (Nat.two_pow_pos _), ← Nat.pow_add]
      rwa [show 23 + (Nat.log2 (num / den) - 23) = Nat.log2 (num / den) by omega]

/-- No representable magnitude lies strictly between two neighbours of 24 bits. -/
theorem no_representable_between {M k c : Nat} (hk : k = 0 ∨ 2 ^ 23 ≤ M) (hc : Representable c)
    (h1 : M * 2 ^ k < c) (h2 : c < (M + 1) * 2 ^ k) : False := by
  rcases hk with rfl | hM
  · simp only [Nat.pow_zero, Nat.mul_one] at h1 h2
    omega
  have hge : 2 ^ (23 + k) < c := by
    rw [Nat.pow_add]
    exact lt_of_le_of_lt (Nat.mul_le_mul_right _ hM) h1
  by_cases hk0 : k = 0
  · subst hk0
    simp only [Nat.pow_zero, Nat.mul_one] at h1 h2
    omega
  rcases hc with hc | ⟨N, j, hN1, hN2, rfl⟩
  · have : 2 ^ 24 ≤ 2 ^ (23 + k) := Nat.pow_le_pow_right (by omega) (by omega)
    omega
  · have hjk : k ≤ j := by
      by_contra hlt
      have : N * 2 ^ j < 2 ^ 24 * 2 ^ (k - 1) :=
        lt_of_lt_of_le (Nat.mul_lt_mul_of_pos_right hN2 (Nat.two_pow_pos j))
          (Nat.mul_le_mul_left _ (Nat.pow_le_pow_right (by omega) (by omega)))
      rw [← Nat.pow_add, show 24 + (k - 1) = 23 + k by omega] at this
      omega
    have e : N * 2 ^ j = N * 2 ^ (j - k) * 2 ^ k := by
      rw [Nat.mul_assoc, ← Nat.pow_add, Nat.sub_add_cancel hjk]
    rw [e] at h1 h2
    have a := Nat.lt_of_mul_lt_mul_right h1
    have b := Nat.lt_of_mul_lt_mul_right h2
    omega

/-- Rounding up goes to the nearer neighbour when the remainder is at least half. -/
theorem nearest_up {num p d r x : Nat} (hdm : p + r = num) (hr : r < d) (hup : d ≤ 2 * r)
    (hx : x ≤ p ∨ p + d ≤ x) :
    |(num : Int) - (p + d : Nat)| ≤ |(num : Int) - x|
      ∧ (|(num : Int) - (p + d : Nat)| = |(num : Int) - x| → x ≠ p + d → d = 2 * r) := by
  rw [Int.abs_eq_natAbs, Int.abs_eq_natAbs]
  omega

/-- Rounding down goes to the nearer neighbour when the remainder is at most half. -/
theorem nearest_down {num p d r x : Nat} (hdm : p + r = num) (hdown : 2 * r ≤ d)
    (hx : x ≤ p ∨ p + d ≤ x) :
    |(num : Int) - (p : Nat)| ≤ |(num : Int) - x|
      ∧ (|(num : Int) - (p : Nat)| = |(num : Int) - x| → x ≠ p → d = 2 * r) := by
  rw [Int.abs_eq_natAbs, Int.abs_eq_natAbs]
  omega

/-- What `roundMag` answers: `M * 2^k` with `M` of 24 bits or 2^24, a nearest representable magnitude, and
of two equally near ones the one with an even significand. -/
theorem roundMag_spec (num : Nat) {den : Nat} (hden : 0 < den) :
    ∃ M k, roundMag num den = M * 2 ^ k ∧ M ≤ 2 ^ 24 ∧ (k = 0 ∨ 2 ^ 23 ≤ M)
      ∧ ∀ c, Representable c →
          |(num : Int) - (M * 2 ^ k * den : Nat)| ≤ |(num : Int) - (c * den : Nat)|
          ∧ (|(num : Int) - (M * 2 ^ k * den : Nat)| = |(num : Int) - (c * den : Nat)| →
              c ≠ M * 2 ^ k → M % 2 = 0) := by
  obtain ⟨hm, hk⟩ := round_significand num den
  have heq := roundMag_eq num den
  generalize roundExp num den = k at hm hk heq
  have hd : 0 < den * 2 ^ k := Nat.mul_pos hden (Nat.two_pow_pos k)
  have hdm := Nat.div_add_mod num (den * 2 ^ k)
  have hr := Nat.mod_lt num hd
  generalize num / (den * 2 ^ k) = m at hm hk heq hdm
  generalize num % (den * 2 ^ k) = r at heq hdm hr
  have hdm' : m * 2 ^ k * den + r = num := by rw [← hdm]; ring
  have hsucc : (m + 1) * 2 ^ k * den = m * 2 ^ k * den + den * 2 ^ k := by ring
  have side : ∀ c, Representable c →
      c * den ≤ m * 2 ^ k * den ∨ m * 2 ^ k * den + den * 2 ^ k ≤ c * den := by
    intro c hc
    rw [← hsucc]
    by_cases h : c ≤ m * 2 ^ k
    · exact .inl (Nat.mul_le_mul_right _ h)
    · by_cases g : (m + 1) * 2 ^ k ≤ c
      · exact .inr (Nat.mul_le_mul_right _ g)
      · exact (no_representable_between hk hc (Nat.not_le.mp h) (Nat.not_le.mp g)).elim
  by_cases hup : den * 2 ^ k < 2 * r ∨ (den * 2 ^ k = 2 * r ∧ m % 2 = 1)
  · rw [if_pos hup] at heq
    refine ⟨m + 1, k, heq, by omega, by omega, fun c hc => ?_⟩
    obtain ⟨h1, h2⟩ := nearest_up hdm' hr (by omega) (side c hc)
    rw [hsucc]
    refine ⟨h1, fun he hne => ?_⟩
    have := h2 he fun e => hne (Nat.eq_of_mul_eq_mul_right hden (e.trans hsucc.symm))
    omega
  · rw [if_neg hup] at heq
    refine ⟨m, k, heq, by omega, hk, fun c hc => ?_⟩
    obtain ⟨h1, h2⟩ := nearest_down hdm' (by omega) (side c hc)
    refine ⟨h1, fun he hne => ?_⟩
    have := h2 he fun e => hne (Nat.eq_of_mul_eq_mul_right hden e)
    omega

/-- What `roundMag` answers is representable. -/
theorem representable_roundMag (num : Nat) {den : Nat} (hden : 0 < den) : Representable (roundMag num den) := by
  obtain ⟨M, k, h, hM, hk, -⟩ := roundMag_spec num hden
  rw [h]
  rcases hk with rfl | hk
  · by_cases g : M < 2 ^ 24
    · exact .inl (by omega)
    · exact .inr ⟨2 ^ 23, 1, by omega, by omega, by omega⟩
  · by_cases g : M < 2 ^ 24
    · exact .inr ⟨M, k, hk, g, rfl⟩
    · refine .inr ⟨2 ^ 23, k + 1, by omega, by omega, ?_⟩
      rw [show M = 2 ^ 24 by omega, Nat.pow_succ]
      omega

/-- A representable magnitude is not changed by rounding. -/
theorem roundMag_exact {m den : Nat} (h : Representable m) (hden : 0 < den) : roundMag (m * den) den = m := by
  obtain ⟨M, k, hr, -, -, hn⟩ := roundMag_spec (m * den) hden
  have h1 := (hn m h).1
  rw [sub_self, abs_zero] at h1
  have h2 := abs_eq_zero.mp (le_antisymm h1 (abs_nonneg _))
  rw [hr]
  exact (Nat.eq_of_mul_eq_mul_right hden (by omega)).symm

@[simp] theorem roundMag_zero {den : Nat} (hden : 0 < den) : roundMag 0 den = 0 := by
  simpa using roundMag_exact (m := 0) (.inl (by omega)) hden

/-- The largest finite magnitude. -/
theorem representable_below {m : Nat} (h : Representable m) (hlt : m < 2 ^ 277) :
    m ≤ (2 ^ 24 - 1) * 2 ^ 253 := by
  rcases representable_cases h hlt with hs | ⟨M, k, -, h2, hk, rfl⟩
  · have : 1 ≤ 2 ^ 253 := Nat.two_pow_pos _
    calc m ≤ 2 ^ 24 - 1 := by omega
      _ ≤ (2 ^ 24 - 1) * 2 ^ 253 := Nat.le_mul_of_pos_right _ (Nat.two_pow_pos _)
  · exact Nat.mul_le_mul (by omega) (Nat.pow_le_pow_right (by omega) (by omega))

/-- A significand with its exponent is determined by the product. -/
theorem significand_unique {M k j : Nat} (h1 : 2 ^ 23 ≤ M) (h2 : M ≤ 2 ^ 24)
    (h : M * 2 ^ k = (2 ^ 24 - 1) * 2 ^ j) : M = 2 ^ 24 - 1 := by
  have hj : Nat.log2 ((2 ^ 24 - 1) * 2 ^ j) = 23 + j := log2_scaled (by omega) (by omega)
  by_cases g : M < 2 ^ 24
  · have hk := log2_scaled (k := k) h1 g
    rw [h, hj] at hk
    obtain rfl : j = k := by omega
    exact Nat.eq_of_mul_eq_mul_right (Nat.two_pow_pos j) h
  · obtain rfl : M = 2 ^ 24 := by omega
    have e : 2 ^ 24 * 2 ^ k = 2 ^ 23 * 2 ^ (k + 1) := by rw [Nat.pow_succ]; omega
    have hk := log2_scaled (M := 2 ^ 23) (k := k + 1) (le_refl _) (by omega)
    rw [← e, h, hj] at hk
    obtain rfl : j = k + 1 := by omega
    rw [e] at h
    have := Nat.eq_of_mul_eq_mul_right (Nat.two_pow_pos (k + 1)) h
    omega

/-- Rounding overflows exactly from half a unit above the largest finite magnitude on. -/
theorem roundMag_overflow (num : Nat) {den : Nat} (hden : 0 < den) :
    2 ^ 277 ≤ roundMag num den ↔ (2 ^ 277 - 2 ^ 252) * den ≤ num := by
  obtain ⟨M, k, hr, hM, hk, hn⟩ := roundMag_spec num hden
  have below := representable_below (representable_roundMag num hden)
  have top := hn ((2 ^ 24 - 1) * 2 ^ 253) (.inr ⟨2 ^ 24 - 1, 253, by omega, by omega, rfl⟩)
  have above := hn (2 ^ 277) (.inr ⟨2 ^ 23, 254, by omega, by omega, Nat.pow_add 2 23 254⟩)
  have uniq : M * 2 ^ k = (2 ^ 24 - 1) * 2 ^ 253 → M % 2 = 0 → False := by
    intro e hev
    have hM23 : 2 ^ 23 ≤ M := by
      rcases hk with rfl | hk
      · have : 2 ^ 24 < (2 ^ 24 - 1) * 2 ^ 253 := by
          calc 2 ^ 24 < (2 ^ 24 - 1) * 2 := by omega
            _ ≤ (2 ^ 24 - 1) * 2 ^ 253 := Nat.mul_le_mul_left _ (Nat.le_self_pow (by omega) 2)
        omega
      · exact hk
    have := significand_unique hM23 hM e
    omega
  rw [hr] at below ⊢
  have e253 : (2 : Nat) ^ 253 = 2 * 2 ^ 252 := by rw [← Nat.pow_succ']
  have e277 : (2 : Nat) ^ 277 = 2 ^ 25 * 2 ^ 252 := by rw [← Nat.pow_add]
  simp only [Int.abs_eq_natAbs] at top above
  rw [e253] at below top uniq
  rw [e277] at below above ⊢
  generalize (2 : Nat) ^ 252 = P at below top above uniq ⊢
  generalize M * 2 ^ k = R at below top above uniq ⊢
  -- every magnitude in play is a multiple of `P * den`, the result's apart
  have scale : ∀ n : Nat, n * P * den = n * (P * den) := fun n => Nat.mul_assoc n P den
  have eT : (2 ^ 24 - 1) * (2 * P) * den = (2 ^ 25 - 2) * (P * den) := by
    rw [← scale]; congr 1; omega
  have e1 : (2 ^ 25 * P - P) * den = (2 ^ 25 - 1) * (P * den) := by
    rw [← scale]; congr 1; omega
  have big : 2 ^ 25 * P ≤ R → 2 ^ 25 * (P * den) ≤ R * den := fun h => scale _ ▸ Nat.mul_le_mul_right _ h
  have small : R ≤ (2 ^ 24 - 1) * (2 * P) → R * den ≤ (2 ^ 25 - 2) * (P * den) := fun h =>
    eT ▸ Nat.mul_le_mul_right _ h
  have same : R * den = (2 ^ 25 - 2) * (P * den) → R = (2 ^ 24 - 1) * (2 * P) := fun h =>
    Nat.eq_of_mul_eq_mul_right hden (h.trans eT.symm)
  rw [eT] at top
  rw [scale] at above
  rw [e1]
  generalize P * den = D at top above big small same ⊢
  generalize R * den = S at top above big small same ⊢
  constructor
  · intro h
    have := big h
    by_contra hx
    omega
  · intro h
    by_contra hx
    have hb := small (below (by omega))
    have h1 := above.1
    exact uniq (same (by omega)) (above.2 (by omega) (by omega))

/-- A rounded and packed magnitude is the infinity of its sign from there on, and finite below. -/
theorem pack_roundMag_overflow (s : Bool) (num : Nat) {den : Nat} (hden : 0 < den) :
    ((2 ^ 277 - 2 ^ 252) * den ≤ num → pack s (roundMag num den) = inf s)
      ∧ (num < (2 ^ 277 - 2 ^ 252) * den → isFinite (pack s (roundMag num den)) = true) := by
  refine ⟨fun h => pack_large ((roundMag_overflow num hden).mpr h), fun h => ?_⟩
  refine (isFinite_pack (representable_roundMag num hden)).mpr (Nat.lt_of_not_le fun g => ?_)
  exact Nat.not_lt.mpr ((roundMag_overflow num hden).mp g) h

/-! ### One rounding with a sign -/

/-- Distances with a sign: `q` has the magnitude `b` and a sign that `x` does not contradict. -/
theorem signed_distance {x p q : Int} {a b : Nat} (hp : p.natAbs = a)
    (hq : (x ≤ 0 ∧ q = -(b : Int)) ∨ (0 ≤ x ∧ q = b))
    (h : ((x.natAbs : Int) - b).natAbs ≤ ((x.natAbs : Int) - a).natAbs) :
    (x - q).natAbs ≤ (x - p).natAbs
      ∧ ((x - q).natAbs = (x - p).natAbs → p ≠ q →
          ((x.natAbs : Int) - b).natAbs = ((x.natAbs : Int) - a).natAbs ∧ (a ≠ b ∨ x = 0 ∨ b = 0)) := by
  omega

/-- The rounded and packed result of an exact value `x / den` is a nearest f32 to it, and of two equally near
ones the one with an even last bit (rule R151). -/
theorem nearest_signed {x : Int} {den : Nat} {s : Bool} {c : F32} (hden : 0 < den)
    (hneg : x < 0 → s = true) (hpos : 0 < x → s = false)
    (hfin : isFinite (pack s (roundMag x.natAbs den)) = true) (hc : isFinite c = true) :
    |x - val (pack s (roundMag x.natAbs den)) * den| ≤ |x - val c * den|
      ∧ (|x - val (pack s (roundMag x.natAbs den)) * den| = |x - val c * den| →
          val c ≠ val (pack s (roundMag x.natAbs den)) →
          (pack s (roundMag x.natAbs den)).getLsbD 0 = false) := by
  have hrep := representable_roundMag x.natAbs hden
  have hval := val_pack (s := s) hrep ((isFinite_pack hrep).mp hfin)
  obtain ⟨M, k, hr, hM, hk, hn⟩ := roundMag_spec x.natAbs hden
  have hlsb : M % 2 = 0 → (pack s (roundMag x.natAbs den)).getLsbD 0 = false := fun he => by
    rw [hr]; exact lsb_pack_even hM he hk
  have hzero : roundMag x.natAbs den = 0 → M % 2 = 0 := fun h => by
    rcases Nat.mul_eq_zero.mp (hr.symm.trans h) with h | h
    · omega
    · exact absurd h (Nat.two_pow_pos k).ne'
  obtain ⟨h1, h2⟩ := hn (mag c) (representable_mag hc).1
  rw [← hr] at h1 h2
  simp only [Int.abs_eq_natAbs, Int.ofNat_le] at h1 h2 ⊢
  have hp : (val c * (den : Int)).natAbs = mag c * den := by rw [Int.natAbs_mul, natAbs_val]; simp
  have hq : (x ≤ 0 ∧ val (pack s (roundMag x.natAbs den)) * den = -((roundMag x.natAbs den * den : Nat) : Int))
      ∨ (0 ≤ x ∧ val (pack s (roundMag x.natAbs den)) * den = ((roundMag x.natAbs den * den : Nat) : Int)) := by
    rw [hval]
    cases s
    · exact .inr ⟨by by_contra h; exact Bool.false_ne_true (hneg (by omega)), by simp⟩
    · exact .inl ⟨by by_contra h; exact Bool.false_ne_true (hpos (by omega)).symm, by simp⟩
  obtain ⟨g1, g2⟩ := signed_distance hp hq h1
  refine ⟨g1, fun he hne => hlsb ?_⟩
  have hden' : (den : Int) ≠ 0 := by omega
  obtain ⟨e, d⟩ := g2 (by omega) fun h => hne (mul_right_cancel₀ hden' h)
  rcases d with d | rfl | d
  · exact h2 (by omega) fun h => d (by rw [h])
  · exact hzero (roundMag_zero hden)
  · rcases Nat.mul_eq_zero.mp d with d | d
    · exact hzero d
    · omega

/-! ### The operations on finite operands -/

theorem addWith_finite {a b : F32} (nan : F32) (ha : isFinite a = true) (hb : isFinite b = true) :
    addWith nan a b
      = if val a + val b = 0 then zero (sign a && sign b)
        else pack (decide (val a + val b < 0)) (roundMag (val a + val b).natAbs 1) := by
  simp [addWith, not_isNan_of_finite ha, not_isNan_of_finite hb, not_isInf_of_finite ha, not_isInf_of_finite hb]

theorem mul_finite {a b : F32} (ha : isFinite a = true) (hb : isFinite b = true) :
    mul a b = pack (sign a != sign b) (roundMag (mag a * mag b) (2 ^ 149)) := by
  simp [mul, not_isNan_of_finite ha, not_isNan_of_finite hb, not_isInf_of_finite ha, not_isInf_of_finite hb]

theorem div_finite {a b : F32} (ha : isFinite a = true) (hb : isFinite b = true) (hz : isZero b = false) :
    div a b = pack (sign a != sign b) (roundMag (mag a * 2 ^ 149) (mag b)) := by
  simp [div, not_isNan_of_finite ha, not_isNan_of_finite hb, not_isInf_of_finite ha, not_isInf_of_finite hb, hz]

/-- A word that is no NaN and not finite is an infinity. -/
theorem eq_inf {a : F32} (hn : isNan a = false) (hf : isFinite a = false) : a = inf (sign a) := by
  have he : expo a = 255 := isFinite_eq_false.mp hf
  have hfr : frac a = 0 := by simpa [isNan, he] using hn
  exact ext_fields (by simp) (by rw [he]; cases sign a <;> decide) (by rw [hfr]; cases sign a <;> decide)

/-! ### Integers and scaling -/

/-- A power of two times a representable magnitude is representable. -/
theorem representable_scale {m : Nat} (h : Representable m) (j : Nat) : Representable (m * 2 ^ j) := by
  rcases h with h | ⟨M, k, h1, h2, rfl⟩
  · rcases Nat.eq_zero_or_pos m with rfl | hm
    · exact .inl (by omega)
    · have hlo := Nat.log2_self_le hm.ne'
      have hhi := Nat.lt_log2_self (n := m)
      have hL : Nat.log2 m < 24 := (Nat.log2_lt hm.ne').mpr h
      generalize Nat.log2 m = L at hlo hhi hL
      by_cases hj : 23 - L ≤ j
      · refine .inr ⟨m * 2 ^ (23 - L), j - (23 - L), ?_, ?_, ?_⟩
        · calc 2 ^ 23 = 2 ^ L * 2 ^ (23 - L) := by rw [← Nat.pow_add, Nat.add_sub_cancel' (by omega)]
            _ ≤ m * 2 ^ (23 - L) := Nat.mul_le_mul_right _ hlo
        · calc m * 2 ^ (23 - L) < 2 ^ (L + 1) * 2 ^ (23 - L) :=
                Nat.mul_lt_mul_of_pos_right hhi (Nat.two_pow_pos _)
            _ = 2 ^ 24 := by rw [← Nat.pow_add]; congr 1; omega
        · rw [Nat.mul_assoc, ← Nat.pow_add, Nat.add_sub_cancel' hj]
      · left
        calc m * 2 ^ j < 2 ^ (L + 1) * 2 ^ j := Nat.mul_lt_mul_of_pos_right hhi (Nat.two_pow_pos _)
          _ = 2 ^ (L + 1 + j) := (Nat.pow_add ..).symm
          _ ≤ 2 ^ 24 := Nat.pow_le_pow_right (by omega) (by omega)
  · exact .inr ⟨M, k + j, h1, h2, by rw [Nat.mul_assoc, ← Nat.pow_add]⟩

/-- The magnitude `fround_haz` packs is representable, and finite where the operand's is. -/
theorem representable_roundHaz {m : Nat} (h : Representable m) (hlt : m < 2 ^ 277) :
    Representable ((2 * m + 2 ^ 149) / 2 ^ 150 * 2 ^ 149)
      ∧ (2 * m + 2 ^ 149) / 2 ^ 150 * 2 ^ 149 < 2 ^ 277 := by
  have e150 : (2 : Nat) ^ 150 = 2 * 2 ^ 149 := by rw [← Nat.pow_succ']
  by_cases hm : m < 2 ^ 23 * 2 ^ 149
  · have hN : (2 * m + 2 ^ 149) / 2 ^ 150 < 2 ^ 24 := by
      rw [Nat.div_lt_iff_lt_mul (Nat.two_pow_pos _), e150]
      generalize (2 : Nat) ^ 149 = P at hm ⊢
      omega
    refine ⟨representable_scale (.inl hN) 149, ?_⟩
    calc (2 * m + 2 ^ 149) / 2 ^ 150 * 2 ^ 149
        < 2 ^ 24 * 2 ^ 149 := Nat.mul_lt_mul_of_pos_right hN (Nat.two_pow_pos _)
      _ = 2 ^ 173 := (Nat.pow_add ..).symm
      _ ≤ 2 ^ 277 := Nat.pow_le_pow_right (by omega) (by omega)
  · have hint : ∃ n, m = n * 2 ^ 149 := by
      rcases representable_cases h hlt with hs | ⟨M, k, h1, h2, -, rfl⟩
      · have : (2 : Nat) ^ 23 ≤ 2 ^ 23 * 2 ^ 149 := Nat.le_mul_of_pos_right _ (Nat.two_pow_pos _)
        omega
      · have hk : 149 ≤ k := by
          by_contra hc
          refine hm (lt_of_lt_of_le (Nat.mul_lt_mul_of_pos_right h2 (Nat.two_pow_pos k)) ?_)
          rw [← Nat.pow_add, ← Nat.pow_add]
          exact Nat.pow_le_pow_right (by omega) (by omega)
        exact ⟨M * 2 ^ (k - 149), by rw [Nat.mul_assoc, ← Nat.pow_add, Nat.sub_add_cancel hk]⟩
    obtain ⟨n, rfl⟩ := hint
    have hN : (2 * (n * 2 ^ 149) + 2 ^ 149) / 2 ^ 150 = n := by
      rw [e150]
      have hP : 0 < (2 : Nat) ^ 149 := Nat.two_pow_pos _
      generalize (2 : Nat) ^ 149 = P at hP ⊢
      rw [show 2 * (n * P) + P = P + 2 * P * n by ring, Nat.add_mul_div_left _ _ (by omega),
        Nat.div_eq_of_lt (by omega), Nat.zero_add]
    rw [hN]
    exact ⟨h, hlt⟩

/-- The integer of an f32 between two integers lies between them. -/
theorem toInt_between {a : F32} {lo hi : Int} (h1 : lo * 2 ^ 149 ≤ val a) (h2 : val a ≤ hi * 2 ^ 149) :
    lo ≤ toInt a ∧ toInt a ≤ hi := by
  have hP : (0 : Int) < 2 ^ 149 := by positivity
  rw [toInt]
  generalize (2 : Int) ^ 149 = P at h1 h2 hP ⊢
  refine ⟨(Int.le_ediv_iff_mul_le hP).mpr h1, ?_⟩
  exact (Int.ediv_le_iff_le_mul hP).mpr (by omega)

end Sys2Proof.F32

namespace Sys2Proof.Machine

/-! ### The machine's arithmetic record -/

/-- The parameters that name the default record give it. -/
theorem arith_binary32 {p : Params} (h : p.fp = .binary32) : p.arith = FP.binary32 := by
  rw [Params.arith, h]

theorem binary32_fadd : FP.binary32.fadd = F32.add := rfl
theorem binary32_fsub : FP.binary32.fsub = F32.sub := rfl
theorem binary32_fmul : FP.binary32.fmul = F32.mul := rfl
theorem binary32_fdiv : FP.binary32.fdiv = F32.div := rfl
theorem binary32_flt : FP.binary32.flt = F32.lt := rfl
theorem binary32_fle : FP.binary32.fle = F32.le := rfl
theorem binary32_isNan : FP.binary32.isNan = F32.isNan := rfl
theorem binary32_i16ToF32 : FP.binary32.i16ToF32 = F32.ofI16 := rfl
theorem binary32_froundHaz : FP.binary32.froundHaz = F32.roundHaz := rfl
theorem binary32_f32ToInt : FP.binary32.f32ToInt = F32.toInt := rfl

/-! ### Comparison and clamping (rule R12) -/

/-- A clamped value is the operand, unless a bound replaces it. -/
theorem clamp_cases (x lo hi : F32) :
    (F32.lt x lo = true ∧ clamp FP.binary32 x lo hi = lo)
      ∨ (F32.lt x lo = false ∧ F32.lt hi x = true ∧ clamp FP.binary32 x lo hi = hi)
      ∨ (F32.lt x lo = false ∧ F32.lt hi x = false ∧ clamp FP.binary32 x lo hi = x) := by
  have e : clamp FP.binary32 x lo hi = if F32.lt x lo = true then lo else if F32.lt hi x = true then hi else x := rfl
  cases h1 : F32.lt x lo <;> cases h2 : F32.lt hi x <;> simp [e, h1, h2]

/-- With ordered bounds a clamped value is a NaN or lies between them (rule R168). -/
theorem clamp_within {x lo hi : F32} (h : F32.le lo hi = true) :
    F32.isNan (clamp FP.binary32 x lo hi) = true
      ∨ (F32.le lo (clamp FP.binary32 x lo hi) = true ∧ F32.le (clamp FP.binary32 x lo hi) hi = true) := by
  simp only [F32.le, Bool.and_eq_true, Bool.not_eq_true', decide_eq_true_eq] at h ⊢
  rcases clamp_cases x lo hi with ⟨-, e⟩ | ⟨-, -, e⟩ | ⟨h1, h2, e⟩ <;> rw [e]
  · exact .inr ⟨⟨⟨h.1.1, h.1.1⟩, le_refl _⟩, h⟩
  · exact .inr ⟨h, ⟨⟨h.1.2, h.1.2⟩, le_refl _⟩⟩
  · cases hx : F32.isNan x with
    | true => exact .inl rfl
    | false =>
      simp only [F32.lt, hx, h.1.1, h.1.2, Bool.not_false, Bool.true_and, decide_eq_false_iff_not, not_lt] at h1 h2
      exact .inr ⟨⟨⟨h.1.1, rfl⟩, h1⟩, ⟨⟨rfl, h.1.2⟩, h2⟩⟩

/-! ### The quantiser (rule R206) -/

/-- Rounding to an integer makes no NaN. -/
theorem isNan_roundHaz {a : F32} (h : F32.isNan a = false) : F32.isNan (F32.roundHaz a) = false := by
  cases hf : F32.isFinite a with
  | false => rwa [F32.roundHaz, if_pos (F32.isFinite_eq_false.mp hf)]
  | true =>
    obtain ⟨h1, h2⟩ := F32.representable_mag hf
    rw [F32.roundHaz, if_neg (F32.isFinite_iff.mp hf)]
    exact F32.isNan_pack (F32.representable_roundHaz h1 h2).1

/-- Scaling by 16384.0 makes no NaN. -/
theorem isNan_mul_cmdMax {a : F32} (h : F32.isNan a = false) : F32.isNan (F32.mul a F32.cmdMax) = false := by
  cases hf : F32.isFinite a with
  | false => rw [F32.eq_inf h hf]; cases F32.sign a <;> decide
  | true =>
    rw [F32.mul_finite hf (by decide)]
    exact F32.isNan_pack (F32.representable_roundMag _ (Nat.two_pow_pos _))

/-- The quantiser stops on a NaN only, under every arithmetic record. -/
theorem quantize_none {fp : FP} {out : F32} : quantize fp out = none ↔ fp.isNan out = true := by
  cases h : fp.isNan out <;> simp [quantize, h]

/-- A command the quantiser gives lies in [-16384, 16384] (rule R25). -/
theorem quantize_range {out : F32} {q : I16} (h : quantize FP.binary32 out = some q) : cmdInRange q = true := by
  cases hn : F32.isNan out with
  | true => rw [quantize_none.mpr hn] at h; cases h
  | false =>
    have e : FP.binary32.isNan out = false := hn
    simp only [quantize, e, Bool.false_eq_true, if_false, Option.some.injEq] at h
    have hr : F32.isNan (F32.roundHaz (F32.mul out F32.cmdMax)) = false := isNan_roundHaz (isNan_mul_cmdMax hn)
    have hb : F32.le F32.cmdMin F32.cmdMax = true := by decide
    have hlo : F32.val F32.cmdMin = -16384 * 2 ^ 149 := by decide
    have hhi : F32.val F32.cmdMax = 16384 * 2 ^ 149 := by decide
    have hc : -16384 * 2 ^ 149 ≤ F32.val (clamp FP.binary32 (F32.roundHaz (F32.mul out F32.cmdMax)) F32.cmdMin F32.cmdMax)
        ∧ F32.val (clamp FP.binary32 (F32.roundHaz (F32.mul out F32.cmdMax)) F32.cmdMin F32.cmdMax)
            ≤ 16384 * 2 ^ 149 := by
      rcases clamp_within (x := F32.roundHaz (F32.mul out F32.cmdMax)) hb with g | ⟨g1, g2⟩
      · exfalso
        rcases clamp_cases (F32.roundHaz (F32.mul out F32.cmdMax)) F32.cmdMin F32.cmdMax
          with ⟨-, x⟩ | ⟨-, -, x⟩ | ⟨-, -, x⟩ <;> rw [x] at g
        · exact absurd g (by decide)
        · exact absurd g (by decide)
        · rw [hr] at g; cases g
      · simp only [F32.le, Bool.and_eq_true, decide_eq_true_eq] at g1 g2
        exact ⟨hlo ▸ g1.2, hhi ▸ g2.2⟩
    obtain ⟨h1, h2⟩ := F32.toInt_between hc.1 hc.2
    rw [← h]
    have hz : ∀ z : Int, -16384 ≤ z → z ≤ 16384 → (BitVec.ofInt 16 z).toInt = z := fun z a b => by
      rw [BitVec.toInt_ofInt, Int.bmod_eq_of_le] <;> omega
    have := hz _ h1 h2
    simp only [cmdInRange, Bool.and_eq_true, decide_eq_true_eq]
    rw [show FP.binary32.f32ToInt = F32.toInt from rfl, show FP.binary32.froundHaz = F32.roundHaz from rfl,
      show FP.binary32.fmul = F32.mul from rfl, this]
    exact ⟨h1, h2⟩

end Sys2Proof.Machine
end

