-- ==== Sys2Proof/Laws/PerInstr.lean ====
section
/-! SUPPORT. For every operation: its encoding matches its row of spec/opcode_table.json
(spec/30_encoding.md rule R93). -/

namespace Sys2Proof

/-- The frame mask keeps the 42 header bits. -/
theorem header_of_mask (b : FrameBits) :
    b.toNat &&& 0x3FFFFFFFFFF0000000000000000 = (b.extractLsb' 64 42).toNat * 2 ^ 64 := by
  have hm : (0x3FFFFFFFFFF0000000000000000 : Nat) = (2 ^ 42 - 1) <<< 64 := by decide
  have hb : b.toNat / 2 ^ 64 < 2 ^ 42 := by have := b.isLt; omega
  rw [hm, BitVec.extractLsb'_toNat, Nat.shiftRight_eq_div_pow, Nat.mod_eq_of_lt hb, ← Nat.shiftLeft_eq]
  apply Nat.eq_of_testBit_eq
  intro i
  simp only [Nat.testBit_and, Nat.testBit_shiftLeft, Nat.testBit_two_pow_sub_one, Nat.testBit_div_two_pow]
  by_cases h : 64 ≤ i
  · by_cases g : i - 64 < 42
    · simp [h, g]
    · have : b.toNat.testBit i = false :=
        Nat.testBit_lt_two_pow (lt_of_lt_of_le b.isLt (Nat.pow_le_pow_right (by omega) (by omega)))
      simp [h, g, this]
  · simp [h]

/-- The command mask keeps the opcode. -/
theorem opcode_of_mask (w : CmdWord) : w.toNat &&& 0xF = (cmdOp w).toNat := by
  have hm : (0xF : Nat) = 2 ^ 4 - 1 := by decide
  rw [hm, Nat.and_two_pow_sub_one_eq_mod, cmdOp, BitVec.extractLsb'_toNat, Nat.shiftRight_zero]

/-- The masked value of a telemetry frame is its header, whatever its fields. -/
theorem encodeTelem_row (id : BitVec 32) (a : U16) (r c : I16) (t : Byte) :
    (encodeTelem id a r c t).value &&& (encodeTelem id a r c t).mask = (dataHeader id).toNat * 2 ^ 64 := by
  simp only [encodeTelem, Encoded.value, Encoded.mask]
  exact (header_of_mask _).trans (congrArg (fun h => BitVec.toNat h * 2 ^ 64) (frame_header _ _))

/-- The masked value of a command frame is its header, whatever its commands. -/
theorem encodeCmdFrame_row (id : BitVec 32) (c0 c1 c2 c3 : I16) :
    (encodeCmdFrame id c0 c1 c2 c3).value &&& (encodeCmdFrame id c0 c1 c2 c3).mask
      = (dataHeader id).toNat * 2 ^ 64 := by
  simp only [encodeCmdFrame, Encoded.value, Encoded.mask]
  exact (header_of_mask _).trans (congrArg (fun h => BitVec.toNat h * 2 ^ 64) (frame_header _ _))

/-- The masked value of a command word is its opcode, whatever its operands. -/
theorem encodeCmd_row (op : BitVec 4) (a0 a1 a2 a3 a4 : BitVec 32) :
    (encodeCmd op a0 a1 a2 a3 a4).value &&& (encodeCmd op a0 a1 a2 a3 a4).mask = op.toNat := by
  simp only [encodeCmd, Encoded.value, Encoded.mask]
  exact (opcode_of_mask _).trans (congrArg BitVec.toNat (word_op a4 a3 a2 a1 a0 op))

end Sys2Proof

namespace Sys2Proof.Laws.TableRow

/-- The operation's encoding, under its format's mask, is its row's match value. -/
def Statement (i : Instr) : Prop := (encode i).value &&& (encode i).mask = i.rowMatch

theorem telem200 (a : U16) (r c : I16) (t : Byte) : Statement (.telem200 a r c t) :=
  (encodeTelem_row _ a r c t).trans (show _ = 0x000000803080000000000000000 by decide)
theorem telem201 (a : U16) (r c : I16) (t : Byte) : Statement (.telem201 a r c t) :=
  (encodeTelem_row _ a r c t).trans (show _ = 0x000000807080000000000000000 by decide)
theorem telem202 (a : U16) (r c : I16) (t : Byte) : Statement (.telem202 a r c t) :=
  (encodeTelem_row _ a r c t).trans (show _ = 0x00000080B080000000000000000 by decide)
theorem telem203 (a : U16) (r c : I16) (t : Byte) : Statement (.telem203 a r c t) :=
  (encodeTelem_row _ a r c t).trans (show _ = 0x00000080F080000000000000000 by decide)
theorem telem204 (a : U16) (r c : I16) (t : Byte) : Statement (.telem204 a r c t) :=
  (encodeTelem_row _ a r c t).trans (show _ = 0x000000813080000000000000000 by decide)
theorem telem205 (a : U16) (r c : I16) (t : Byte) : Statement (.telem205 a r c t) :=
  (encodeTelem_row _ a r c t).trans (show _ = 0x000000817080000000000000000 by decide)
theorem telem206 (a : U16) (r c : I16) (t : Byte) : Statement (.telem206 a r c t) :=
  (encodeTelem_row _ a r c t).trans (show _ = 0x00000081B080000000000000000 by decide)
theorem telem207 (a : U16) (r c : I16) (t : Byte) : Statement (.telem207 a r c t) :=
  (encodeTelem_row _ a r c t).trans (show _ = 0x00000081F080000000000000000 by decide)
theorem telem208 (a : U16) (r c : I16) (t : Byte) : Statement (.telem208 a r c t) :=
  (encodeTelem_row _ a r c t).trans (show _ = 0x000000823080000000000000000 by decide)
theorem cmdFrameA (c0 c1 c2 c3 : I16) : Statement (.cmdFrameA c0 c1 c2 c3) :=
  (encodeCmdFrame_row _ c0 c1 c2 c3).trans (show _ = 0x000000803080000000000000000 by decide)
theorem cmdFrameB (c4 c5 c6 c7 : I16) : Statement (.cmdFrameB c4 c5 c6 c7) :=
  (encodeCmdFrame_row _ c4 c5 c6 c7).trans (show _ = 0x0000007FF080000000000000000 by decide)
theorem pidReset : Statement .pidReset := encodeCmd_row _ _ _ _ _ _
theorem setParam (kp ki kd lo hi : F32) : Statement (.setParam kp ki kd lo hi) := encodeCmd_row _ _ _ _ _ _
theorem setGain (kp ki kd : F32) : Statement (.setGain kp ki kd) := encodeCmd_row _ _ _ _ _ _
theorem setLimit (lo hi : F32) : Statement (.setLimit lo hi) := encodeCmd_row _ _ _ _ _ _
theorem setTarget (rpm : F32) : Statement (.setTarget rpm) := encodeCmd_row _ _ _ _ _ _
theorem setSlot (slot : Byte) : Statement (.setSlot slot) := encodeCmd_row _ _ _ _ _ _
theorem setPeriod (lo hi : BitVec 32) : Statement (.setPeriod lo hi) := encodeCmd_row _ _ _ _ _ _
theorem start : Statement .start := encodeCmd_row _ _ _ _ _ _
theorem idleStep : Statement .idleStep := rfl
theorem tryReceive : Statement .tryReceive := rfl
theorem decodeTelemetry : Statement .decodeTelemetry := rfl
theorem regUpdate : Statement .regUpdate := rfl
theorem slotRd : Statement .slotRd := rfl
theorem calc3 : Statement .calc3 := rfl
theorem calcPid : Statement .calcPid := rfl
theorem quant : Statement .quant := rfl
theorem slotWrCmd : Statement .slotWrCmd := rfl
theorem snapshot : Statement .snapshot := rfl
theorem encodeCommands : Statement .encodeCommands := rfl
theorem trySendA : Statement .trySendA := rfl
theorem trySendB : Statement .trySendB := rfl
theorem halt : Statement .halt := rfl
theorem dbgRead (sel : BitVec 3) : Statement (.dbgRead sel) := Nat.and_zero _

end Sys2Proof.Laws.TableRow
end

