-- ==== Sys2Proof/Tests/Slice0.lean ====
section
/-! SUPPORT. The model's own tests: the WellFormed smoke tests, a written-out word for every operation, one
or two steps for every operation with the values of spec/95_test_vectors.md, and for every statement with
hypotheses a named witness that meets them. -/

open Sys2Proof Sys2Proof.Machine Sys2Proof.Claims

namespace Sys2Proof.Tests

/-! ### WellFormed: each of the eight range checks refuses a command outside ±16384 (rule R25) -/

theorem test_wf_refuses_frameA_command0 : (Instr.cmdFrameA 0x4001 0 0 0).wf = false := by decide
theorem test_wf_refuses_frameA_command1 : (Instr.cmdFrameA 0 0xBFFF 0 0).wf = false := by decide
theorem test_wf_refuses_frameA_command2 : (Instr.cmdFrameA 0 0 0x4001 0).wf = false := by decide
theorem test_wf_refuses_frameA_command3 : (Instr.cmdFrameA 0 0 0 0xBFFF).wf = false := by decide
theorem test_wf_refuses_frameB_command0 : (Instr.cmdFrameB 0x4001 0 0 0).wf = false := by decide
theorem test_wf_refuses_frameB_command1 : (Instr.cmdFrameB 0 0xBFFF 0 0).wf = false := by decide
theorem test_wf_refuses_frameB_command2 : (Instr.cmdFrameB 0 0 0x4001 0).wf = false := by decide
theorem test_wf_refuses_frameB_command3 : (Instr.cmdFrameB 0 0 0 0xBFFF).wf = false := by decide
theorem test_wf_accepts_the_extremes : (Instr.cmdFrameA 0x4000 0xC000 0x4000 0xC000).wf = true
    ∧ (Instr.cmdFrameB 0x4000 0xC000 0x4000 0xC000).wf = true := by decide

/-! ### Decoding: words written out from rules R81 to R91 (header, payload, opcode and operands in hex) -/

theorem test_decode_telem200 : decode (.frameIn 0x0000008030820000708FF9C2A99#106)
    = .ok (.telem200 0x2000 0x0708 0xFF9C 0x2A) := by decide
theorem test_decode_telem201 : decode (.frameIn 0x0000008070812340708FF9C2A99#106)
    = .ok (.telem201 0x1234 0x0708 0xFF9C 0x2A) := by decide
theorem test_decode_telem202 : decode (.frameIn 0x00000080B081000FFFF00010200#106)
    = .ok (.telem202 0x1000 0xFFFF 0x0001 0x02) := by decide
theorem test_decode_telem203 : decode (.frameIn 0x00000080F081FFFFF38FFF628AA#106)
    = .ok (.telem203 0x1FFF 0xFF38 0xFFF6 0x28) := by decide
theorem test_decode_telem204 : decode (.frameIn 0x000000813082000F83000010000#106)
    = .ok (.telem204 0x2000 0xF830 0x0001 0x00) := by decide
theorem test_decode_telem205 : decode (.frameIn 0x0000008170800000000000000FF#106)
    = .ok (.telem205 0x0000 0x0000 0x0000 0x00) := by decide
theorem test_decode_telem206 : decode (.frameIn 0x00000081B08100001F400641E00#106)
    = .ok (.telem206 0x1000 0x01F4 0x0064 0x1E) := by decide
theorem test_decode_telem207 : decode (.frameIn 0x00000081F0800007FFF80000000#106)
    = .ok (.telem207 0x0000 0x7FFF 0x8000 0x00) := by decide
theorem test_decode_telem208 : decode (.frameIn 0x00000082308FFFF80007FFFFF00#106)
    = .ok (.telem208 0xFFFF 0x8000 0x7FFF 0xFF) := by decide
theorem test_decode_cmdFrameA : decode (.frameOut 0x000000803080001FFFF0002FFFE#106)
    = .ok (.cmdFrameA 0x0001 0xFFFF 0x0002 0xFFFE) := by decide
theorem test_decode_cmdFrameB : decode (.frameOut 0x0000007FF080003FFFD0004FFFC#106)
    = .ok (.cmdFrameB 0x0003 0xFFFD 0x0004 0xFFFC) := by decide
theorem test_decode_pidReset : decode (.cmd 0x00000000000000000000000000000000000000001#164) = .ok .pidReset := by decide
theorem test_decode_setParam : decode (.cmd 0x42C80000C2C800003F0000003E8000003F8000002#164) = .ok (.setParam 0x3F800000 0x3E800000 0x3F000000 0xC2C80000 0x42C80000) := by decide
theorem test_decode_setGain : decode (.cmd 0x00000000000000000000000000000000400000003#164) = .ok (.setGain 0x40000000 0 0) := by decide
theorem test_decode_setLimit : decode (.cmd 0x00000000000000000000000041200000C12000004#164) = .ok (.setLimit 0xC1200000 0x41200000) := by decide
theorem test_decode_setTarget : decode (.cmd 0x0000000000000000000000000000000044FA00005#164) = .ok (.setTarget 0x44FA0000) := by decide
theorem test_decode_setSlot_ignores_upper_bits : decode (.cmd 0x00000000000000000000000000000000ABCDEF036#164) = .ok (.setSlot 0x03) := by decide
theorem test_decode_setPeriod : decode (.cmd 0x00000000000000000000000000000000000027107#164) = .ok (.setPeriod 10000 0) := by decide
theorem test_decode_start : decode (.cmd 0x00000000000000000000000000000000000000008#164) = .ok .start := by decide
theorem test_decode_idleStep : decode (.uop 0b0000#4 .first) = .ok .idleStep := by decide
theorem test_decode_tryReceive : decode (.uop 0b0001#4 .first) = .ok .tryReceive := by decide
theorem test_decode_decodeTelemetry : decode (.uop 0b0010#4 .first) = .ok .decodeTelemetry := by decide
theorem test_decode_regUpdate : decode (.uop 0b0010#4 .second) = .ok .regUpdate := by decide
theorem test_decode_slotRd : decode (.uop 0b0011#4 .first) = .ok .slotRd := by decide
theorem test_decode_calc3 : decode (.uop 0b0100#4 .first) = .ok .calc3 := by decide
theorem test_decode_calcPid : decode (.uop 0b0100#4 .second) = .ok .calcPid := by decide
theorem test_decode_quant : decode (.uop 0b0101#4 .first) = .ok .quant := by decide
theorem test_decode_slotWrCmd : decode (.uop 0b0101#4 .second) = .ok .slotWrCmd := by decide
theorem test_decode_snapshot : decode (.uop 0b0110#4 .first) = .ok .snapshot := by decide
theorem test_decode_encodeCommands : decode (.uop 0b0110#4 .second) = .ok .encodeCommands := by decide
theorem test_decode_trySendA : decode (.uop 0b0111#4 .first) = .ok .trySendA := by decide
theorem test_decode_trySendB : decode (.uop 0b1000#4 .first) = .ok .trySendB := by decide
theorem test_decode_halt : decode (.uop 0b1111#4 .first) = .ok .halt := by decide
theorem test_decode_dbgRead : decode (.port 0b011#3) = .ok (.dbgRead 3) := by decide
theorem test_decode_rejects_id_1FF : decode (.frameIn 0x0000007FF080000000000000000#106) = .error .notTelemetry := by
  decide
theorem test_decode_rejects_id_209 : decode (.frameIn 0x000000827080000000000000000#106) = .error .notTelemetry := by
  decide
theorem test_decode_rejects_wide_id : decode (.frameIn 0x200000807080000000000000000#106)
    = .error .notTelemetry := by decide
theorem test_decode_rejects_length_7 : decode (.frameIn 0x000000807070000000000000000#106)
    = .error .notTelemetry := by decide
theorem test_decode_rejects_extended : decode (.frameIn 0x000000805080000000000000000#106)
    = .error .notTelemetry := by decide
theorem test_decode_rejects_remote : decode (.frameIn 0x000000806080000000000000000#106)
    = .error .notTelemetry := by decide
theorem test_decode_rejects_reserved_opcode :
    decode (.cmd 0x00000000000000000000000000000000DEADBEEFF#164) = .error (.reservedOpcode 0xF) := by decide
theorem test_decode_rejects_phase_9 : decode (.uop 0b1001#4 .first) = .error (.undefinedPhase 9) := by decide

/-! ### One step of each operation -/

/-- A field of the next state, where there is one. -/
def after {α : Type} (o : Outcome) (f : State → α) : Option α :=
  match o with
  | .next t => some (f t)
  | .fault _ => none
  | .refused _ => none

/-- A state in the given phase with the gains of vector D-PID-1 and `dt = 0.5`, and an outside that does nothing
before the next step. -/
def base (p : BitVec 4) : State :=
  { State.reset with
    phase := p
    param := { kp := 0x3F800000, ki := 0x3E800000, kd := 0x3F000000, min := 0xC2C80000, max := 0x42C80000 }
    loop := { lastTick := 0, dtLatch := 0x3F000000, run := true }
    env := { State.reset.env with ext := [none] } }

/-- `base` with a register file whose slot `i` is `x`. -/
def withSlot (p : BitVec 4) (i : Fin 8) (x : Slot) : State :=
  { base p with rf := (base p).rf.set i.val x i.isLt }

/-- `base` with the given answers of the environment. -/
def withEnv (p : BitVec 4) (e : Env) : State := { base p with env := e }

/-- A telemetry frame as rule R82 describes it, with the given identifier and length. -/
def frameOf (id : BitVec 32) (len : Byte) (b0 b1 b2 b3 b4 b5 b6 b7 : Byte) : Frame :=
  { id := id, isStandard := true, isData := true, length := len, payload := #v[b0, b1, b2, b3, b4, b5, b6, b7] }

-- D-REG-4 and D-REG-5: identifier 0x200 under both policies
theorem test_telem200_faults : after (exec (.telem200 0x2000 0 0 0) (base 2)) (fun t => (t.flt, t.phase))
    = some (⟨true, 2, 0xFFFFFFFF⟩, 15) := by decide
theorem test_telem200_dropped :
    after (exec (.telem200 0x2000 0 0 0) { base 2 with params := { Params.default with id200 := .drop } })
      (fun t => (t.rf, t.flt, t.phase)) = some ((base 2).rf, ⟨false, 0, 0⟩, 3) := by decide
theorem test_telem201 :
    after (exec (.telem201 1 2 3 4) (withSlot 2 0 ⟨9, 9, 9, 9, 4096⟩)) (fun t => (t.slot 0, t.slot 1))
      = some (⟨1, 2, 3, 4, 4096⟩, ⟨0, 0, 0, 0, 0⟩) := by decide
theorem test_telem202 :
    after (exec (.telem202 1 2 3 4) (withSlot 2 1 ⟨9, 9, 9, 9, 4096⟩)) (fun t => (t.slot 1, t.slot 2))
      = some (⟨1, 2, 3, 4, 4096⟩, ⟨0, 0, 0, 0, 0⟩) := by decide
theorem test_telem203 :
    after (exec (.telem203 1 2 3 4) (withSlot 2 2 ⟨9, 9, 9, 9, 4096⟩)) (fun t => (t.slot 2, t.slot 3))
      = some (⟨1, 2, 3, 4, 4096⟩, ⟨0, 0, 0, 0, 0⟩) := by decide
theorem test_telem204 :
    after (exec (.telem204 1 2 3 4) (withSlot 2 3 ⟨9, 9, 9, 9, 4096⟩)) (fun t => (t.slot 3, t.slot 4))
      = some (⟨1, 2, 3, 4, 4096⟩, ⟨0, 0, 0, 0, 0⟩) := by decide
theorem test_telem205 :
    after (exec (.telem205 1 2 3 4) (withSlot 2 4 ⟨9, 9, 9, 9, 4096⟩)) (fun t => (t.slot 4, t.slot 5))
      = some (⟨1, 2, 3, 4, 4096⟩, ⟨0, 0, 0, 0, 0⟩) := by decide
theorem test_telem206 :
    after (exec (.telem206 1 2 3 4) (withSlot 2 5 ⟨9, 9, 9, 9, 4096⟩)) (fun t => (t.slot 5, t.slot 6))
      = some (⟨1, 2, 3, 4, 4096⟩, ⟨0, 0, 0, 0, 0⟩) := by decide
theorem test_telem207 :
    after (exec (.telem207 1 2 3 4) (withSlot 2 6 ⟨9, 9, 9, 9, 4096⟩)) (fun t => (t.slot 6, t.slot 7))
      = some (⟨1, 2, 3, 4, 4096⟩, ⟨0, 0, 0, 0, 0⟩) := by decide
theorem test_telem208 :
    after (exec (.telem208 1 2 3 4) (withSlot 2 7 ⟨9, 9, 9, 9, 4096⟩)) (fun t => (t.slot 7, t.slot 0))
      = some (⟨1, 2, 3, 4, 4096⟩, ⟨0, 0, 0, 0, 0⟩) := by decide
-- D-ENC-2: the frame as offered, and the report of a failure
theorem test_cmdFrameA :
    after (exec (.cmdFrameA 8192 0 0 0) (withEnv 7 { (base 0).env with tx := [false] })) (fun t => (t.outs, t.phase))
      = some ([.offered (frameOf 0x200 8 0x20 0 0 0 0 0 0 0) false, .diag .txaFail], 8) := by decide
theorem test_cmdFrameB :
    after (exec (.cmdFrameB 0 0xC000 0 0) (withEnv 8 { (base 0).env with tx := [true] })) (fun t => (t.outs, t.phase))
      = some ([.offered (frameOf 0x1FF 8 0 0 0xC0 0 0 0 0 0) true], 0) := by decide
-- V7 and D-PID-5: a reset controller is cold
theorem test_pidReset :
    after (exec .pidReset { base 0 with rt := ⟨1, 2, true, 3, 4⟩ })
      (fun t => (t.rt.prevErr, t.rt.pprValid, t.rt.fd, t.rt.acc, t.param == (base 0).param))
      = some (0, false, 0, 0, true) := by decide
-- section 2.6: SET_PARAM 0.001 0 0 -0.5 0.5, and D-PID-9
theorem test_setParam :
    after (exec (.setParam 0x3A83126F 0 0 0xBF000000 0x3F000000) { base 0 with rt := ⟨1, 2, true, 3, 4⟩ })
      (fun t => (t.param, t.rt.acc, t.rt.pprValid))
      = some (⟨0x3A83126F, 0, 0, 0xBF000000, 0x3F000000⟩, 0, false) := by decide
theorem test_setParam_crossed :
    after (exec (.setParam 0x3F800000 0x3F800000 0x3F800000 0x3F000000 0xBF000000) (base 0))
      (fun t => (t.param == (base 0).param, t.flt, t.phase)) = some (true, ⟨true, 4, 0x3F000000⟩, 15) := by decide
-- D-PID-5: SET_GAIN 2 0 0 keeps the limits
theorem test_setGain :
    after (exec (.setGain 0x40000000 0 0) { base 0 with rt := ⟨1, 2, true, 3, 4⟩ }) (fun t => (t.param, t.rt.fd))
      = some (⟨0x40000000, 0, 0, 0xC2C80000, 0x42C80000⟩, 0) := by decide
-- D-PID-4: SET_LIMIT -10 10 leaves the accumulator outside; D-PID-9: a NaN limit faults
theorem test_setLimit :
    after (exec (.setLimit 0xC1200000 0x41200000) { base 0 with rt := ⟨0x40A00000, 0, true, 0, 0x41410000⟩ })
      (fun t => (t.param.min, t.param.max, t.rt.acc, t.rt.prevErr))
      = some (0xC1200000, 0x41200000, 0x41410000, 0x40A00000) := by decide
theorem test_setLimit_nan :
    after (exec (.setLimit 0x7FC00001 0x3F800000) (base 0)) (fun t => t.flt) = some ⟨true, 4, 0x7FC00001⟩ := by decide
theorem test_setTarget : after (exec (.setTarget 0x44FA0000) (base 0)) (fun t => t.cfg)
    = some ⟨0x44FA0000, 0, 0⟩ := by decide
theorem test_setSlot : after (exec (.setSlot 9) (base 0)) (fun t => t.cfg) = some ⟨0, 9, 0⟩ := by decide
theorem test_setPeriod : after (exec (.setPeriod 10000 7) (base 0)) (fun t => t.cfg) = some ⟨0, 0, 10000⟩ := by decide
theorem test_setPeriod_wide :
    after (exec (.setPeriod 10000 7) { base 0 with params := { Params.default with timeW := 33 } }) (fun t => t.cfg)
      = some ⟨0, 0, 0x100002710⟩ := by decide
theorem test_start :
    after (exec .start { State.reset with loc := { State.reset.loc with tNow := 100 } }) (fun t => t.loop)
      = some ⟨100, 0, true⟩ := by decide
theorem test_start_running :
    after (exec .start { base 0 with loc := { State.reset.loc with tNow := 100 } }) (fun t => t.loop.lastTick)
      = some 0 := by decide
-- D-T-3, D-T-4 and D-T-8: equal does not exceed, one more fires, across the wrap
theorem test_idleStep_equal :
    after (exec .idleStep { withEnv 0 { (base 0).env with now := [10000], cmd := [none] } with cfg := ⟨0, 0, 10000⟩ })
      (fun t => t.phase) = some 0 := by decide
theorem test_idleStep_wraps :
    after (exec .idleStep
      { withEnv 0 { (base 0).env with now := [0x101], cmd := [none], dt := [0x3C23D70A] } with
        cfg := ⟨0, 0, 0x200⟩, loop := ⟨0xFFFFFF00, 0, true⟩ })
      (fun t => (t.phase, t.loop)) = some (1, ⟨0x101, 0x3C23D70A, true⟩) := by decide
-- section 2.7, D-F-8, and P1: one attempt, its answer latched
theorem test_tryReceive :
    after (exec .tryReceive (withEnv 1 { (base 0).env with rx := [some (frameOf 0x201 8 0 0 7 8 0 0 0 0), none] }))
      (fun t => (t.lat.rxf, t.phase, t.env.rx)) = some (some (frameOf 0x201 8 0 0 7 8 0 0 0 0), 2, [none]) := by decide
-- V3 row 1, and V4: the length clause
theorem test_decodeTelemetry :
    after (exec .decodeTelemetry
      { base 2 with lat := { State.reset.lat with rxf := some (frameOf 0x201 8 0x12 0x34 0x07 0x08 0xFF 0x9C 0x2A 0x99) } })
      (fun t => t.loc.dec) = some (some ⟨0, 4660, 1800, 0xFF9C, 42⟩) := by decide
theorem test_decodeTelemetry_length :
    after (exec .decodeTelemetry { base 2 with lat := { State.reset.lat with rxf := some (frameOf 0x201 7 0 0 0 0 0 0 0 0) } })
      (fun t => t.loc.dec) = some none := by decide
-- D-REG-1 and D-REG-2
theorem test_regUpdate :
    after (exec .regUpdate
      { withSlot 2 3 ⟨0, 0, 0, 0, 4096⟩ with loc := { State.reset.loc with dec := some ⟨3, 100, 0xFF06, 77, 30⟩ } })
      (fun t => (t.slot 3, t.phase)) = some (⟨100, 0xFF06, 77, 30, 4096⟩, 3) := by decide
-- D-REG-6 and D-REG-8
theorem test_slotRd :
    after (exec .slotRd { withSlot 3 7 ⟨0, 0xFFFB, 0, 0, 0⟩ with cfg := ⟨0, 7, 0⟩ }) (fun t => (t.lat.act, t.phase))
      = some (0xFFFB, 4) := by decide
theorem test_slotRd_255 :
    after (exec .slotRd { base 3 with cfg := ⟨0, 255, 0⟩ }) (fun t => (t.flt, t.phase))
      = some (⟨true, 2, 0x000000FF⟩, 15) := by decide
-- trace P1, tick 1: target 2000, actual 1800, OUT = 0.5
theorem test_calc3 :
    after (exec .calc3
      { base 4 with
        param := ⟨0x3A83126F, 0, 0, 0xBF000000, 0x3F000000⟩
        cfg := ⟨0x44FA0000, 0, 0⟩
        loop := ⟨0, 0x3C23D70A, true⟩
        lat := { State.reset.lat with act := 1800 } })
      (fun t => (t.rt.prevErr, t.rt.prevPr, t.rt.fd, t.lat.out, t.phase))
      = some (0x43480000, 0x469C4000, 0, 0x3F000000, 5) := by decide
-- D-PID-1, the second and third calls
theorem test_calcPid_second :
    after (exec .calcPid
      { base 4 with rt := ⟨0x40800000, 0x41000000, true, 0, 0x41100000⟩, loc := { State.reset.loc with err := 0x40C00000 } })
      (fun t => t.rt) = some ⟨0x40C00000, 0x40800000, true, 0xBF800000, 0x41600000⟩ := by decide
theorem test_calcPid_third :
    after (exec .calcPid
      { base 4 with
        rt := ⟨0x40C00000, 0x40800000, true, 0xBF800000, 0x41600000⟩, loc := { State.reset.loc with err := 0x40A00000 } })
      (fun t => t.rt) = some ⟨0x40A00000, 0xC0000000, true, 0xC0180000, 0x41410000⟩ := by decide
-- D-Q-15: a tie away from zero; D-Q-23: a NaN faults with its bits
theorem test_quant_tie :
    after (exec .quant { base 5 with lat := { State.reset.lat with out := 0x3E800400 } }) (fun t => t.loc.q)
      = some 4097 := by decide
theorem test_quant_nan :
    after (exec .quant { base 5 with lat := { State.reset.lat with out := 0x7FC12345 } }) (fun t => (t.flt, t.phase))
      = some (⟨true, 3, 0x7FC12345⟩, 15) := by decide
-- D-REG-9
theorem test_slotWrCmd :
    after (exec .slotWrCmd { withSlot 5 0 ⟨1, 2, 3, 4, 0⟩ with loc := { State.reset.loc with q := 8192 } })
      (fun t => (t.slot 0, t.phase)) = some (⟨1, 2, 3, 4, 8192⟩, 6) := by decide
theorem test_snapshot :
    after (exec .snapshot (withSlot 6 5 ⟨0, 0, 0, 0, 4096⟩)) (fun t => t.loc.snap)
      = some #v[0, 0, 0, 0, 0, 4096, 0, 0] := by decide
-- V1 and D-ENC-6: no overlap
theorem test_encodeCommands :
    after (exec .encodeCommands
      { base 6 with loc := { State.reset.loc with snap := #v[1, 0xFFFF, 2, 0xFFFE, 3, 0xFFFD, 4, 0xFFFC] } })
      (fun t => (t.lat.fra, t.lat.frb))
      = some (frameOf 0x200 8 0x00 0x01 0xFF 0xFF 0x00 0x02 0xFF 0xFE,
              frameOf 0x1FF 8 0x00 0x03 0xFF 0xFD 0x00 0x04 0xFF 0xFC) := by decide
-- D-F-7: a failed send is reported and nothing else
theorem test_trySendA_fails :
    after (exec .trySendA (withEnv 7 { (base 0).env with tx := [false] })) (fun t => (t.outs, t.phase, t.flt.fault))
      = some ([.offered State.reset.lat.fra false, .diag .txaFail], 8, false) := by decide
theorem test_trySendB_sent :
    after (exec .trySendB (withEnv 8 { (base 0).env with tx := [true] })) (fun t => (t.outs, t.phase))
      = some ([.offered State.reset.lat.frb true], 0) := by decide
theorem test_halt : exec .halt { base 15 with flt := ⟨true, 1, 0x80000000⟩ } = .fault (.halted 1 0x80000000) := rfl
-- D-REG-10
theorem test_dbgRead :
    after (exec (.dbgRead 3) (withSlot 15 3 ⟨100, 0xFF06, 77, 30, 0⟩)) (fun t => t.outs)
      = some [.dbg 3 0x0064FF06004D1E0000] := by decide

/-! ### The host's table words -/

theorem test_tableWord_frame : decodeTableWord 106 0x000000807080000070800000000
    = some (.telem201 0 0x0708 0 0) := by decide
theorem test_tableWord_cmd : decodeTableWord 164 0x56 = some (.setSlot 5) := by decide

/-! ### Witnesses: for every statement with hypotheses a state and operands that meet them

Where a statement has several clauses over one input, its witness meets each clause, at the boundary of its
range. -/

/-- A state with the given outside events due. -/
def withExt (p : BitVec 4) (l : List (Option ExtEvent)) : State := withEnv p { (base 0).env with ext := l }

theorem witness_ResetEventGivesEveryRegisterItsResetValue :
    ∃ s : State, s.extAnswer = some .reset ∧ s.phase = 15#4 ∧ s.param ≠ State.reset.param :=
  ⟨withExt 15 [some .reset], by decide⟩

theorem witness_HaltIsTerminalUntilReset :
    (∃ s : State, s.phase = 15#4 ∧ s.extAnswer = none)
    ∧ (∀ sel : BitVec 3, ∃ s : State, s.phase = 15#4 ∧ s.extAnswer = some (.dbgRead sel))
    ∧ (∃ s : State, s.phase = 15#4 ∧ s.extAnswer = some .reset) :=
  ⟨⟨base 15, rfl, rfl⟩, fun sel => ⟨withExt 15 [some (.dbgRead sel)], rfl, rfl⟩, ⟨withExt 15 [some .reset], rfl, rfl⟩⟩

theorem witness_EnteringHaltChangesOnlyFaultRegistersAndPhase :
    ∃ (i : Instr) (s t : State), exec i s = .next t ∧ t.phase = 15#4 ∧ s.phase ≠ 15#4 :=
  ⟨.telem200 0 0 0 0, base 2, _, rfl, by decide⟩

-- dt = +0.0 and -0.0; index -1; slot 8; a NaN with the smallest fraction; limits one unit apart
theorem witness_FaultsRecordCauseAndOffendingValue :
    (∃ s : State, s.params.arith.flt 0x00000000#32 s.loop.dtLatch = false ∧ s.loop.dtLatch = 0x80000000#32)
    ∧ (∃ s : State, s.params.arith.flt 0x00000000#32 s.loop.dtLatch = false ∧ s.loop.dtLatch = 0x00000000#32)
    ∧ (∃ (s : State) (d : Telem), s.loc.dec = some d ∧ d.idx = -1 ∧ s.params.id200 = .fault)
    ∧ (∃ s : State, 8 ≤ s.cfg.targetSlot.toNat ∧ s.cfg.targetSlot = 8#8)
    ∧ (∃ s : State, s.params.arith.isNan s.lat.out = true ∧ s.lat.out = 0x7F800001#32)
    ∧ (∃ (s : State) (lo hi : F32), s.params.arith.fle lo hi = false ∧ lo = 0x3F800001#32 ∧ hi = 0x3F800000#32) :=
  ⟨⟨{ base 4 with loop := ⟨0, 0x80000000, true⟩ }, by decide⟩, ⟨{ base 4 with loop := ⟨0, 0, true⟩ }, by decide⟩,
   ⟨{ base 2 with loc := { State.reset.loc with dec := some ⟨-1, 0, 0, 0, 0⟩ } }, ⟨-1, 0, 0, 0, 0⟩, by decide⟩,
   ⟨{ base 3 with cfg := ⟨0, 8, 0⟩ }, by decide⟩,
   ⟨{ base 5 with lat := { State.reset.lat with out := 0x7F800001 } }, by decide⟩, ⟨base 0, _, _, by decide, rfl, rfl⟩⟩

theorem witness_DecodeTelemetryAcceptsAndReadsTheFields :
    Accepted (frameOf 0x200 8 0 0 0 0 0 0 0 0) ∧ Accepted (frameOf 0x208 8 0 0 0x80 0 0x7F 0xFF 0 0)
    ∧ ¬ Accepted (frameOf 0x1FF 8 0 0 0 0 0 0 0 0) ∧ ¬ Accepted (frameOf 0x209 8 0 0 0 0 0 0 0 0)
    ∧ ¬ Accepted (frameOf 0x201 9 0 0 0 0 0 0 0 0)
    ∧ (∃ s : State, s.lat.rxf = none) ∧ (∃ (s : State) (f : Frame), s.lat.rxf = some f) := by
  refine ⟨?_, ?_, ?_, ?_, ?_, ⟨State.reset, rfl⟩,
    ⟨{ State.reset with lat := { State.reset.lat with rxf := some Frame.blank } }, Frame.blank, rfl⟩⟩ <;>
    (unfold Accepted; decide)

theorem witness_RejectedFrameIsIgnored :
    (∃ (s : State) (f : Frame), s.extAnswer = none ∧ s.phase = 2#4 ∧ s.lat.rxf = some f ∧ ¬ Accepted f)
    ∧ (∃ (s : State) (f : Frame) (l : List (Option Frame)), s.extAnswer = none ∧ s.phase = 1#4 ∧ s.env.rx = some f :: l) :=
  ⟨⟨{ base 2 with lat := { State.reset.lat with rxf := some (frameOf 0x209 8 1 2 3 4 5 6 7 8) } },
      frameOf 0x209 8 1 2 3 4 5 6 7 8, rfl, rfl, rfl, by unfold Accepted; decide⟩,
   ⟨withEnv 1 { (base 0).env with rx := [some (frameOf 0x209 8 1 2 3 4 5 6 7 8), none] }, _, [none], rfl, rfl, rfl⟩⟩

/-- A state before REG_UPDATE with a decoded frame of the given index. -/
def withIndex (x : Int) (pol : Id200Policy) : State :=
  { base 2 with
    params := { Params.default with id200 := pol }
    loc := { State.reset.loc with dec := some ⟨x, 1, 2, 3, 4⟩ } }

-- indices -1, 0, 7 and 8, under both policies
theorem witness_RegUpdateFollowsTheIndex :
    (∃ s : State, s.loc.dec = none)
    ∧ (∀ k : Fin 8, ∃ (s : State) (d : Telem), s.loc.dec = some d ∧ d.idx = (k.val : Int))
    ∧ (∀ pol, ∃ (s : State) (d : Telem), s.loc.dec = some d ∧ d.idx = -1 ∧ s.params.id200 = pol)
    ∧ (∀ pol, ∃ (s : State) (d : Telem), s.loc.dec = some d ∧ d.idx = 8 ∧ s.params.id200 = pol) :=
  ⟨⟨State.reset, rfl⟩, fun k => ⟨withIndex k .fault, _, rfl, rfl⟩, fun pol => ⟨withIndex (-1) pol, _, rfl, rfl, rfl⟩,
   fun pol => ⟨withIndex 8 pol, _, rfl, rfl, rfl⟩⟩

theorem witness_Identifier200FaultsOrIsDropped :
    (∃ s : State, s.params.id200 = .fault) ∧ (∃ s : State, s.params.id200 = .drop) :=
  ⟨⟨State.reset, rfl⟩, ⟨withIndex 0 .drop, rfl⟩⟩

-- slots 0, 7, 8 and 255
theorem witness_SlotRdReadsTheTargetSlot :
    (∀ k : Fin 8, ∃ s : State, s.cfg.targetSlot.toNat = k.val)
    ∧ (∃ s : State, 7 < s.cfg.targetSlot.toNat ∧ s.cfg.targetSlot.toNat = 8)
    ∧ (∃ s : State, 7 < s.cfg.targetSlot.toNat ∧ s.cfg.targetSlot.toNat = 255) :=
  ⟨fun k => ⟨{ base 3 with cfg := ⟨0, BitVec.ofNat 8 k.val, 0⟩ }, by revert k; decide⟩,
   ⟨{ base 3 with cfg := ⟨0, 8, 0⟩ }, by decide⟩, ⟨{ base 3 with cfg := ⟨0, 255, 0⟩ }, by decide⟩⟩

theorem witness_SlotWrCmdWritesOneCommand :
    (∀ k : Fin 8, ∃ s : State, s.cfg.targetSlot.toNat = k.val)
    ∧ (∃ s : State, 7 < s.cfg.targetSlot.toNat ∧ s.cfg.targetSlot.toNat = 8) :=
  ⟨witness_SlotRdReadsTheTargetSlot.1, witness_SlotRdReadsTheTargetSlot.2.1⟩

-- the smallest positive dt, an infinite one, and a NaN
theorem witness_CalcFollowsTheSevenSteps :
    (∃ s : State, s.params.arith.flt 0x00000000#32 s.loop.dtLatch = true ∧ s.loop.dtLatch = 1#32 ∧ s.rt.pprValid = true)
    ∧ (∃ s : State, s.params.arith.flt 0x00000000#32 s.loop.dtLatch = true ∧ s.loop.dtLatch = 0x7F800000#32
        ∧ s.rt.pprValid = false)
    ∧ (∃ s : State, s.params.arith.flt 0x00000000#32 s.loop.dtLatch = false ∧ s.loop.dtLatch = 0x7FC00000#32) :=
  ⟨⟨{ base 4 with loop := ⟨0, 1, true⟩, rt := ⟨0, 0, true, 0, 0⟩ }, by decide⟩,
   ⟨{ base 4 with loop := ⟨0, 0x7F800000, true⟩ }, by decide⟩, ⟨{ base 4 with loop := ⟨0, 0x7FC00000, true⟩ }, by decide⟩⟩

theorem witness_Calc3IsCalcOnTheError : ∃ s : State, s.params.arith.flt 0x00000000#32 s.loop.dtLatch = true :=
  ⟨base 4, by decide⟩

theorem witness_CalcOutputStaysInsideTheLimits :
    ∃ s : State, s.params.fp = .binary32 ∧ F32.lt 0x00000000#32 s.loop.dtLatch = true
      ∧ F32.le s.param.min s.param.max = true :=
  ⟨base 4, by decide⟩

theorem default_paramsLegal : paramsLegal Params.default := by unfold paramsLegal; decide

-- KD = 0.5, and KD infinite
theorem witness_ColdCalcSuppressesTheDerivative :
    (∃ s : State, s.params.fp = .binary32 ∧ paramsLegal s.params ∧ F32.lt 0x00000000#32 s.loop.dtLatch = true
        ∧ s.rt.pprValid = false
        ∧ s.rt.fd = 0x00000000#32 ∧ F32.isFinite s.param.kd = true)
    ∧ (∃ s : State, s.params.fp = .binary32 ∧ paramsLegal s.params ∧ F32.lt 0x00000000#32 s.loop.dtLatch = true
        ∧ s.rt.pprValid = false
        ∧ s.rt.fd = 0x00000000#32 ∧ F32.isFinite s.param.kd = false) :=
  ⟨⟨base 4, rfl, default_paramsLegal, by decide⟩,
   ⟨{ base 4 with param := ⟨0, 0, 0x7F800000, 0, 0⟩ }, rfl, default_paramsLegal, by decide⟩⟩

theorem witness_ZeroErrorAfterPidResetAddsNothing :
    ∃ s t : State, s.params.fp = .binary32 ∧ paramsLegal s.params ∧ F32.lt 0x00000000#32 s.loop.dtLatch = true
      ∧ F32.isFinite s.param.kp = true ∧ F32.isFinite s.param.ki = true ∧ F32.isFinite s.param.kd = true
      ∧ exec .pidReset s = .next t :=
  ⟨base 4, _, rfl, default_paramsLegal, by decide, by decide, by decide, by decide, rfl⟩

-- equal limits are ordered, both zeros are, and a NaN is not
theorem witness_SetParamReplacesAndResets :
    ∃ s : State, s.params.arith.fle 0x3F800000#32 0x3F800000#32 = true
      ∧ s.params.arith.fle 0x00000000#32 0x80000000#32 = true
      ∧ s.params.arith.fle 0x3F800001#32 0x3F800000#32 = false
      ∧ s.params.arith.fle 0x00000000#32 0x7FC00000#32 = false := ⟨base 0, by decide⟩

theorem witness_SetLimitDoesNotReset :
    ∃ s : State, s.params.arith.fle 0xFF800000#32 0x7F800000#32 = true
      ∧ s.params.arith.fle 0x7FC00000#32 0x3F800000#32 = false := ⟨base 0, by decide⟩

theorem witness_SetParamIsSetLimitAndSetGain :
    ∃ s : State, s.params.arith.fle 0xBF000000#32 0x3F000000#32 = true := ⟨base 0, by decide⟩

theorem witness_UnsetPrevPrIsNeverRead : ∃ s : State, s.rt.pprValid = false ∧ s.phase = 4#4 :=
  ⟨base 4, by decide⟩

-- 1 + 2^-24 is a tie, 1/3 is none; all finite
theorem witness_ArithmeticRoundsToNearestTiesToEven :
    F32.isFinite 0x3F800000#32 = true ∧ F32.isFinite 0x33800000#32 = true ∧ F32.isFinite 0x3F800001#32 = true
    ∧ F32.add 0x3F800000#32 0x33800000#32 = 0x3F800000#32 ∧ F32.isFinite (F32.add 0x3F800000#32 0x33800000#32) = true
    ∧ F32.sub 0x3F800000#32 0x33000000#32 = 0x3F800000#32 ∧ F32.isFinite 0x33000000#32 = true
    ∧ F32.isFinite (F32.sub 0x3F800000#32 0x33000000#32) = true
    ∧ F32.isFinite (F32.mul 0x3F800001#32 0x3F800001#32) = true
    ∧ F32.isZero 0x40400000#32 = false ∧ F32.div 0x3F800000#32 0x40400000#32 = 0x3EAAAAAB#32
    ∧ F32.isFinite (F32.div 0x3F800000#32 0x40400000#32) = true := by decide

-- the largest finite f32: adding 2^102 to it stays finite, adding 2^103 overflows; so for the other three
theorem witness_ArithmeticSpecialValuesFollowTheTable :
    F32.isNan 0x7F800001#32 = true ∧ F32.isFinite 0x3F800000#32 = true ∧ F32.isZero 0x3F800000#32 = false
    ∧ F32.isFinite 0x7F7FFFFF#32 = true ∧ F32.isFinite 0x73000000#32 = true ∧ F32.isFinite 0x72FFFFFF#32 = true
    ∧ F32.isZero 0x3F7FFFFF#32 = false
    ∧ F32.add 0x7F7FFFFF#32 0x73000000#32 = F32.inf false ∧ F32.add 0x7F7FFFFF#32 0x72FFFFFF#32 = 0x7F7FFFFF#32
    ∧ F32.sub 0xFF7FFFFF#32 0x73000000#32 = F32.inf true ∧ F32.sub 0xFF7FFFFF#32 0x72FFFFFF#32 = 0xFF7FFFFF#32
    ∧ F32.mul 0x7F7FFFFF#32 0xBF800001#32 = F32.inf true ∧ F32.mul 0x7F7FFFFF#32 0xBF800000#32 = 0xFF7FFFFF#32
    ∧ F32.div 0x7F7FFFFF#32 0x3F7FFFFF#32 = F32.inf false ∧ F32.div 0x7F7FFFFF#32 0x3F800000#32 = 0x7F7FFFFF#32 := by
  decide

-- an infinity and a NaN, the largest finite f32, and the smallest ones on either side of the zeros
theorem witness_ConversionsAndComparisonsAreExact :
    F32.isFinite 0x7F800000#32 = false ∧ F32.isFinite 0x7F7FFFFF#32 = true ∧ F32.isNan 0xFFC00000#32 = true
    ∧ F32.ofI16 0x8000#16 = 0xC7000000#32 ∧ F32.roundHaz 0xBF000000#32 = 0xBF800000#32
    ∧ F32.lt 0x80000001#32 0x80000000#32 = true ∧ F32.lt 0x00000000#32 0x00000001#32 = true
    ∧ F32.le 0x00000001#32 0x80000001#32 = false := by decide

-- a command, a tick at elapsed = PERIOD + 1, none at elapsed = PERIOD, none while RUN = 0
theorem witness_IdleStepDoesOneOfThreeThings :
    (∃ (s : State) (w : CmdWord) (i : Instr), s.params.timeW ≤ 64 ∧ s.sampleNow.cmdAnswer = some w
        ∧ decode (.cmd w) = .ok i)
    ∧ (∃ s : State, s.params.timeW ≤ 64 ∧ s.sampleNow.cmdAnswer = none ∧ s.loop.run = true
        ∧ (s.cfg.period.toNat : Int)
            < ((s.nowAnswer.toNat : Int) - (s.loop.lastTick.toNat : Int)) % 2 ^ s.params.timeW)
    ∧ (∃ s : State, s.params.timeW ≤ 64 ∧ s.sampleNow.cmdAnswer = none ∧ s.loop.run = true
        ∧ (s.cfg.period.toNat : Int)
            = ((s.nowAnswer.toNat : Int) - (s.loop.lastTick.toNat : Int)) % 2 ^ s.params.timeW)
    ∧ (∃ s : State, s.params.timeW ≤ 64 ∧ s.sampleNow.cmdAnswer = none ∧ s.loop.run = false) :=
  ⟨⟨withEnv 0 { (base 0).env with now := [7], cmd := [some 8] }, 8, .start, by decide⟩,
   ⟨{ withEnv 0 { (base 0).env with now := [10001], cmd := [none] } with cfg := ⟨0, 0, 10000⟩ }, by decide⟩,
   ⟨{ withEnv 0 { (base 0).env with now := [10000], cmd := [none] } with cfg := ⟨0, 0, 10000⟩ }, by decide⟩,
   ⟨{ State.reset with env := { (base 0).env with now := [5000], cmd := [none] } }, by decide⟩⟩

-- a tie, an infinity, the largest value that does not saturate
theorem witness_QuantRoundsHalfAwayAndSaturates :
    (∃ s : State, s.params.arith.isNan s.lat.out = false)
    ∧ ∀ x ∈ [0x38000000#32, 0x7F800000#32, 0xFF800000#32, 0x3F800000#32, 0x80000000#32],
      ∃ s : State, s.params.fp = .binary32 ∧ F32.isNan s.lat.out = false ∧ s.lat.out = x := by
  refine ⟨⟨base 5, by decide⟩, fun x hx => ?_⟩
  refine ⟨{ base 5 with lat := { State.reset.lat with out := x } }, rfl, ?_, rfl⟩
  change F32.isNan x = false
  simp only [List.mem_cons, List.not_mem_nil, or_false] at hx
  rcases hx with rfl | rfl | rfl | rfl | rfl <;> decide

theorem witness_LoopConfigurationCommandsWriteOneRegister : ∃ s : State, s.params.timeW ≤ 64 ∧ s.params.timeW = 32 :=
  ⟨State.reset, by decide⟩

theorem witness_StartArmsTheLoopOnce :
    (∃ s : State, s.loop.run = false) ∧ (∃ s : State, s.loop.run = true) :=
  ⟨⟨State.reset, rfl⟩, ⟨base 0, rfl⟩⟩

theorem witness_DecodedObjectsMatchTheirTableRow :
    decode (.uop 4#4 .second) = .ok .calcPid
    ∧ decode (.frameIn 0x0000007FF080000000000000000#106) = .error .notTelemetry := by decide

-- identifiers 0x1FF, 0x200, 0x201 and 0x208
theorem witness_InboundWordAndFrameDecodersAgree :
    decodeTelemetry (frameOf 0x1FF 8 0 0 0 0 0 0 0 0) = none
    ∧ decodeTelemetry (frameOf 0x200 8 0 0 0 0 0 0 0 0) = some ⟨-1, 0, 0, 0, 0⟩
    ∧ decodeTelemetry (frameOf 0x201 8 0 0 0 0 0 0 0 0) = some ⟨((0 : Fin 8).val : Int), 0, 0, 0, 0⟩
    ∧ decodeTelemetry (frameOf 0x208 8 0 0 0 0 0 0 0 0) = some ⟨((7 : Fin 8).val : Int), 0, 0, 0, 0⟩ := by decide

-- RX (one operation), COMPUTE, QUANT with and without a fault, phases 9 and 14
theorem witness_StepRunsTheOperationsOfThePhase :
    (∃ s : State, s.extAnswer = none ∧ decode (.uop s.phase .first) = .ok .tryReceive
        ∧ ∀ j, decode (.uop s.phase .second) ≠ .ok j)
    ∧ (∃ s : State, s.extAnswer = none ∧ decode (.uop s.phase .first) = .ok .calc3 ∧ s.phase = 4#4)
    ∧ (∃ s u : State, s.extAnswer = none ∧ s.phase ≠ 4#4 ∧ decode (.uop s.phase .first) = .ok .quant
        ∧ decode (.uop s.phase .second) = .ok .slotWrCmd ∧ exec .quant s = .next u ∧ u.phase = 15#4)
    ∧ (∃ s u : State, s.extAnswer = none ∧ s.phase ≠ 4#4 ∧ decode (.uop s.phase .first) = .ok .quant
        ∧ decode (.uop s.phase .second) = .ok .slotWrCmd ∧ exec .quant s = .next u ∧ u.phase ≠ 15#4)
    ∧ (∀ p ∈ [9#4, 14#4], ∃ (s : State) (e : DecodeError), s.extAnswer = none ∧ s.phase = p
        ∧ decode (.uop s.phase .first) = .error e) := by
  refine ⟨⟨base 1, rfl, rfl, fun j h => by cases h⟩, ⟨base 4, rfl, rfl, rfl⟩,
    ⟨{ base 5 with lat := { State.reset.lat with out := 0x7FC00000 } },
      { base 5 with lat := { State.reset.lat with out := 0x7FC00000 } }.raise 3 0x7FC00000, rfl, by decide, rfl, rfl,
      by rfl, rfl⟩,
    ⟨base 5, base 5, rfl, by decide, rfl, rfl, by rfl, by decide⟩, ?_⟩
  intro p hp
  exact ⟨base p, .undefinedPhase p, rfl, rfl, by revert p; decide⟩

theorem witness_StepRunsThePendingCommand :
    ∃ (s : State) (w : CmdWord) (i : Instr), s.extAnswer = none ∧ s.phase = 0#4 ∧ s.sampleNow.cmdAnswer = some w
      ∧ decode (.cmd w) = .ok i :=
  ⟨withEnv 0 { (base 0).env with now := [7], cmd := [some 8] }, 8, .start, by decide⟩

theorem witness_StepRunsTheFrameOrDebugRead :
    (∃ (s : State) (f : Frame) (i : Instr), s.extAnswer = none ∧ s.phase = 2#4 ∧ s.lat.rxf = some f
        ∧ decode (.frameIn f.toBits) = .ok i)
    ∧ (∃ s : State, s.extAnswer = none ∧ s.phase = 7#4
        ∧ decode (.frameOut s.lat.fra.toBits) = .ok (.cmdFrameA 1 2 3 4))
    ∧ (∃ s : State, s.extAnswer = none ∧ s.phase = 8#4
        ∧ decode (.frameOut s.lat.frb.toBits) = .ok (.cmdFrameB 1 2 3 4))
    ∧ (∀ sel : BitVec 3, ∃ s : State, s.extAnswer = some (.dbgRead sel)) :=
  ⟨⟨{ base 2 with lat := { State.reset.lat with rxf := some (frameOf 0x201 8 0 1 0 2 0 3 4 0) } },
      frameOf 0x201 8 0 1 0 2 0 3 4 0, .telem201 1 2 3 4, by decide⟩,
   ⟨{ base 7 with lat := { State.reset.lat with fra := frameA 1 2 3 4 } }, by decide⟩,
   ⟨{ base 8 with lat := { State.reset.lat with frb := frameB 1 2 3 4 } }, by decide⟩,
   fun sel => ⟨withExt 0 [some (.dbgRead sel)], rfl⟩⟩

/-- A state of the running block in phase `p`, which meets the invariant in each of the phases 0 to 8. -/
def running (p : BitVec 4) : State :=
  { base p with
    lat := { State.reset.lat with fra := frameA 0 0 0 0, frb := frameB 0 0 0 0 }
    env := { (base 0).env with rx := [none], tx := [true, false], now := [7], dt := [0x3F000000], cmd := [none] } }

/-- The invariant can be met in every phase of a tick and in IDLE. -/
theorem running_inv {p : BitVec 4} (h : p.toNat ≤ 8) : (running p).Inv where
  params := default_paramsLegal
  phaseLegal := .inl h
  faultIff := by
    constructor
    · exact fun e => absurd (show false = true from e) (by decide)
    · intro e
      rw [show p = 15#4 from e] at h
      exact absurd h (by decide)
  noFault := fun _ => ⟨rfl, rfl⟩
  causeLegal := fun e => absurd (show false = true from e) (by decide)
  commands := fun _ i => by
    rw [State.slot_of_rf (s := State.reset) (t := running p) rfl]
    revert i
    decide
  pending := fun _ => (by decide : cmdInRange 0#16 = true)
  limits := fun _ => (by decide : F32.le 0xC2C80000#32 0x42C80000#32 = true)
  period := (by decide : (0#64).toNat < 2 ^ 32)
  lastTick := (by decide : (0#64).toNat < 2 ^ 32)
  sampled := (by decide : (0#64).toNat < 2 ^ 32)
  running := fun _ => rfl
  target := fun _ => Nat.zero_le _
  output := fun _ => rfl
  clamped := fun _ _ => .inr (by decide :
    F32.le 0xC2C80000#32 0x00000000#32 = true ∧ F32.le 0x00000000#32 0x42C80000#32 = true)
  frames := fun _ => rfl

theorem witness_StepKeepsTheInvariant : ∃ s t : State, s.Inv ∧ step s = .next t ∧ s.phase = 7#4 :=
  ⟨running 7, _, running_inv (by decide), rfl, rfl⟩

-- each phase of the table, and a pending command in IDLE
theorem witness_PhaseTransitionsFollowTheTable :
    (∃ s : State, s.extAnswer = some .reset ∧ s.phase = 15#4)
    ∧ (∃ s : State, s.extAnswer = none ∧ s.phase = 15#4)
    ∧ (∀ p : BitVec 4, p.toNat ≤ 8 → ∃ s : State, s.Inv ∧ s.extAnswer = none ∧ s.phase ≠ 15#4 ∧ s.phase = p
        ∧ (s.phase = 0#4 →
            ∀ w op, s.sampleNow.cmdAnswer = some w → decode (.cmd w) ≠ .error (.reservedOpcode op))) :=
  ⟨⟨withExt 15 [some .reset], rfl, rfl⟩, ⟨base 15, rfl, rfl⟩, fun p h => ⟨running p, running_inv h, rfl,
    fun e => by rw [show p = 15#4 from e] at h; exact absurd h (by decide), rfl, fun _ _ _ e => nomatch e⟩⟩

/-- A QUANT phase about to write 8192 to slot 0. -/
def quantising : State := { base 5 with lat := { State.reset.lat with out := 0x3F000000 } }

-- a telemetry field, a command and a fault register change
theorem witness_StateIsWrittenOnlyByItsOwner :
    (∃ s t : State, s.extAnswer ≠ some .reset ∧ step s = .next t
        ∧ { t.slot 0 with commandedCurrent := 0#16 } ≠ { s.slot 0 with commandedCurrent := 0#16 })
    ∧ (∃ s t : State, s.extAnswer ≠ some .reset ∧ step s = .next t
        ∧ (t.slot 0).commandedCurrent ≠ (s.slot 0).commandedCurrent)
    ∧ (∃ s t : State, s.extAnswer ≠ some .reset ∧ step s = .next t ∧ t.flt ≠ s.flt) :=
  have noReset : (none : Option ExtEvent) ≠ some .reset := by decide
  ⟨⟨{ base 2 with lat := { State.reset.lat with rxf := some (frameOf 0x201 8 0 1 0 2 0 3 4 0) } }, _, noReset, rfl,
      by decide⟩,
    ⟨quantising, _, noReset,
      (step_of_phase (s := quantising) rfl).trans ((phaseStep_quant_some (s := quantising.popExt) (q := 8192) rfl
        (by decide)).trans (execSlotWrCmd_slot (k := 0) rfl)),
      by decide⟩,
    ⟨{ base 3 with cfg := ⟨0, 8, 0⟩ }, _, noReset, rfl, by decide⟩⟩

/-- A running block in IDLE, warm, with one command word pending at now = 7. -/
def hosted (w : CmdWord) : State :=
  { withEnv 0 { (base 0).env with now := [7], cmd := [some w] } with
    rt := ⟨1, 1, true, 1, 1⟩, loop := ⟨0, 0, false⟩ }

-- SET_PARAM (kp 1.0, limits -1.0 and 1.0), SET_TARGET, SET_SLOT, SET_PERIOD and START change what they own
theorem witness_StateIsWrittenOnlyByItsOwner_commands :
    (∃ s t : State, s.extAnswer ≠ some .reset ∧ step s = .next t ∧ t.rt ≠ s.rt
        ∧ (t.param.kp, t.param.ki, t.param.kd) ≠ (s.param.kp, s.param.ki, s.param.kd)
        ∧ (t.param.min, t.param.max) ≠ (s.param.min, s.param.max))
    ∧ (∃ s t : State, s.extAnswer ≠ some .reset ∧ step s = .next t ∧ t.cfg.targetRpm ≠ s.cfg.targetRpm)
    ∧ (∃ s t : State, s.extAnswer ≠ some .reset ∧ step s = .next t ∧ t.cfg.targetSlot ≠ s.cfg.targetSlot)
    ∧ (∃ s t : State, s.extAnswer ≠ some .reset ∧ step s = .next t ∧ t.cfg.period ≠ s.cfg.period)
    ∧ (∃ s t : State, s.extAnswer ≠ some .reset ∧ step s = .next t ∧ t.loop ≠ s.loop) :=
  have noReset : (none : Option ExtEvent) ≠ some .reset := by decide
  ⟨⟨hosted 0x3F800000BF80000000000000000000003F8000002, _, noReset, rfl,
      fun h => absurd (congrArg PidRuntime.pprValid h) (by decide), by decide, by decide⟩,
    ⟨hosted 0x44FA00005, _, noReset, rfl, by decide⟩, ⟨hosted 0x000000056, _, noReset, rfl, by decide⟩,
    ⟨hosted 0x000027107, _, noReset, rfl, by decide⟩, ⟨hosted 8, _, noReset, rfl, by decide⟩⟩

-- START and a fired tick change the loop's registers; each latch changes in its phase; PHASE changes in RX
theorem witness_StateIsWrittenOnlyByItsOwner_loop :
    (∃ s t : State, s.extAnswer ≠ some .reset ∧ step s = .next t ∧ t.loop.run ≠ s.loop.run
        ∧ t.loop.lastTick ≠ s.loop.lastTick)
    ∧ (∃ s t : State, s.extAnswer ≠ some .reset ∧ step s = .next t ∧ t.loop.lastTick ≠ s.loop.lastTick
        ∧ t.loop.dtLatch ≠ s.loop.dtLatch)
    ∧ (∃ s t : State, s.extAnswer ≠ some .reset ∧ step s = .next t ∧ t.lat.rxf ≠ s.lat.rxf ∧ t.phase ≠ s.phase)
    ∧ (∃ s t : State, s.extAnswer ≠ some .reset ∧ step s = .next t ∧ t.lat.act ≠ s.lat.act)
    ∧ (∃ s t : State, s.extAnswer ≠ some .reset ∧ step s = .next t ∧ t.lat.out ≠ s.lat.out)
    ∧ (∃ s t : State, s.extAnswer ≠ some .reset ∧ step s = .next t
        ∧ (t.lat.fra, t.lat.frb) ≠ (s.lat.fra, s.lat.frb)) :=
  have noReset : (none : Option ExtEvent) ≠ some .reset := by decide
  ⟨⟨hosted 8, _, noReset, rfl, by decide, by decide⟩,
    ⟨{ withEnv 0 { (base 0).env with now := [7], cmd := [none], dt := [0x3F800000] } with loop := ⟨0, 0, true⟩ }, _,
      noReset, rfl, by decide, by decide⟩,
    ⟨withEnv 1 { (base 1).env with rx := [some (frameOf 0x201 8 0 1 0 2 0 3 4 0)] }, _, noReset, rfl, by decide,
      by decide⟩,
    ⟨{ base 3 with rf := (State.reset.putTelemetry 0 ⟨0, 0, 2, 0, 0⟩).rf }, _, noReset, rfl, by decide⟩,
    ⟨{ base 4 with loop := ⟨0, 0x3F800000, true⟩, lat := { State.reset.lat with out := 1 } }, _, noReset, rfl,
      by decide⟩,
    ⟨base 6, _, noReset, rfl, by decide⟩⟩

theorem witness_CommandFramesAreOfferedAsBuilt :
    (∃ s : State, s.lat.fra = frameA 1 2 3 4) ∧ (∃ s : State, s.lat.frb = frameB 1 2 3 4) :=
  ⟨⟨{ base 7 with lat := { State.reset.lat with fra := frameA 1 2 3 4 } }, rfl⟩,
   ⟨{ base 8 with lat := { State.reset.lat with frb := frameB 1 2 3 4 } }, rfl⟩⟩

theorem witness_CommandsWaitOutsideIdle :
    ∃ s t : State, s.phase ≠ 0#4 ∧ step s = .next t ∧ s.env.cmd = [some 8] :=
  ⟨withEnv 3 { (base 0).env with cmd := [some 8] }, _, by decide, rfl, rfl⟩

theorem witness_BusIsUsedOnlyInItsPhases :
    (∃ s t : State, step s = .next t ∧ t.env.rx ≠ s.env.rx) ∧ (∃ s t : State, step s = .next t ∧ t.env.tx ≠ s.env.tx) :=
  ⟨⟨running 1, _, rfl, by decide⟩, ⟨running 8, _, rfl, by decide⟩⟩

theorem witness_PhasesRefineTheWholeTick :
    ∃ (s : State) (l : List (Option ExtEvent)), s.env.ext = List.replicate 8 none ++ l ∧ s.phase = 1#4 :=
  ⟨withExt 1 (List.replicate 8 none), [], rfl, rfl⟩

theorem witness_ArithmeticIsAParameter :
    (∃ p : Params, p.fp = .binary32) ∧ (∃ (p : Params) (n : Nat), p.fp = .other n)
    ∧ (∃ s t : State, step s = .next t) :=
  ⟨⟨Params.default, rfl⟩, ⟨{ Params.default with fp := .other 1 }, 1, rfl⟩, ⟨running 1, _, rfl⟩⟩

-- a debug read and a reset event in the middle of a tick, and in the HALT that the step before entered
theorem witness_OutsideEventsLandAfterAnyStep :
    ∀ e : ExtEvent, (∃ s t : State, s.env.ext = [none, some e] ∧ step s = .next t ∧ t.phase = 2#4)
      ∧ (∃ s t : State, s.env.ext = [none, some e] ∧ step s = .next t ∧ t.phase = 15#4) :=
  fun e => ⟨⟨withExt 1 [none, some e], _, rfl, rfl, rfl⟩,
    ⟨{ withExt 3 [none, some e] with cfg := ⟨0, 8, 0⟩ }, _, rfl, rfl, rfl⟩⟩

end Sys2Proof.Tests
end

/-! ### What the parameters name, and that no step writes them (rules R8 and R50) -/

namespace Sys2Proof.Machine

/-- The parameters that name another record give the opaque one. -/
theorem arith_other {p : Params} {n : Nat} (h : p.fp = .other n) : p.arith = Config.otherFP n := by
  rw [Params.arith, h]

@[simp] theorem calcStep_params (e : F32) (s : State) : (calcStep e s).params = s.params := by
  rcases calcStep_cases e s with ⟨-, h⟩ | ⟨-, h⟩ <;> rw [h] <;> rfl

theorem execCmdWord_params {w : CmdWord} {s t : State} (h : execCmdWord w s = .next t) :
    t.params = s.params := by
  obtain ⟨u, e, hc⟩ := execCmdWord_cases w s
  cases h.symm.trans e
  rcases hc with ⟨-, rfl⟩ | ⟨_, -, -, rfl, -⟩ | ⟨_, _, _, _, _, -, -, rfl, -⟩ | ⟨_, _, _, -, rfl⟩
    | ⟨_, _, -, -, rfl, -⟩ | ⟨_, _, -, -, rfl, -⟩ | ⟨_, -, rfl⟩ | ⟨_, -, rfl⟩ | ⟨_, _, -, rfl⟩ | ⟨-, rfl⟩
    | ⟨-, rfl⟩ <;> rfl

theorem execIdleStep_params {s t : State} (h : execIdleStep s = .next t) : t.params = s.params := by
  rcases execIdleStep_cases s with ⟨w, -, e⟩ | ⟨-, -, e⟩ | ⟨-, -, e⟩
  · exact execCmdWord_params (s := s.asked) (e.symm.trans h)
  · cases e.symm.trans h; rfl
  · cases e.symm.trans h; rfl

theorem phaseStep_params {s t : State} (h : phaseStep s = .next t) : t.params = s.params := by
  rcases phaseStep_next h with ⟨-, h⟩ | ⟨-, rfl⟩ | ⟨-, rfl⟩ | ⟨-, k, -, rfl⟩ | ⟨-, -, rfl⟩ | ⟨-, rfl⟩ | ⟨-, -, rfl⟩
    | ⟨-, q, -, k, -, rfl⟩ | ⟨-, q, -, -, rfl⟩ | ⟨-, rfl⟩ | ⟨-, rfl⟩ | ⟨-, rfl⟩
  · exact execIdleStep_params h
  all_goals simp

/-- The parameters are constants of the step relation (rule R50). -/
theorem step_params {s t : State} (h : step s = .next t) : t.params = s.params := by
  rcases step_next h with ⟨-, rfl⟩ | ⟨_, -, rfl⟩ | ⟨-, h⟩
  · rfl
  · rfl
  · exact phaseStep_params (s := s.popExt) h

/-- Settles O52: the record is read off the parameters' datum, and each case of a step keeps the parameters. -/
theorem arithmeticIsAParameter : Obligations.ArithmeticIsAParameter := by
  unfold Obligations.ArithmeticIsAParameter
  refine ⟨fun p h => ?_, fun p n h => arith_other h, rfl, fun s t h => step_params h⟩
  rw [arith_binary32 h]
  exact ⟨rfl, rfl, rfl, rfl, rfl, rfl, rfl, rfl, rfl, rfl⟩

end Sys2Proof.Machine

/-! ### What keeps the invariant

Between two micro-operations, too, the block meets the invariant, so each phase's proof is a chain of the rules
below: one for each update of the state, which names the clauses that the update touches. -/

namespace Sys2Proof.Machine

section
variable {s : State}

/-- While PHASE is not HALT the fault registers hold their reset values. -/
theorem State.Inv.flt_of_not_halt (h : s.Inv) (hp : s.phase ≠ Phase.halt) :
    s.flt.fault = false ∧ s.flt.cause = Cause.none ∧ s.flt.info = 0#32 := by
  have hf : s.flt.fault = false := by
    rw [← Bool.not_eq_true, h.faultIff]
    exact hp
  exact ⟨hf, h.noFault hf⟩

/-! The environment, the outputs and the count of free values stand in no clause. -/

theorem State.Inv.emit (h : s.Inv) (o : Output) : (s.emit o).Inv := { h with }

theorem State.Inv.popExt (h : s.Inv) : s.popExt.Inv := { h with }

theorem State.Inv.popTx_outs (h : s.Inv) (l : List Output) : ({ s.popTx with outs := l } : State).Inv := { h with }

/-- The clauses of the invariant about COMPUTE, QUANT, TXA and TXB. -/
structure State.PhaseClauses (s : State) : Prop where
  target : s.phase = Phase.compute ∨ s.phase = Phase.quant → s.cfg.targetSlot.toNat ≤ 7
  output : s.phase = Phase.quant → s.lat.out = s.rt.acc
  clamped : s.params.fp = .binary32 → s.phase = Phase.quant → withinLimits s.param s.rt.acc
  frames : s.phase = Phase.txa ∨ s.phase = Phase.txb → (s.lat.fra, s.lat.frb) = encodeFrames s.commands

/-- In the other phases they say nothing. -/
theorem State.PhaseClauses.of_plain {p : BitVec 4} (e : s.phase = p)
    (hp : p = Phase.idle ∨ p = Phase.rx ∨ p = Phase.decode ∨ p = Phase.lookup ∨ p = Phase.encode ∨ p = Phase.halt) :
    s.PhaseClauses := by
  have hq : ¬ s.phase = Phase.compute ∧ ¬ s.phase = Phase.quant ∧ ¬ s.phase = Phase.txa ∧ ¬ s.phase = Phase.txb := by
    rw [e]
    clear e
    revert p
    decide
  obtain ⟨h4, h5, h7, h8⟩ := hq
  constructor <;> simp [h4, h5, h7, h8]

/-- Taking a fault keeps the invariant: HALT is outside a tick, so only the fault clauses remain to hold. -/
theorem State.Inv.raise (h : s.Inv) {c : BitVec 3} (hc : 1 ≤ c.toNat ∧ c.toNat ≤ 4) (v : BitVec 32) :
    (s.raise c v).Inv :=
  { State.PhaseClauses.of_plain (s := s.raise c v) (p := Phase.halt) rfl (by decide), h with
    phaseLegal := .inr rfl
    faultIff := by simp
    noFault := fun e => Bool.noConfusion e
    causeLegal := fun _ => hc
    running := by simp [inTick] }

/-- The reset event leads to a state that meets the invariant, with the parameters it found. -/
theorem State.Inv.resetEvent (h : s.Inv) : s.resetEvent.Inv :=
  { State.PhaseClauses.of_plain (s := s.resetEvent) (p := Phase.idle) rfl (by decide) with
    params := h.params
    phaseLegal := .inl (Nat.zero_le _)
    faultIff := by simp [State.reset, Phase.halt]
    noFault := fun _ => ⟨rfl, rfl⟩
    causeLegal := fun e => Bool.noConfusion e
    commands := fun _ i => by
      rw [State.slot_of_rf (s := State.reset) (t := s.resetEvent) rfl]
      revert i
      decide
    pending := fun _ => (by decide : cmdInRange 0#16 = true)
    limits := fun _ => (by decide : F32.le 0#32 0#32 = true)
    period := Nat.two_pow_pos _
    lastTick := Nat.two_pow_pos _
    sampled := Nat.two_pow_pos _
    running := by simp [inTick, State.reset] }

/-- PHASE moves on: what has to hold is what the invariant says of the phase it moves to. A clause about another
phase than `p` is discharged by itself. -/
theorem State.Inv.withPhase (h : s.Inv) (hn : s.phase ≠ Phase.halt) (p : BitVec 4)
    (running : inTick p → s.loop.run = true)
    (hp : p.toNat ≤ 8 := by decide)
    (target : p = Phase.compute ∨ p = Phase.quant → s.cfg.targetSlot.toNat ≤ 7 := by
      exact fun e => absurd e (by decide))
    (output : p = Phase.quant → s.lat.out = s.rt.acc := by exact fun e => absurd e (by decide))
    (clamped : s.params.fp = .binary32 → p = Phase.quant → withinLimits s.param s.rt.acc := by
      exact fun _ e => absurd e (by decide))
    (frames : p = Phase.txa ∨ p = Phase.txb → (s.lat.fra, s.lat.frb) = encodeFrames s.commands := by
      exact fun e => absurd e (by decide)) : (s.withPhase p).Inv :=
  have hf : s.flt.fault = false := (h.flt_of_not_halt hn).1
  { h with
    phaseLegal := .inl hp
    faultIff := by
      have : p ≠ Phase.halt := fun e => absurd hp (by rw [e]; decide)
      simp [hf, this]
    running, target, output, clamped, frames }

/-- In a tick RUN is 1 and the block is not halted. -/
theorem State.Inv.run_of_inTick (h : s.Inv) {p : BitVec 4} (hp : s.phase = p)
    (ht : 1 ≤ p.toNat ∧ p.toNat ≤ 8 := by decide) : s.loop.run = true ∧ s.phase ≠ Phase.halt :=
  ⟨h.running (hp ▸ ht), fun e => absurd (hp.symm.trans e ▸ ht : 1 ≤ Phase.halt.toNat ∧ _) (by decide)⟩

/-! ### The register file -/

/-- REG_UPDATE's write leaves the commands alone, and in DECODE no frame is on offer. -/
theorem State.Inv.putTelemetry (h : s.Inv) (hp : s.phase = Phase.decode) (i : Fin 8) (d : Telem) :
    (s.putTelemetry i d).Inv :=
  { State.PhaseClauses.of_plain (s := s.putTelemetry i d) hp (by decide), h with
    commands := fun hb j => by simpa using h.commands hb j }

/-- SLOT_WR_CMD's write, of a command in range, in QUANT where no frame is on offer. -/
theorem State.Inv.putCommand (h : s.Inv) (hp : s.phase = Phase.quant) (i : Fin 8) {q : I16}
    (hq : s.params.fp = .binary32 → cmdInRange q = true) : (s.putCommand i q).Inv :=
  have hf : ¬ (s.phase = Phase.txa ∨ s.phase = Phase.txb) := by
    rw [hp]
    decide
  { h with
    commands := fun hb j => by
      by_cases hj : j = i
      · subst hj
        simpa using hq hb
      · rw [s.slot_putCommand_other q hj]
        exact h.commands hb j
    frames := fun e => absurd e hf }

/-! ### Host commands in IDLE (rules R171 to R178 and R215 to R218) -/

/-- PID_RESET: in IDLE nothing is said of the accumulator. -/
theorem State.Inv.clearRuntime (h : s.Inv) (hp : s.phase = Phase.idle) : s.clearRuntime.Inv :=
  { State.PhaseClauses.of_plain (s := s.clearRuntime) hp (by decide), h with }

/-- New parameters of the controller, with ordered limits: in IDLE nothing is said of the accumulator. -/
theorem State.Inv.withParam (h : s.Inv) (hp : s.phase = Phase.idle) {p : PidParam}
    (hl : s.params.fp = .binary32 → F32.le p.min p.max = true) : ({ s with param := p } : State).Inv :=
  { State.PhaseClauses.of_plain (s := { s with param := p }) hp (by decide), h with
    limits := hl }

theorem State.Inv.withTargetRpm (h : s.Inv) (r : F32) : ({ s with cfg := { s.cfg with targetRpm := r } } : State).Inv :=
  { h with }

/-- SET_SLOT takes any slot, since it is LOOKUP that checks the bounds. -/
theorem State.Inv.withTargetSlot (h : s.Inv) (hp : s.phase = Phase.idle) (n : Byte) :
    ({ s with cfg := { s.cfg with targetSlot := n } } : State).Inv :=
  { State.PhaseClauses.of_plain (s := { s with cfg := { s.cfg with targetSlot := n } }) hp (by decide), h with }

/-- A 64-bit count reduced modulo `2 ^ TIME_W` fits TIME_W. -/
theorem inTimeW_mod (p : Params) (n : Nat) : inTimeW p (BitVec.ofNat 64 (n % 2 ^ p.timeW)) :=
  lt_of_le_of_lt (by simpa using Nat.mod_le _ _) (Nat.mod_lt n (Nat.two_pow_pos p.timeW))

theorem State.Inv.withPeriod (h : s.Inv) (lo hi : BitVec 32) :
    ({ s with cfg := { s.cfg with period := periodOperand s.params lo hi } } : State).Inv :=
  { h with period := inTimeW_mod .. }

/-- START sets RUN and never clears it, and LAST_TICK takes a sample of the timebase. -/
theorem State.Inv.started (h : s.Inv) : ({ s with loop := s.loop.started s.loc.tNow } : State).Inv := by
  cases hr : s.loop.run with
  | true => simpa [LoopRegs.started, hr] using h
  | false =>
    have e : s.loop.started s.loc.tNow = { s.loop with run := true, lastTick := s.loc.tNow } := by
      simp [LoopRegs.started, hr]
    rw [e]
    exact { h with
      lastTick := h.sampled
      running := fun _ => rfl }

/-- LIMIT_CHECK lets ordered limits through, under the default record. -/
theorem le_of_arith_fle {p : Params} {lo hi : F32} (h : p.arith.fle lo hi = true) (hb : p.fp = .binary32) :
    F32.le lo hi = true := by
  rwa [arith_binary32 hb, binary32_fle] at h

/-- Every command word keeps the invariant in IDLE. -/
theorem State.Inv.execCmdWord (h : s.Inv) (hp : s.phase = Phase.idle) {w : CmdWord} {t : State}
    (ht : execCmdWord w s = .next t) : t.Inv := by
  obtain ⟨u, e, hc⟩ := execCmdWord_cases w s
  cases ht.symm.trans e
  rcases hc with ⟨-, rfl⟩ | ⟨p, -, hl, rfl, -⟩ | ⟨_, _, _, lo, hi, -, -, rfl, -⟩ | ⟨kp, ki, kd, -, rfl⟩
    | ⟨lo, hi, -, hl, rfl, -⟩ | ⟨lo, hi, -, -, rfl, -⟩ | ⟨r, -, rfl⟩ | ⟨n, -, rfl⟩ | ⟨lo, hi, -, rfl⟩ | ⟨-, rfl⟩
    | ⟨-, rfl⟩
  · exact h.clearRuntime hp
  · exact (h.withParam hp (le_of_arith_fle hl)).clearRuntime hp
  · exact h.raise (by decide) lo
  · exact (h.withParam (p := { s.param with kp, ki, kd }) hp h.limits).clearRuntime hp
  · exact h.withParam hp (le_of_arith_fle hl)
  · exact h.raise (by decide) lo
  · exact h.withTargetRpm r
  · exact h.withTargetSlot hp n
  · exact h.withPeriod lo hi
  · exact h.started
  · exact h.emit _

/-! ### The phases -/

/-- The exchanges of an IDLE step: the sample of the timebase fits TIME_W. -/
theorem State.Inv.asked (h : s.Inv) : s.asked.Inv := { h with sampled := inTimeW_mod .. }

/-- A tick that fires: RUN is 1, and LAST_TICK takes the sample. -/
theorem State.Inv.fireTick (h : s.Inv) (hp : s.phase = Phase.idle) (hr : s.loop.run = true) : s.fireTick.Inv := by
  have hl : ({ s.popDt with loop := { s.loop with lastTick := s.loc.tNow, dtLatch := s.dtAnswer } } : State).Inv :=
    { h with lastTick := h.sampled }
  exact hl.withPhase (fun e => absurd (hp.symm.trans e) (by decide)) Phase.rx fun _ => hr

theorem State.Inv.execIdleStep (h : s.Inv) (hp : s.phase = Phase.idle) {t : State}
    (ht : execIdleStep s = .next t) : t.Inv := by
  rcases execIdleStep_cases s with ⟨w, -, e⟩ | ⟨-, hd, e⟩ | ⟨-, -, e⟩
  · exact h.asked.execCmdWord hp (e.symm.trans ht)
  · cases e.symm.trans ht
    exact h.asked.fireTick hp hd.1
  · cases e.symm.trans ht
    exact h.asked

/-- RX to DECODE: the received frame stands in no clause. -/
theorem State.Inv.received (h : s.Inv) (hp : s.phase = Phase.rx) : s.received.Inv := by
  obtain ⟨hr, hn⟩ := h.run_of_inTick hp
  have hl : ({ s.popRx with lat := { s.lat with rxf := s.rxAnswer } } : State).Inv := { h with }
  exact hl.withPhase hn Phase.decode fun _ => hr

/-- DECODE to LOOKUP or HALT. -/
theorem State.Inv.registryUpdate (h : s.Inv) (hp : s.phase = Phase.decode) (d : Option Telem) :
    (registryUpdate d s).Inv := by
  obtain ⟨hr, hn⟩ := h.run_of_inTick hp
  rcases registryUpdate_cases d s with e | ⟨x, k, -, -, e⟩ | ⟨x, -, -, -, e⟩ <;> rw [e]
  · exact h.withPhase hn Phase.lookup fun _ => hr
  · exact (h.putTelemetry hp k x).withPhase hn Phase.lookup fun _ => hr
  · exact h.raise (by decide) _

/-- LOOKUP to COMPUTE, where the target slot is a slot. -/
theorem State.Inv.lookedUp (h : s.Inv) (hp : s.phase = Phase.lookup) (hs : s.cfg.targetSlot.toNat ≤ 7) (x : I16) :
    ({ s with lat := { s.lat with act := x }, phase := Phase.compute } : State).Inv := by
  obtain ⟨hr, hn⟩ := h.run_of_inTick hp
  have hl : ({ s with lat := { s.lat with act := x } } : State).Inv := { h with }
  exact hl.withPhase hn Phase.compute (fun _ => hr) (target := fun _ => hs)

/-- Under the default record and ordered limits the accumulator CALC stores lies within them or is a NaN
(rule R168). -/
theorem pidStep_withinLimits (p : PidParam) (hl : F32.le p.min p.max = true) (r : PidRuntime) (fd e dt : F32) :
    withinLimits p (pidStep FP.binary32 fd p r e dt).acc := clamp_within hl

/-- COMPUTE to QUANT: OUT and ACC take the same clamped value. -/
theorem State.Inv.calcDone (h : s.Inv) (hp : s.phase = Phase.compute) (e : F32) : (calcDone e s).Inv := by
  obtain ⟨hr, hn⟩ := h.run_of_inTick hp
  have hx : ¬ s.phase = Phase.quant ∧ ¬ (s.phase = Phase.txa ∨ s.phase = Phase.txb) := by
    rw [hp]
    decide
  have hl : ({ s with rt := (Machine.calcDone e s).rt, lat := (Machine.calcDone e s).lat } : State).Inv :=
    { h with
      output := fun _ => rfl
      clamped := fun _ g => absurd g hx.1
      frames := fun g => absurd g hx.2 }
  refine hl.withPhase hn Phase.quant (fun _ => hr) (target := fun _ => h.target (.inl hp)) (output := fun _ => rfl)
    (clamped := fun hb _ => ?_)
  rw [calcDone_rt, arith_binary32 hb]
  exact pidStep_withinLimits _ (h.limits hb) ..

/-- COMPUTE to QUANT or HALT. -/
theorem State.Inv.calcStep (h : s.Inv) (hp : s.phase = Phase.compute) (e : F32) : (calcStep e s).Inv := by
  rcases calcStep_cases e s with ⟨-, c⟩ | ⟨-, c⟩ <;> rw [c]
  · exact h.calcDone hp e
  · exact h.raise (by decide) _

/-- QUANT hands over a command in range. -/
theorem State.Inv.quantized (h : s.Inv) {out : F32} {q : I16} (hq : quantize s.params.arith out = some q) :
    (s.quantized q).Inv :=
  { h with pending := fun hb => quantize_range (out := out) (by rwa [← arith_binary32 hb]) }

/-- ENCODE to TXA: the frames are made from the snapshot just taken. -/
theorem State.Inv.encoded (h : s.Inv) (hp : s.phase = Phase.encode) : s.encoded.Inv := by
  obtain ⟨hr, hn⟩ := h.run_of_inTick hp
  have hl : ({ s with
      loc := { s.loc with snap := s.commands }
      lat := { s.lat with fra := (encodeFrames s.commands).1, frb := (encodeFrames s.commands).2 } } : State).Inv :=
    { h with frames := fun _ => rfl }
  exact hl.withPhase hn Phase.txa (fun _ => hr) (frames := fun _ => rfl)

/-- An offer moves PHASE on and leaves every register alone. -/
theorem offerFrame_eq_withPhase (f : Frame) (e : DiagEvent) (p : BitVec 4) (s : State) :
    offerFrame f e p s = ({ s.popTx with outs := (offerFrame f e p s).outs } : State).withPhase p := by
  rw [offerFrame_eq]
  rfl

/-- TXA to TXB: the frames on offer stay. -/
theorem State.Inv.offeredA (h : s.Inv) (hp : s.phase = Phase.txa) (f : Frame) (e : DiagEvent) :
    (offerFrame f e Phase.txb s).Inv := by
  obtain ⟨hr, hn⟩ := h.run_of_inTick hp
  rw [offerFrame_eq_withPhase]
  exact (h.popTx_outs _).withPhase hn Phase.txb (fun _ => hr) (frames := fun _ => h.frames (.inl hp))

/-- TXB to IDLE. -/
theorem State.Inv.offeredB (h : s.Inv) (hp : s.phase = Phase.txb) (f : Frame) (e : DiagEvent) :
    (offerFrame f e Phase.idle s).Inv := by
  obtain ⟨hr, hn⟩ := h.run_of_inTick hp
  rw [offerFrame_eq_withPhase]
  exact (h.popTx_outs _).withPhase hn Phase.idle fun _ => hr

/-- Every phase keeps the invariant. -/
theorem State.Inv.phaseStep (h : s.Inv) {t : State} (ht : phaseStep s = .next t) : t.Inv := by
  rcases phaseStep_next ht with ⟨hp, ht⟩ | ⟨hp, rfl⟩ | ⟨hp, rfl⟩ | ⟨hp, k, hk, rfl⟩ | ⟨-, -, rfl⟩ | ⟨hp, rfl⟩
    | ⟨-, -, rfl⟩ | ⟨hp, q, hq, k, -, rfl⟩ | ⟨-, q, hq, -, rfl⟩ | ⟨hp, rfl⟩ | ⟨hp, rfl⟩ | ⟨hp, rfl⟩
  · exact h.execIdleStep hp ht
  · exact h.received hp
  · exact State.Inv.registryUpdate (s := s.decoded) { h with } hp _
  · exact h.lookedUp hp (by omega) _
  · exact h.raise (by decide) _
  · exact State.Inv.calcStep (s := s.withError) { h with } hp _
  · exact h.raise (by decide) _
  · obtain ⟨hr, hn⟩ := h.run_of_inTick hp
    have hQ := h.quantized hq
    exact (hQ.putCommand hp k hQ.pending).withPhase hn Phase.encode fun _ => hr
  · exact (h.quantized hq).raise (by decide) _
  · exact h.encoded hp
  · exact h.offeredA hp _ _
  · exact h.offeredB hp _ _

end

/-- Settles O46, by the cases of a step: the reset event, a debug read, or the work of one phase. -/
theorem stepKeepsTheInvariant : Obligations.StepKeepsTheInvariant := by
  unfold Obligations.StepKeepsTheInvariant
  intro s t h ht
  rcases step_next ht with ⟨-, rfl⟩ | ⟨_, -, rfl⟩ | ⟨-, ht⟩
  · exact h.popExt.resetEvent
  · exact h.popExt.emit _
  · exact h.popExt.phaseStep ht

end Sys2Proof.Machine

/-! ### The four operations as one rounding of an exact value (rule R151) -/

namespace Sys2Proof.F32

theorem pack_zero (s : Bool) : pack s 0 = zero s := by cases s <;> decide

theorem sign_of_val_neg {a : F32} (h : val a < 0) : sign a = true := by
  by_contra hs
  rw [val_of_sign, if_neg hs] at h
  omega

theorem sign_of_val_pos {a : F32} (h : 0 < val a) : sign a = false := by
  by_contra hs
  rw [val_of_sign, if_pos (Bool.not_eq_false _ ▸ hs)] at h
  omega

/-- The sign of a nonzero product is the exclusive or of the signs. -/
theorem xor_sign_of_mul {a b : F32} :
    (val a * val b < 0 → (sign a != sign b) = true) ∧ (0 < val a * val b → (sign a != sign b) = false) := by
  constructor
  · intro h
    rcases mul_neg_iff.mp h with ⟨ha, hb⟩ | ⟨ha, hb⟩
    · rw [sign_of_val_pos ha, sign_of_val_neg hb]; rfl
    · rw [sign_of_val_neg ha, sign_of_val_pos hb]; rfl
  · intro h
    rcases mul_pos_iff.mp h with ⟨ha, hb⟩ | ⟨ha, hb⟩
    · rw [sign_of_val_pos ha, sign_of_val_pos hb]; rfl
    · rw [sign_of_val_neg ha, sign_of_val_neg hb]; rfl

/-- A sum of finite operands is its exact value rounded once, with the value's sign; an exact zero has the
sign of a packed zero. -/
theorem addWith_eq_pack {a b : F32} (nan : F32) (ha : isFinite a = true) (hb : isFinite b = true) :
    ∃ s, (val a + val b ≠ 0 → s = decide (val a + val b < 0))
      ∧ addWith nan a b = pack s (roundMag (val a + val b).natAbs 1) := by
  rw [addWith_finite nan ha hb]
  by_cases h : val a + val b = 0
  · refine ⟨sign a && sign b, fun g => absurd h g, ?_⟩
    rw [if_pos h, h, Int.natAbs_zero, roundMag_zero Nat.one_pos, pack_zero]
  · exact ⟨_, fun _ => rfl, if_neg h⟩

/-- A product of finite operands is its exact value, in units of 2^-298, rounded once. -/
theorem mul_eq_pack {a b : F32} (ha : isFinite a = true) (hb : isFinite b = true) :
    mul a b = pack (sign a != sign b) (roundMag (val a * val b).natAbs (2 ^ 149)) := by
  rw [mul_finite ha hb, Int.natAbs_mul, natAbs_val, natAbs_val]

/-- A quotient of finite operands is its exact value rounded once. -/
theorem div_eq_pack {a b : F32} (ha : isFinite a = true) (hb : isFinite b = true) (hz : isZero b = false) :
    div a b = pack (sign a != sign b) (roundMag (val a * 2 ^ 149).natAbs (val b).natAbs) := by
  rw [div_finite ha hb hz, Int.natAbs_mul, natAbs_val, natAbs_val]
  rfl

/-- A divisor that is no zero has a magnitude. -/
theorem mag_pos {a : F32} (h : isZero a = false) : 0 < mag a :=
  Nat.pos_of_ne_zero fun e => Bool.false_ne_true (h.symm.trans (mag_eq_zero.mp e))

/-! ### Nearest, ties to even -/

/-- `r` is as near to `x / den` as `c` is, and where both are equally near and differ the last bit of `r` is
even; compared after multiplying by `den`. -/
def NearestEven (x den : Int) (r c : F32) : Prop :=
  |x - val r * den| ≤ |x - val c * den|
    ∧ (|x - val r * den| = |x - val c * den| → val c ≠ val r → r.getLsbD 0 = false)

/-- The signs of numerator and denominator may change together. -/
theorem nearestEven_neg {x den : Int} {r c : F32} : NearestEven (-x) (-den) r c ↔ NearestEven x den r c := by
  have e : ∀ y : Int, |-x - y * -den| = |x - y * den| := fun y => by
    rw [← abs_neg]
    congr 1
    ring
  rw [NearestEven, NearestEven, e, e]

/-- One rounding with the exact value's sign. -/
theorem nearestEven_pack {x : Int} {den : Nat} {s : Bool} {c : F32} (hden : 0 < den)
    (hneg : x < 0 → s = true) (hpos : 0 < x → s = false)
    (hfin : isFinite (pack s (roundMag x.natAbs den)) = true) (hc : isFinite c = true) :
    NearestEven x den (pack s (roundMag x.natAbs den)) c :=
  nearest_signed hden hneg hpos hfin hc

theorem addWith_nearestEven {nan a b c : F32} (ha : isFinite a = true) (hb : isFinite b = true)
    (hc : isFinite c = true) (hr : isFinite (addWith nan a b) = true) :
    NearestEven (val a + val b) 1 (addWith nan a b) c := by
  obtain ⟨s, hs, e⟩ := addWith_eq_pack nan ha hb
  rw [e] at hr ⊢
  refine nearestEven_pack Nat.one_pos (fun h => ?_) (fun h => ?_) hr hc
  · rw [hs h.ne, decide_eq_true h]
  · rw [hs h.ne', decide_eq_false h.not_gt]

theorem add_nearestEven {a b c : F32} (ha : isFinite a = true) (hb : isFinite b = true)
    (hc : isFinite c = true) (hr : isFinite (add a b) = true) : NearestEven (val a + val b) 1 (add a b) c :=
  addWith_nearestEven ha hb hc hr

theorem sub_nearestEven {a b c : F32} (ha : isFinite a = true) (hb : isFinite b = true)
    (hc : isFinite c = true) (hr : isFinite (sub a b) = true) : NearestEven (val a - val b) 1 (sub a b) c := by
  rw [sub_eq_add_neg, ← val_neg]
  exact addWith_nearestEven ha ((isFinite_neg b).trans hb) hc hr

theorem mul_nearestEven {a b c : F32} (ha : isFinite a = true) (hb : isFinite b = true)
    (hc : isFinite c = true) (hr : isFinite (mul a b) = true) :
    NearestEven (val a * val b) (2 ^ 149) (mul a b) c := by
  rw [mul_eq_pack ha hb] at hr ⊢
  exact_mod_cast nearestEven_pack (Nat.two_pow_pos 149) xor_sign_of_mul.1 xor_sign_of_mul.2 hr hc

/-- A negative divisor is a positive one under the negated dividend. -/
theorem div_nearestEven {a b c : F32} (ha : isFinite a = true) (hb : isFinite b = true) (hz : isZero b = false)
    (hc : isFinite c = true) (hr : isFinite (div a b) = true) :
    NearestEven (val a * 2 ^ 149) (val b) (div a b) c := by
  have hP : (0 : Int) < 2 ^ 149 := by positivity
  rw [div_eq_pack ha hb hz, natAbs_val] at hr ⊢
  rw [val_of_sign b]
  cases hs : sign b with
  | false =>
    rw [hs] at hr
    refine nearestEven_pack (mag_pos hz) (fun h => ?_) (fun h => ?_) hr hc
    · rw [sign_of_val_neg (neg_of_mul_neg_left h hP.le)]; rfl
    · rw [sign_of_val_pos (pos_of_mul_pos_left h hP.le)]; rfl
  | true =>
    rw [hs] at hr
    rw [← nearestEven_neg, if_pos rfl, neg_neg]
    rw [← Int.natAbs_neg] at hr ⊢
    refine nearestEven_pack (mag_pos hz) (fun h => ?_) (fun h => ?_) hr hc
    · rw [sign_of_val_pos (pos_of_mul_pos_left (neg_lt_zero.mp h) hP.le)]; rfl
    · rw [sign_of_val_neg (neg_of_mul_neg_left (neg_pos.mp h) hP.le)]; rfl

/-- Settles O29: each operation rounds its exact value once, and one rounding goes to the nearest. -/
theorem arithmeticRoundsToNearestTiesToEven : Obligations.ArithmeticRoundsToNearestTiesToEven := by
  unfold Obligations.ArithmeticRoundsToNearestTiesToEven
  intro a b c ha hb hc
  refine ⟨fun hr => ?_, fun hr => ?_, fun hr => mul_nearestEven ha hb hc hr,
    fun hz hr => div_nearestEven ha hb hz hc hr⟩
  · simpa only [NearestEven, mul_one] using add_nearestEven ha hb hc hr
  · simpa only [NearestEven, mul_one] using sub_nearestEven ha hb hc hr

end Sys2Proof.F32

/-! ### Special values (rule R11) -/

namespace Sys2Proof.F32

open Sys2Proof.Claims

@[simp] theorem neg_inf (p : Bool) : neg (inf p) = inf (!p) := by cases p <;> decide

theorem addWith_of_isNan {nan a b : F32} (h : isNan a = true ∨ isNan b = true) : addWith nan a b = nan := by
  rcases h with h | h <;> simp [addWith, h]

theorem mul_of_isNan {a b : F32} (h : isNan a = true ∨ isNan b = true) : mul a b = nanOf .mul a b := by
  rcases h with h | h <;> simp [mul, h]

theorem div_of_isNan {a b : F32} (h : isNan a = true ∨ isNan b = true) : div a b = nanOf .div a b := by
  rcases h with h | h <;> simp [div, h]

/-- An infinity and its opposite have no sum. -/
theorem addWith_inf_opposite (nan : F32) (p : Bool) : addWith nan (inf p) (inf (!p)) = nan := by
  cases p <;> simp [addWith]

theorem addWith_inf_same (nan : F32) (p : Bool) : addWith nan (inf p) (inf p) = inf p := by simp [addWith]

theorem addWith_inf_finite {a : F32} (nan : F32) (q : Bool) (h : isFinite a = true) :
    addWith nan (inf q) a = inf q ∧ addWith nan a (inf q) = inf q := by
  simp [addWith, not_isNan_of_finite h, not_isInf_of_finite h]

theorem mul_zero_inf (p q : Bool) :
    isNan (mul (zero p) (inf q)) = true ∧ isNan (mul (inf q) (zero p)) = true := by simp [mul]

theorem mul_inf_inf (p q : Bool) : mul (inf p) (inf q) = inf (p != q) := by simp [mul]

theorem mul_inf_finite {a : F32} (q : Bool) (h : isFinite a = true) (hz : isZero a = false) :
    mul (inf q) a = inf (q != sign a) ∧ mul a (inf q) = inf (sign a != q) := by
  simp [mul, not_isNan_of_finite h, not_isInf_of_finite h, hz]

theorem div_zero_zero (p q : Bool) : isNan (div (zero p) (zero q)) = true := by simp [div]

theorem div_inf_inf (p q : Bool) : isNan (div (inf p) (inf q)) = true := by simp [div]

theorem div_finite_zero {a : F32} (q : Bool) (h : isFinite a = true) (hz : isZero a = false) :
    div a (zero q) = inf (sign a != q) := by
  simp [div, not_isNan_of_finite h, not_isInf_of_finite h, hz]

theorem div_inf_finite {a : F32} (q : Bool) (h : isFinite a = true) :
    div (inf q) a = inf (q != sign a) ∧ div a (inf q) = zero (sign a != q) := by
  simp [div, not_isNan_of_finite h, not_isInf_of_finite h]

/-- One rounding overflows rightly, whatever sign an exact zero gets. -/
theorem overflowsRightly_pack {s negative : Bool} {num den : Nat} (hden : 0 < den) (hs : num ≠ 0 → s = negative) :
    OverflowsRightly (pack s (roundMag num den)) negative num den := by
  obtain ⟨hinf, hfin⟩ := pack_roundMag_overflow s num hden
  refine ⟨fun h => ?_, hfin⟩
  have hbound := Nat.sub_pos_of_lt (Nat.pow_lt_pow_right Nat.one_lt_two (show 252 < 277 by decide))
  have hnum : num ≠ 0 := (lt_of_lt_of_le (Nat.mul_pos hbound hden) h).ne'
  rw [hinf h, hs hnum]

theorem addWith_overflowsRightly {a b : F32} (nan : F32) (ha : isFinite a = true) (hb : isFinite b = true) :
    OverflowsRightly (addWith nan a b) (decide (val a + val b < 0)) (val a + val b).natAbs 1 := by
  obtain ⟨s, hs, e⟩ := addWith_eq_pack nan ha hb
  rw [e]
  exact overflowsRightly_pack Nat.one_pos fun h => hs (Int.natAbs_ne_zero.mp h)

theorem sub_overflowsRightly {a b : F32} (ha : isFinite a = true) (hb : isFinite b = true) :
    OverflowsRightly (sub a b) (decide (val a - val b < 0)) (val a - val b).natAbs 1 := by
  rw [sub_eq_add_neg, ← val_neg]
  exact addWith_overflowsRightly _ ha ((isFinite_neg b).trans hb)

theorem mul_overflowsRightly {a b : F32} (ha : isFinite a = true) (hb : isFinite b = true) :
    OverflowsRightly (mul a b) (sign a != sign b) (val a * val b).natAbs (2 ^ 149) := by
  rw [mul_eq_pack ha hb]
  exact overflowsRightly_pack (Nat.two_pow_pos 149) fun _ => rfl

theorem div_overflowsRightly {a b : F32} (ha : isFinite a = true) (hb : isFinite b = true) (hz : isZero b = false) :
    OverflowsRightly (div a b) (sign a != sign b) (val a * 2 ^ 149).natAbs (val b).natAbs := by
  rw [div_eq_pack ha hb hz]
  exact overflowsRightly_pack ((natAbs_val b).symm ▸ mag_pos hz) fun _ => rfl

/-- Settles O30, row by row of the table; overflow is where one rounding reaches 2^277 units. -/
theorem arithmeticSpecialValuesFollowTheTable : Obligations.ArithmeticSpecialValuesFollowTheTable := by
  unfold Obligations.ArithmeticSpecialValuesFollowTheTable
  refine ⟨fun a b h => ?nan, fun p q => ?infinities, fun a q h hz => div_finite_zero q h hz, fun a q h => ?infinite,
    fun a b ha hb => ?finite⟩
  case nan =>
    refine ⟨?_, ?_, ?_, ?_⟩
    · rw [add, addWith_of_isNan h, isNan_nanOf]
    · rw [sub, addWith_of_isNan (by rwa [isNan_neg]), isNan_nanOf]
    · rw [mul_of_isNan h, isNan_nanOf]
    · rw [div_of_isNan h, isNan_nanOf]
  case infinities =>
    obtain ⟨hzi, hiz⟩ := mul_zero_inf p q
    refine ⟨?_, ?_, hzi, hiz, div_zero_zero p q, div_inf_inf p q, addWith_inf_same _ p, ?_, mul_inf_inf p q⟩
    · rw [add, addWith_inf_opposite, isNan_nanOf]
    · rw [sub, neg_inf, addWith_inf_opposite, isNan_nanOf]
    · rw [sub, neg_inf, Bool.not_not, addWith_inf_same]
  case infinite =>
    have hn : isFinite (neg a) = true := (isFinite_neg a).trans h
    obtain ⟨hdi, hid⟩ := div_inf_finite q h
    refine ⟨(addWith_inf_finite _ q h).1, (addWith_inf_finite _ q h).2, (addWith_inf_finite _ q hn).1, ?_,
      mul_inf_finite q h, hdi, hid⟩
    rw [sub, neg_inf, (addWith_inf_finite _ (!q) h).2]
  case finite =>
    exact ⟨addWith_overflowsRightly _ ha hb, sub_overflowsRightly ha hb, mul_overflowsRightly ha hb,
      div_overflowsRightly ha hb⟩

end Sys2Proof.F32

/-! ### Conversions and comparisons (rule R11) -/

namespace Sys2Proof.F32

/-- An i16's magnitude is representable. -/
theorem representable_i16 (x : I16) :
    Representable (x.toInt.natAbs * 2 ^ 149) ∧ x.toInt.natAbs * 2 ^ 149 < 2 ^ 277 := by
  have h : x.toInt.natAbs < 2 ^ 24 := by
    have h1 := BitVec.le_toInt x
    have h2 := BitVec.toInt_lt (x := x)
    omega
  refine ⟨representable_scale (.inl h) 149, ?_⟩
  calc x.toInt.natAbs * 2 ^ 149 < 2 ^ 24 * 2 ^ 149 := Nat.mul_lt_mul_of_pos_right h (Nat.two_pow_pos _)
    _ = 2 ^ 173 := (Nat.pow_add ..).symm
    _ ≤ 2 ^ 277 := Nat.pow_le_pow_right (by decide) (by decide)

/-- `i16_to_f32` is exact. -/
theorem ofI16_exact (x : I16) : isFinite (ofI16 x) = true ∧ val (ofI16 x) = x.toInt * 2 ^ 149 := by
  obtain ⟨hr, hlt⟩ := representable_i16 x
  refine ⟨(pack_representable hr hlt).1, ?_⟩
  rw [ofI16, val_pack hr hlt, BitVec.msb_eq_toInt]
  push_cast
  by_cases h : x.toInt < 0
  · rw [if_pos (decide_eq_true h), abs_of_neg h, neg_mul, neg_neg]
  · rw [if_neg (by simpa using h), abs_of_nonneg (not_lt.mp h)]

theorem roundHaz_of_not_finite {a : F32} (h : isFinite a = false) : roundHaz a = a :=
  if_pos (isFinite_eq_false.mp h)

/-- `fround_haz` packs the nearest integer, ties away from zero, under the operand's sign. -/
theorem roundHaz_finite {a : F32} (h : isFinite a = true) :
    isFinite (roundHaz a) = true ∧ sign (roundHaz a) = sign a
      ∧ mag (roundHaz a) = (2 * mag a + 2 ^ 149) / 2 ^ 150 * 2 ^ 149 := by
  obtain ⟨hr, hlt⟩ := representable_mag h
  obtain ⟨hr', hlt'⟩ := representable_roundHaz hr hlt
  rw [roundHaz, if_neg (isFinite_iff.mp h)]
  exact pack_representable hr' hlt'

theorem cmp_of_isNan {a b : F32} (h : isNan a = true ∨ isNan b = true) : lt a b = false ∧ le a b = false := by
  rcases h with h | h <;> simp [lt, le, h]

/-- Operands that are no NaN are ordered by their values. -/
theorem cmp_of_not_isNan {a b : F32} (ha : isNan a = false) (hb : isNan b = false) :
    lt a b = decide (val a < val b) ∧ le a b = decide (val a ≤ val b) := by
  simp [lt, le, ha, hb]

theorem mag_inf (p : Bool) : mag (inf p) = 2 ^ 23 * 2 ^ 254 := by cases p <;> decide

/-- Every finite value lies between those of the two infinities. -/
theorem val_between_inf {a : F32} (h : isFinite a = true) :
    val (inf true) < val a ∧ val a < val (inf false) := by
  have hm : mag a < 2 ^ 23 * 2 ^ 254 := by
    rw [← Nat.pow_add]
    exact (representable_mag h).2
  rw [← natAbs_val] at hm
  rw [val_of_sign (inf true), val_of_sign (inf false), sign_inf, sign_inf, mag_inf, mag_inf]
  generalize 2 ^ 23 * 2 ^ 254 = P at hm
  simp only [if_true, Bool.false_eq_true, if_false]
  omega

/-- The comparisons put a finite operand between the infinities. -/
theorem cmp_inf {a : F32} (p : Bool) (h : isFinite a = true) :
    lt a (inf p) = (!p) ∧ le a (inf p) = (!p) ∧ lt (inf p) a = p ∧ le (inf p) a = p := by
  obtain ⟨hlo, hhi⟩ := val_between_inf h
  have hn := not_isNan_of_finite h
  obtain ⟨h1, h2⟩ := cmp_of_not_isNan hn (isNan_inf p)
  obtain ⟨h3, h4⟩ := cmp_of_not_isNan (isNan_inf p) hn
  rw [h1, h2, h3, h4]
  cases p
  · simp [hhi, hhi.le, hhi.not_gt, hhi.not_ge]
  · simp [hlo, hlo.le, hlo.not_gt, hlo.not_ge]

/-- Settles O31: a conversion packs a representable magnitude, and a comparison compares exact values. -/
theorem conversionsAndComparisonsAreExact : Obligations.ConversionsAndComparisonsAreExact := by
  unfold Obligations.ConversionsAndComparisonsAreExact
  refine ⟨ofI16_exact, fun a h => roundHaz_of_not_finite h, fun a h => roundHaz_finite h, fun a b h => cmp_of_isNan h,
    fun a b ha hb => cmp_of_not_isNan (not_isNan_of_finite ha) (not_isNan_of_finite hb), fun p q => ?_,
    fun a p h => cmp_inf p h, by decide⟩
  obtain ⟨hlt, hle⟩ := cmp_of_not_isNan (isNan_zero p) (isNan_zero q)
  rw [hlt, hle, val_zero, val_zero]
  decide

end Sys2Proof.F32

/-! ### While PPR_VALID is 0 nothing reads PREV_PR (rule R33)

Two states that differ in PREV_PR alone are taken through one step, phase by phase. An operation that does not look
at the controller treats them alike; CALC takes the branch of PPR_VALID = 0 in both. -/

namespace Sys2Proof.Machine

open Sys2Proof.Claims

/-- The state with other bits in PREV_PR. -/
def State.withPrevPr (s : State) (x : F32) : State := { s with rt := { s.rt with prevPr := x } }

/-- Next states that differ in the bits of PREV_PR look the same once it is hidden. -/
theorem hideOutcome_next_of_eq_withPrevPr {s t : State} {x : F32} (h : t = s.withPrevPr x) :
    hideOutcome (.next t) = hideOutcome (.next s) := by
  rw [h]
  rfl

/-- An operation behind a test that does not look at PREV_PR is treated branch by branch. -/
theorem hideOutcome_ite {c : Prop} [Decidable c] {a a' b b' : Outcome} (ha : hideOutcome a' = hideOutcome a)
    (hb : hideOutcome b' = hideOutcome b) :
    hideOutcome (if c then a' else b') = hideOutcome (if c then a else b) := by
  rw [apply_ite hideOutcome, apply_ite hideOutcome, ha, hb]

section
variable (s : State) (x : F32)

theorem offerFrame_withPrevPr (f : Frame) (e : DiagEvent) (p : BitVec 4) :
    offerFrame f e p (s.withPrevPr x) = (offerFrame f e p s).withPrevPr x := by
  rw [offerFrame_eq, offerFrame_eq]
  rfl

theorem registryUpdate_withPrevPr (d : Option Telem) :
    registryUpdate d (s.withPrevPr x) = (registryUpdate d s).withPrevPr x := by
  cases d with
  | none => rfl
  | some t =>
    by_cases h : t.idx < 0 ∨ 7 < t.idx
    · cases hp : s.params.id200 with
      | fault =>
        rw [registryUpdate_fault h hp, registryUpdate_fault (s := s.withPrevPr x) h hp]
        rfl
      | drop =>
        rw [registryUpdate_drop h hp, registryUpdate_drop (s := s.withPrevPr x) h hp]
        rfl
    · have hk : t.idx = ((⟨t.idx.toNat, by omega⟩ : Fin 8).val : Int) :=
        (Int.toNat_of_nonneg (by omega)).symm
      rw [registryUpdate_slot _ hk, registryUpdate_slot _ hk]
      rfl

theorem hideOutcome_execSlotRd : hideOutcome (execSlotRd (s.withPrevPr x)) = hideOutcome (execSlotRd s) := by
  rcases target_cases s with ⟨k, hk⟩ | hk
  · rw [execSlotRd_slot hk, execSlotRd_slot (s := s.withPrevPr x) hk]
    rfl
  · rw [execSlotRd_fault hk, execSlotRd_fault (s := s.withPrevPr x) hk]
    rfl

theorem hideOutcome_execSlotWrCmd :
    hideOutcome (execSlotWrCmd (s.withPrevPr x)) = hideOutcome (execSlotWrCmd s) := by
  rcases target_cases s with ⟨k, hk⟩ | hk
  · rw [execSlotWrCmd_slot hk, execSlotWrCmd_slot (s := s.withPrevPr x) hk]
    rfl
  · rw [execSlotWrCmd_fault hk, execSlotWrCmd_fault (s := s.withPrevPr x) hk]
    rfl

/-- A host command overwrites PREV_PR or leaves it, and its only test is of its own operands. -/
theorem hideOutcome_execCmdWord (w : CmdWord) :
    hideOutcome (execCmdWord w (s.withPrevPr x)) = hideOutcome (execCmdWord w s) := by
  cases hd : decodeCmd w with
  | error e =>
    simp only [execCmdWord, hd]
    rfl
  | ok i =>
    rw [execCmdWord_decoded hd, execCmdWord_decoded hd]
    rcases decodeCmd_ok hd with rfl | ⟨kp, ki, kd, lo, hi, rfl⟩ | ⟨kp, ki, kd, rfl⟩ | ⟨lo, hi, rfl⟩ | ⟨r, rfl⟩
      | ⟨n, rfl⟩ | ⟨lo, hi, rfl⟩ | rfl
    · rfl
    · exact hideOutcome_ite rfl rfl
    · rfl
    · exact hideOutcome_ite rfl rfl
    all_goals rfl

/-- The IDLE step with no command pending: a tick, or nothing. -/
theorem execIdleStep_quiet {s : State} (h : s.sampleNow.cmdAnswer = none) :
    execIdleStep s = if s.loop.run && trigger s.params s.nowAnswer s.loop.lastTick s.cfg.period then
      .next s.asked.fireTick else .next s.asked := by
  simp only [execIdleStep, h]
  rfl

theorem execIdleStep_command {s : State} {w : CmdWord} (h : s.sampleNow.cmdAnswer = some w) :
    execIdleStep s = execCmdWord w s.asked := by
  simp only [execIdleStep, h]
  rfl

theorem hideOutcome_execIdleStep :
    hideOutcome (execIdleStep (s.withPrevPr x)) = hideOutcome (execIdleStep s) := by
  cases h : s.sampleNow.cmdAnswer with
  | some w =>
    rw [execIdleStep_command h, execIdleStep_command (s := s.withPrevPr x) h]
    exact hideOutcome_execCmdWord s.asked x w
  | none =>
    rw [execIdleStep_quiet h, execIdleStep_quiet (s := s.withPrevPr x) h]
    exact hideOutcome_ite rfl rfl

end

section
variable {s : State}

/-- With PPR_VALID = 0 the derivative is +0.0 whatever PREV_PR holds (rule R165). -/
theorem pidStep_prevPr (fp : FP) (fd : F32) (p : PidParam) {r : PidRuntime} (e dt x : F32) (h : r.pprValid = false) :
    pidStep fp fd p { r with prevPr := x } e dt = pidStep fp fd p r e dt := by
  simp [pidStep, h]

/-- With PPR_VALID = 0 a completed CALC leaves the same state, its new PREV_PR included. -/
theorem calcDone_withPrevPr (e x : F32) (h : s.rt.pprValid = false) : calcDone e (s.withPrevPr x) = calcDone e s := by
  have hr := pidStep_prevPr s.params.arith s.params.filterDiv s.param e s.loop.dtLatch x h
  simp only [calcDone, State.withPrevPr, hr]

theorem hidePrevPr_calcStep (e x : F32) (h : s.rt.pprValid = false) :
    hidePrevPr (calcStep e (s.withPrevPr x)) = hidePrevPr (calcStep e s) := by
  rcases calcStep_cases e s with ⟨hd, c⟩ | ⟨hd, c⟩ <;> rw [c]
  · rw [calcStep_done (s := s.withPrevPr x) hd, calcDone_withPrevPr e x h]
  · rw [calcStep_fault (s := s.withPrevPr x) hd]
    rfl

theorem hideOutcome_phaseStep (x : F32) (h : s.rt.pprValid = false) :
    hideOutcome (phaseStep (s.withPrevPr x)) = hideOutcome (phaseStep s) := by
  rcases phase_cases s.phase with hp | hp | hp | hp | hp | hp | hp | hp | hp | hp | hp
  · rw [phaseStep_idle hp, phaseStep_idle (s := s.withPrevPr x) hp]
    exact hideOutcome_execIdleStep s x
  · rw [phaseStep_rx hp, phaseStep_rx (s := s.withPrevPr x) hp]
    rfl
  · rw [phaseStep_decode hp, phaseStep_decode (s := s.withPrevPr x) hp]
    exact hideOutcome_next_of_eq_withPrevPr (registryUpdate_withPrevPr s.decoded x _)
  · rw [phaseStep_lookup hp, phaseStep_lookup (s := s.withPrevPr x) hp]
    exact hideOutcome_execSlotRd s x
  · rw [phaseStep_compute hp, phaseStep_compute (s := s.withPrevPr x) hp]
    exact congrArg Host.Outcome.next (hidePrevPr_calcStep (s := s.withError) s.errorOperand x h)
  · cases hq : quantize s.params.arith s.lat.out with
    | none =>
      rw [phaseStep_quant_nan hp hq, phaseStep_quant_nan (s := s.withPrevPr x) hp hq]
      rfl
    | some q =>
      rw [phaseStep_quant_some hp hq, phaseStep_quant_some (s := s.withPrevPr x) hp hq]
      exact hideOutcome_execSlotWrCmd (s.quantized q) x
  · rw [phaseStep_encode hp, phaseStep_encode (s := s.withPrevPr x) hp]
    rfl
  · rw [phaseStep_txa hp, phaseStep_txa (s := s.withPrevPr x) hp]
    exact hideOutcome_next_of_eq_withPrevPr (offerFrame_withPrevPr s x ..)
  · rw [phaseStep_txb hp, phaseStep_txb (s := s.withPrevPr x) hp]
    exact hideOutcome_next_of_eq_withPrevPr (offerFrame_withPrevPr s x ..)
  · rw [phaseStep_halt hp, phaseStep_halt (s := s.withPrevPr x) hp]
    rfl
  · rw [phaseStep, phaseStep, show (s.withPrevPr x).phase = s.phase from rfl, hp]

end

/-- Settles O28, by what the outside does before the step and then by the phase: CALC alone looks at PREV_PR, and only
where PPR_VALID is 1. -/
theorem unsetPrevPrIsNeverRead : Obligations.UnsetPrevPrIsNeverRead := by
  unfold Obligations.UnsetPrevPrIsNeverRead
  intro s x h
  change hideOutcome (step (s.withPrevPr x)) = hideOutcome (step s)
  match he : s.extAnswer with
  | some .reset =>
    rw [step_of_reset he, step_of_reset (s := s.withPrevPr x) he]
    rfl
  | some (.dbgRead sel) =>
    rw [step_of_dbgRead he, step_of_dbgRead (s := s.withPrevPr x) he]
    rfl
  | none =>
    rw [step_of_phase he, step_of_phase (s := s.withPrevPr x) he]
    exact hideOutcome_phaseStep (s := s.popExt) x h

end Sys2Proof.Machine

/-! ### Reset, and the outside events after a step (rules R51, R72, R191 and R260) -/

namespace Sys2Proof.Machine

/-- Every slot of the reset state holds the reset value (rules R21 to R25). -/
@[simp] theorem State.slot_reset (i : Fin 8) : State.reset.slot i = Slot.reset := by
  revert i
  decide

@[simp] theorem State.slot_resetEvent (s : State) (i : Fin 8) : s.resetEvent.slot i = Slot.reset :=
  (State.slot_of_rf rfl i).trans (State.slot_reset i)

/-- Settles O1: the reset event overwrites every register, and only the slots need an argument of their own. -/
theorem resetEventGivesEveryRegisterItsResetValue : Obligations.ResetEventGivesEveryRegisterItsResetValue := by
  unfold Obligations.ResetEventGivesEveryRegisterItsResetValue
  constructor
  · intro s h
    exact ⟨_, step_of_reset h, State.slot_resetEvent _, rfl, rfl, rfl, rfl, rfl, rfl, rfl, rfl, rfl, rfl, rfl, rfl, rfl⟩
  · exact ⟨State.slot_reset, rfl, rfl, rfl, rfl, rfl, rfl, rfl, rfl, rfl, rfl⟩

/-- Settles O45: the reset state is in IDLE with no fault, with RUN = 0 and every count and limit zero. -/
theorem invariantHoldsAtReset : Obligations.InvariantHoldsAtReset :=
  { State.PhaseClauses.of_plain (s := State.reset) (p := Phase.idle) rfl (by decide) with
    params := by
      unfold paramsLegal
      decide
    phaseLegal := .inl (Nat.zero_le _)
    faultIff := by decide
    noFault := fun _ => ⟨rfl, rfl⟩
    causeLegal := fun e => Bool.noConfusion e
    commands := fun _ i => by
      rw [State.slot_reset]
      decide
    pending := fun _ => (by decide : cmdInRange 0#16 = true)
    limits := fun _ => (by decide : F32.le 0#32 0#32 = true)
    period := Nat.two_pow_pos _
    lastTick := Nat.two_pow_pos _
    sampled := Nat.two_pow_pos _
    running := by simp [inTick, State.reset] }

/-- A step before which the outside does nothing leaves the rest of its tape for the next step. -/
theorem step_ext_of_quiet {s t : State} {l : List (Option ExtEvent)} (hs : s.env.ext = none :: l)
    (h : step s = .next t) : t.env.ext = l := by
  rw [step_of_phase (extAnswer_cons hs)] at h
  rw [phaseStep_ext h, popExt_cons hs]

/-- Settles O53: no phase touches the tape of outside events, so the step after finds the event at its head. -/
theorem outsideEventsLandAfterAnyStep : Obligations.OutsideEventsLandAfterAnyStep := by
  unfold Obligations.OutsideEventsLandAfterAnyStep
  intro s t e l hs h
  have ht : t.env.ext = some e :: l := step_ext_of_quiet hs h
  constructor
  · rintro sel rfl
    rw [step_of_dbgRead (extAnswer_cons ht), popExt_cons ht]
    rfl
  · rintro rfl
    have hr := resetEventGivesEveryRegisterItsResetValue.1 t (extAnswer_cons ht)
    rwa [ht, List.tail_cons] at hr

end Sys2Proof.Machine

/-! ### The telemetry frames with a slot (rules R61, R130 and R132) -/

namespace Sys2Proof.Machine

/-- Identifier `0x201 + k` is routed to slot `k` (rule R61). -/
theorem exec_telemetryInstr (k : Fin 8) (a : U16) (r c : I16) (t : Byte) (s : State) :
    exec (telemetryInstr k a r c t) s = .next (routeTelemetry k.val a r c t s) := by
  fin_cases k <;> rfl

/-- A frame that names a slot is written to it, with the decoded frame left for REG_UPDATE. -/
theorem routeTelemetry_slot (k : Fin 8) (a : U16) (r c : I16) (t : Byte) (s : State) :
    routeTelemetry k.val a r c t s
      = (State.putTelemetry { s with loc := { s.loc with dec := some ⟨k.val, a, r, c, t⟩ } } k
          ⟨k.val, a, r, c, t⟩).withPhase Phase.lookup :=
  registryUpdate_slot _ rfl

/-- Settles O11: the frame's identifier names a slot, so REG_UPDATE is one write of the register file. -/
theorem telemetryFramesWriteOneSlot : Obligations.TelemetryFramesWriteOneSlot := by
  unfold Obligations.TelemetryFramesWriteOneSlot
  intro k a r c t s
  refine ⟨_, exec_telemetryInstr k a r c t s, ?_⟩
  rw [routeTelemetry_slot]
  exact ⟨State.slot_putTelemetry_same _ k _, fun j hj => State.slot_putTelemetry_other _ _ hj, rfl,
    ⟨rfl, rfl, rfl, rfl, rfl, rfl, rfl⟩, ⟨rfl, rfl, rfl, rfl⟩⟩

end Sys2Proof.Machine

/-! ### The bus (rules R67, R196 and R208) -/

namespace Sys2Proof.Machine

open Sys2Proof.Claims

@[simp] theorem calcStep_env (e : F32) (s : State) : (calcStep e s).env = s.env := by
  rcases calcStep_cases e s with ⟨-, h⟩ | ⟨-, h⟩ <;> rw [h] <;> rfl

@[simp] theorem calcStep_outs (e : F32) (s : State) : (calcStep e s).outs = s.outs := by
  rcases calcStep_cases e s with ⟨-, h⟩ | ⟨-, h⟩ <;> rw [h] <;> rfl

/-- Between two states no frame is asked for and none is offered: the tapes of `try_receive()` and `try_send` stand
where they stood, and nothing that was sent or reported is an offer. -/
structure BusQuiet (s t : State) : Prop where
  rx : t.env.rx = s.env.rx
  tx : t.env.tx = s.env.tx
  outs : ∃ l, t.outs = s.outs ++ l ∧ ∀ f ok, Output.offered f ok ∉ l

section
variable {s t : State}

/-- What sends and reports nothing leaves the bus quiet where it leaves the two tapes alone. -/
theorem BusQuiet.of_outs_eq (hrx : t.env.rx = s.env.rx) (htx : t.env.tx = s.env.tx) (ho : t.outs = s.outs) :
    BusQuiet s t :=
  ⟨hrx, htx, [], by simp [ho], by simp⟩

/-- A single output other than an offer leaves the bus quiet. -/
theorem BusQuiet.emit (s : State) {o : Output} (h : ∀ f ok, Output.offered f ok ≠ o) : BusQuiet s (s.emit o) :=
  ⟨rfl, rfl, [o], rfl, fun f ok => by simpa using h f ok⟩

/-- Asking what the outside does is no use of the bus. -/
theorem BusQuiet.of_popExt (h : BusQuiet s.popExt t) : BusQuiet s t := { h with }

/-- A host command sends at most the diagnostic CMD_UNKNOWN. -/
theorem execCmdWord_busQuiet {w : CmdWord} (h : execCmdWord w s = .next t) : BusQuiet s t := by
  obtain ⟨u, e, hc⟩ := execCmdWord_cases w s
  cases h.symm.trans e
  rcases hc with ⟨-, rfl⟩ | ⟨_, -, -, rfl, -⟩ | ⟨_, _, _, _, _, -, -, rfl, -⟩ | ⟨_, _, _, -, rfl⟩
    | ⟨_, _, -, -, rfl, -⟩ | ⟨_, _, -, -, rfl, -⟩ | ⟨_, -, rfl⟩ | ⟨_, -, rfl⟩ | ⟨_, _, -, rfl⟩ | ⟨-, rfl⟩
    | ⟨-, rfl⟩
  iterate 10 exact .of_outs_eq rfl rfl rfl
  · exact .emit s fun _ _ => nofun

/-- The IDLE step asks the timebase and the command port, never the bus. -/
theorem execIdleStep_busQuiet (h : execIdleStep s = .next t) : BusQuiet s t := by
  rcases execIdleStep_cases s with ⟨w, -, e⟩ | ⟨-, -, e⟩ | ⟨-, -, e⟩
  · exact { execCmdWord_busQuiet (e.symm.trans h) with }
  · cases e.symm.trans h
    exact .of_outs_eq rfl rfl rfl
  · cases e.symm.trans h
    exact .of_outs_eq rfl rfl rfl

/-- Every phase but RX, TXA and TXB leaves the bus quiet. -/
theorem phaseStep_busQuiet (h : phaseStep s = .next t) (hrx : s.phase ≠ 1#4) (htxa : s.phase ≠ 7#4)
    (htxb : s.phase ≠ 8#4) : BusQuiet s t := by
  rcases phaseStep_next h with ⟨-, h⟩ | ⟨hp, -⟩ | ⟨-, rfl⟩ | ⟨-, k, -, rfl⟩ | ⟨-, -, rfl⟩ | ⟨-, rfl⟩ | ⟨-, -, rfl⟩
    | ⟨-, q, -, k, -, rfl⟩ | ⟨-, q, -, -, rfl⟩ | ⟨-, rfl⟩ | ⟨hp, -⟩ | ⟨hp, -⟩
  · exact execIdleStep_busQuiet h
  · exact absurd hp hrx
  iterate 8 exact .of_outs_eq (by simp) (by simp) (by simp)
  · exact absurd hp htxa
  · exact absurd hp htxb

/-- So does every step that does none of the three phases: a reset event and a debug read are no use of the bus. -/
theorem step_busQuiet (h : step s = .next t) (hrx : ¬ DoesPhase s 1#4) (htxa : ¬ DoesPhase s 7#4)
    (htxb : ¬ DoesPhase s 8#4) : BusQuiet s t := by
  rcases step_next h with ⟨-, rfl⟩ | ⟨_, -, rfl⟩ | ⟨he, h⟩
  · exact .of_outs_eq rfl rfl rfl
  · exact .of_popExt (.emit s.popExt fun _ _ => nofun)
  · exact .of_popExt (phaseStep_busQuiet h (fun e => hrx ⟨he, e⟩) (fun e => htxa ⟨he, e⟩) fun e => htxb ⟨he, e⟩)

/-- A step does the work of one phase only. -/
theorem not_doesPhase_of_ne {p q : BitVec 4} (h : DoesPhase s p) (hpq : p ≠ q) : ¬ DoesPhase s q :=
  fun h' => hpq (h.2.symm.trans h'.2)

theorem step_rx (h : DoesPhase s 1#4) : step s = .next s.popExt.received :=
  (step_of_phase h.1).trans (phaseStep_rx (s := s.popExt) h.2)

theorem step_txa (h : DoesPhase s 7#4) :
    step s = .next (offerFrame s.lat.fra .txaFail Phase.txb s.popExt) :=
  (step_of_phase h.1).trans (phaseStep_txa (s := s.popExt) h.2)

theorem step_txb (h : DoesPhase s 8#4) :
    step s = .next (offerFrame s.lat.frb .txbFail Phase.idle s.popExt) :=
  (step_of_phase h.1).trans (phaseStep_txb (s := s.popExt) h.2)

end

/-- Settles O50, by the phase the step does: RX, TXA and TXB take one answer of one tape each, and every other step
leaves the bus quiet. -/
theorem busIsUsedOnlyInItsPhases : Obligations.BusIsUsedOnlyInItsPhases := by
  unfold Obligations.BusIsUsedOnlyInItsPhases
  intro s t h
  by_cases hrx : DoesPhase s 1#4
  · have htxa := not_doesPhase_of_ne hrx (q := 7#4) (by decide)
    have htxb := not_doesPhase_of_ne hrx (q := 8#4) (by decide)
    cases (step_rx hrx).symm.trans h
    simp [hrx, htxa, htxb]
  by_cases htxa : DoesPhase s 7#4
  · have htxb := not_doesPhase_of_ne htxa (q := 8#4) (by decide)
    cases (step_txa htxa).symm.trans h
    simp [hrx, htxa, htxb]
  by_cases htxb : DoesPhase s 8#4
  · cases (step_txb htxb).symm.trans h
    simp [hrx, htxa, htxb]
  · obtain ⟨erx, etx, l, ho, hl⟩ := step_busQuiet h hrx htxa htxb
    exact ⟨fun c => absurd c hrx, fun _ => erx, fun c => absurd c (not_or.2 ⟨htxa, htxb⟩), fun _ _ => etx, l, ho,
      fun c => absurd c htxa, fun c => absurd c htxb, fun _ _ => hl⟩

end Sys2Proof.Machine

/-! ### The round trip (rules R81 to R91) -/

namespace Sys2Proof

/-- Settles O38, by the format of the operation: what the decoder reads from a frame built from fields and from a
command word built from operands, and a table look-up for a phase code. -/
theorem decodeOfEncodeIsTheInstruction : Obligations.DecodeOfEncodeIsTheInstruction := by
  unfold Obligations.DecodeOfEncodeIsTheInstruction
  intro i
  cases i with
  | telem200 | telem201 | telem202 | telem203 | telem204 | telem205 | telem206 | telem207 | telem208 =>
    exact decode_encodeTelem ..
  | cmdFrameA | cmdFrameB => exact decode_encodeCmdFrame ..
  | setSlot n => exact (decode_encodeCmd ..).trans (congrArg (Except.ok ∘ Instr.setSlot) (slot_operand n))
  | pidReset | setParam | setGain | setLimit | setTarget | setPeriod | start => exact decode_encodeCmd ..
  | idleStep | tryReceive | decodeTelemetry | regUpdate | slotRd | calc3 | calcPid | quant | slotWrCmd | snapshot
  | encodeCommands | trySendA | trySendB | halt | dbgRead => rfl

end Sys2Proof

/-! ### The opcode table (rule R93) -/

namespace Sys2Proof

/-- The match value of telemetry row `k` is the header of identifier `0x200 + k`. -/
theorem telemetry_rowMatch (k : Fin 9) :
    (dataHeader (BitVec.ofNat 32 (0x200 + k.val))).toNat * 2 ^ 64 = 0x803080000000000000000 + k.val * 2 ^ 74 := by
  revert k
  decide

/-- A frame matches telemetry row `k` exactly when its header is that of identifier `0x200 + k`. -/
theorem matches_telemetry_row_iff (b : FrameBits) (k : Fin 9) :
    b.toNat &&& 0x3FFFFFFFFFF0000000000000000 = 0x803080000000000000000 + k.val * 2 ^ 74
      ↔ b.extractLsb' 64 42 = dataHeader (BitVec.ofNat 32 (0x200 + k.val)) := by
  rw [header_of_mask, ← telemetry_rowMatch, Nat.mul_left_inj (by decide), BitVec.toNat_inj]

/-- A line of a decoder's table answers its own operation, or leaves the object to the lines below it. -/
theorem ok_of_ite {c : Prop} [Decidable c] {x i : Instr} {y : Except DecodeError Instr}
    (h : (if c then .ok x else y) = .ok i) : (c ∧ x = i) ∨ y = .ok i := by
  split at h
  · exact .inl ⟨‹c›, Except.ok.inj h⟩
  · exact .inr h

/-- A table rejects exactly what its first line and the lines below it leave. -/
theorem ite_ok_eq_error_iff {c : Prop} [Decidable c] {x : Instr} {r : DecodeError} {y : Except DecodeError Instr} :
    (if c then .ok x else y) = .error r ↔ ¬ c ∧ y = .error r := by
  split <;> simp [*]

/-- An inbound frame is dropped exactly when its header is none of the nine telemetry headers (rule R82). -/
theorem decodeFrameIn_eq_error_iff (b : FrameBits) :
    decodeFrameIn b = .error .notTelemetry
      ↔ ∀ k : Fin 9, b.extractLsb' 64 42 ≠ dataHeader (BitVec.ofNat 32 (0x200 + k.val)) := by
  simp only [decodeFrameIn, ite_ok_eq_error_iff, Fin.forall_fin_succ, IsEmpty.forall_iff]
  rfl

theorem decodeFrameIn_row {b : FrameBits} {i : Instr} (h : decodeFrameIn b = .ok i) :
    (b.extractLsb' 64 42).toNat * 2 ^ 64 = i.rowMatch := by
  iterate 9
    obtain ⟨e, rfl⟩ | h := ok_of_ite h
    · simp only [e, Instr.rowMatch]
      decide
  cases h

theorem decodeFrameOut_row {b : FrameBits} {i : Instr} (h : decodeFrameOut b = .ok i) :
    (b.extractLsb' 64 42).toNat * 2 ^ 64 = i.rowMatch := by
  iterate 2
    obtain ⟨e, rfl⟩ | h := ok_of_ite h
    · simp only [e, Instr.rowMatch]
      decide
  cases h

theorem decodeCmd_row {w : CmdWord} {i : Instr} (h : decodeCmd w = .ok i) : (cmdOp w).toNat = i.rowMatch := by
  iterate 8
    obtain ⟨e, rfl⟩ | h := ok_of_ite h
    · exact congrArg BitVec.toNat e
  cases h

theorem decodeUop_row {p : BitVec 4} {q : Seq} {i : Instr} (h : decodeUop p q = .ok i) : p.toNat = i.rowMatch := by
  cases q with
  | first =>
    iterate 10
      obtain ⟨e, rfl⟩ | h := ok_of_ite h
      · exact congrArg BitVec.toNat e
    cases h
  | second =>
    iterate 4
      obtain ⟨e, rfl⟩ | h := ok_of_ite h
      · exact congrArg BitVec.toNat e
    split at h <;> cases h

/-- Settles O39, by the format of the object: its mask keeps what the decoder of the format looks at. -/
theorem decodedObjectsMatchTheirTableRow : Obligations.DecodedObjectsMatchTheirTableRow := by
  unfold Obligations.DecodedObjectsMatchTheirTableRow
  constructor
  · intro e i h
    cases e with
    | frameIn b => exact (header_of_mask b).trans (decodeFrameIn_row h)
    | frameOut b => exact (header_of_mask b).trans (decodeFrameOut_row h)
    | cmd w => exact (opcode_of_mask w).trans (decodeCmd_row h)
    | uop p q => exact (Nat.and_two_pow_sub_one_of_lt_two_pow p.isLt).trans (decodeUop_row h)
    | port sel =>
      cases h
      exact Nat.and_zero _
  · intro b
    simp only [ne_eq, matches_telemetry_row_iff]
    exact decodeFrameIn_eq_error_iff b

/-- Settles O41: the decoder is evaluated on each word. -/
theorem writtenOutWordsDecode : Obligations.WrittenOutWordsDecode := by
  unfold Obligations.WrittenOutWordsDecode
  decide

end Sys2Proof

/-! ### The acceptance test (rules R82, R94 and R110) -/

namespace Sys2Proof.Machine

open Sys2Proof.Claims

theorem isTelemetry_iff_accepted {f : Frame} : isTelemetry f = true ↔ Accepted f := by
  simp [isTelemetry, Accepted, and_assoc]

theorem decodeTelemetry_of_not_accepted {f : Frame} (h : ¬ Accepted f) : decodeTelemetry f = none :=
  if_neg (mt isTelemetry_iff_accepted.1 h)

/-- The decoded form of an accepted frame. -/
theorem decodeTelemetry_of_accepted {f : Frame} (h : Accepted f) :
    decodeTelemetry f = some ⟨(f.id.toNat : Int) - 0x201, f.payload[0] ++ f.payload[1], f.payload[2] ++ f.payload[3],
      f.payload[4] ++ f.payload[5], f.payload[6]⟩ :=
  if_pos (isTelemetry_iff_accepted.2 h)

theorem decode_frameIn_of_not_accepted {f : Frame} (h : ¬ Accepted f) :
    decode (.frameIn f.toBits) = .error .notTelemetry := by
  rw [decode_frameIn]
  by_cases hc : f.isStandard = true ∧ f.isData = true ∧ f.length = 8#8
  · obtain ⟨hs, hd, hl⟩ := hc
    have hid : ∀ k : BitVec 32, 0x200 ≤ k.toNat → k.toNat ≤ 0x208 → f.id ≠ k :=
      fun k hlo hhi e => h ⟨hs, hd, hl, e ▸ hlo, e ▸ hhi⟩
    simp [hid]
  · exact if_neg hc

/-- The inbound decoder on an accepted frame that names slot `k`. -/
theorem decode_frameIn_slot {f : Frame} (h : Accepted f) (k : Fin 8) (hk : f.id.toNat = 0x201 + k.val) :
    decode (.frameIn f.toBits) = .ok (telemetryInstr k (f.payload[0] ++ f.payload[1]) (f.payload[2] ++ f.payload[3])
      (f.payload[4] ++ f.payload[5]) f.payload[6]) := by
  obtain ⟨hs, hd, hl, -, -⟩ := h
  have hid : f.id = BitVec.ofNat 32 (0x201 + k.val) := BitVec.eq_of_toNat_eq (by simp; omega)
  rw [decode_frameIn, if_pos ⟨hs, hd, hl⟩, hid]
  fin_cases k <;> rfl

/-- The inbound decoder on an accepted frame with identifier 0x200. -/
theorem decode_frameIn_noSlot {f : Frame} (h : Accepted f) (hid : f.id.toNat = 0x200) :
    decode (.frameIn f.toBits) = .ok (.telem200 (f.payload[0] ++ f.payload[1]) (f.payload[2] ++ f.payload[3])
      (f.payload[4] ++ f.payload[5]) f.payload[6]) := by
  obtain ⟨hs, hd, hl, -, -⟩ := h
  rw [decode_frameIn, if_pos ⟨hs, hd, hl⟩]
  exact if_pos (BitVec.eq_of_toNat_eq hid)

/-- Settles O40, by the acceptance test: the two decoders read the same identifier and the same payload bytes. -/
theorem inboundWordAndFrameDecodersAgree : Obligations.InboundWordAndFrameDecodersAgree := by
  unfold Obligations.InboundWordAndFrameDecodersAgree
  intro f
  by_cases h : Accepted f
  · rw [decodeTelemetry_of_accepted h]
    refine ⟨nofun, ?_, ?_, ?_⟩
    · rintro _ ⟨⟩ hidx
      exact decode_frameIn_noSlot h (by simp only at hidx; omega)
    · rintro _ k ⟨⟩ hidx
      exact decode_frameIn_slot h k (by simp only at hidx; omega)
    · rintro _ ⟨⟩
      obtain ⟨-, -, -, hlo, hhi⟩ := h
      simp only
      omega
  · rw [decodeTelemetry_of_not_accepted h]
    exact ⟨fun _ => decode_frameIn_of_not_accepted h, nofun, nofun, nofun⟩

theorem step_decode {s : State} (h : DoesPhase s 2#4) :
    step s = .next (registryUpdate (s.lat.rxf.bind decodeTelemetry) s.popExt.decoded) :=
  (step_of_phase h.1).trans (phaseStep_decode (s := s.popExt) h.2)

/-- Settles O7: DECODE has nothing to register, and the answer of RX has left the head of the queue. -/
theorem rejectedFrameIsIgnored : Obligations.RejectedFrameIsIgnored := by
  unfold Obligations.RejectedFrameIsIgnored
  constructor
  · intro s f he hp hf hrej
    have hd : s.lat.rxf.bind decodeTelemetry = none := by rw [hf]; exact decodeTelemetry_of_not_accepted hrej
    rw [step_decode ⟨he, hp⟩, hd, registryUpdate_none]
    simp only [State.decoded, State.popExt_lat, hd]
    rfl
  · intro s f l he hp hq
    refine ⟨_, step_rx ⟨he, hp⟩, ?_, ?_, rfl⟩
    · simp [State.rxAnswer, hq]
    · simp [hq]

end Sys2Proof.Machine

/-! ### The command frames (rules R85, R86 and R208) -/

namespace Sys2Proof.Machine

open Sys2Proof.Claims

/-- The two bytes of a command, the more significant first, are the command (rule R63). -/
theorem hiByte_loByte_toNat (c : I16) : 256 * (hiByte c).toNat + (loByte c).toNat = c.toNat := by
  have := c.isLt
  simp only [hiByte, loByte, BitVec.extractLsb'_toNat, Nat.shiftRight_eq_div_pow]
  omega

theorem commandPayload_carries (id : BitVec 32) (c0 c1 c2 c3 : I16) :
    CarriesCommands (dataFrame id (commandPayload c0 c1 c2 c3)) c0 c1 c2 c3 :=
  ⟨hiByte_loByte_toNat c0, hiByte_loByte_toNat c1, hiByte_loByte_toNat c2, hiByte_loByte_toNat c3⟩

theorem dataFrame_isDataFrame (id : BitVec 32) (p : Vector Byte 8) : IsDataFrame (dataFrame id p) id :=
  ⟨rfl, rfl, rfl, rfl⟩

/-- An offer changes no register but PHASE. -/
theorem offerFrame_sameRegs (f : Frame) (e : DiagEvent) (p : BitVec 4) (s : State) :
    SameRegs s { offerFrame f e p s with phase := s.phase } := by
  simp [SameRegs]

/-- Settles O10: both operations are the offer of a data frame that carries the commands. -/
theorem commandFramesAreOfferedAsBuilt : Obligations.CommandFramesAreOfferedAsBuilt := by
  unfold Obligations.CommandFramesAreOfferedAsBuilt
  constructor
  · intro c0 c1 c2 c3 s
    exact ⟨frameA c0 c1 c2 c3, _, rfl, dataFrame_isDataFrame .., commandPayload_carries .., offerFrame_outs ..,
      offerFrame_phase .., offerFrame_sameRegs .., offerFrame_rf .., offerFrame_env .., fun h => h ▸ rfl⟩
  · intro c4 c5 c6 c7 s
    exact ⟨frameB c4 c5 c6 c7, _, rfl, dataFrame_isDataFrame .., commandPayload_carries .., offerFrame_outs ..,
      offerFrame_phase .., offerFrame_sameRegs .., offerFrame_rf .., offerFrame_env .., fun h => h ▸ rfl⟩

end Sys2Proof.Machine

/-! ### SET_PARAM in two commands (rules R101 and R173 to R175) -/

namespace Sys2Proof.Machine

theorem exec_setParam_of_fle {lo hi : F32} {s : State} (kp ki kd : F32) (h : s.params.arith.fle lo hi = true) :
    exec (.setParam kp ki kd lo hi) s = .next ({ s with param := ⟨kp, ki, kd, lo, hi⟩ } : State).clearRuntime :=
  if_pos h

theorem exec_setLimit_of_fle {lo hi : F32} {s : State} (h : s.params.arith.fle lo hi = true) :
    exec (.setLimit lo hi) s = .next { s with param := { s.param with min := lo, max := hi } } :=
  if_pos h

theorem exec_setGain (kp ki kd : F32) (s : State) :
    exec (.setGain kp ki kd) s
      = .next ({ s with param := { s.param with kp := kp, ki := ki, kd := kd } } : State).clearRuntime := rfl

/-- Settles O27: the limit check reads the limits alone, the two commands write disjoint parts of PidParam, and SET_GAIN
performs the reset in either order. -/
theorem setParamIsSetLimitAndSetGain : Obligations.SetParamIsSetLimitAndSetGain := by
  unfold Obligations.SetParamIsSetLimitAndSetGain
  intro kp ki kd lo hi s h
  exact ⟨_, _, _, _, _, exec_setParam_of_fle kp ki kd h, exec_setLimit_of_fle h, exec_setGain kp ki kd _,
    exec_setGain kp ki kd s, exec_setLimit_of_fle h, rfl, rfl⟩

end Sys2Proof.Machine

/-! ### The payload fields of a telemetry frame (rules R63, R110 and R115) -/

namespace Sys2Proof.Machine

open Sys2Proof.Claims

theorem beField_toNat (hi lo : Byte) : (beField hi lo).toNat = 256 * hi.toNat + lo.toNat := by
  rw [beField, BitVec.toNat_append, ← Nat.shiftLeft_add_eq_or_of_lt lo.isLt, Nat.shiftLeft_eq, Nat.mul_comm]

/-- The sign of a field is that of its more significant byte. -/
theorem beField_toInt (hi lo : Byte) : (beField hi lo).toInt = s16 hi lo := by
  have := lo.isLt
  simp only [BitVec.toInt_eq_toNat_cond, beField_toNat, s16]
  split <;> split <;> omega

/-- A field's two bytes, written out by their bit positions, read back as the field. -/
theorem beField_extractLsb (x : BitVec 16) : beField (x.extractLsb 15 8) (x.extractLsb 7 0) = x :=
  BitVec.extractLsb'_append_extractLsb'

theorem exec_decodeTelemetry (s : State) :
    exec .decodeTelemetry s = .next { s with loc := { s.loc with dec := s.lat.rxf.bind decodeTelemetry } } := rfl

/-- Settles O5: the acceptance test decides, each two-byte field is its big-endian value, and the micro-operation writes
the operand latch alone. -/
theorem decodeTelemetryAcceptsAndReadsTheFields : Obligations.DecodeTelemetryAcceptsAndReadsTheFields := by
  unfold Obligations.DecodeTelemetryAcceptsAndReadsTheFields
  refine ⟨fun f h => ?_, fun f => decodeTelemetry_of_not_accepted, fun s h => ?_, fun s f h => ?_⟩
  · exact ⟨_, decodeTelemetry_of_accepted h, rfl, beField_toNat .., beField_toInt .., beField_toInt .., rfl⟩
  · rw [exec_decodeTelemetry, h]
    rfl
  · rw [exec_decodeTelemetry, h]
    rfl

/-- Settles O6: the frame meets the acceptance test, its identifier is `0x201 + i`, and each field's bytes read back as
the field. -/
theorem telemetryFieldsRoundTrip : Obligations.TelemetryFieldsRoundTrip := by
  unfold Obligations.TelemetryFieldsRoundTrip
  intro i a r c t x
  have hid : (BitVec.ofNat 32 (0x201 + i.val)).toNat = 0x201 + i.val := Nat.mod_eq_of_lt (by omega)
  have hrange : 0x200 ≤ (BitVec.ofNat 32 (0x201 + i.val)).toNat ∧ (BitVec.ofNat 32 (0x201 + i.val)).toNat ≤ 0x208 := by
    omega
  have hidx : ((BitVec.ofNat 32 (0x201 + i.val)).toNat : Int) - 0x201 = i.val := by omega
  refine (decodeTelemetry_of_accepted ⟨rfl, rfl, rfl, hrange⟩).trans ?_
  exact congrArg some ((Telem.mk.injEq ..).mpr
    ⟨hidx, beField_extractLsb a, beField_extractLsb r, beField_extractLsb c, rfl⟩)

/-- Settles O8: both frames are data frames with a command payload, from commands 0 to 3 and 4 to 7. -/
theorem encodeCommandsLaysOutBothFrames : Obligations.EncodeCommandsLaysOutBothFrames := by
  unfold Obligations.EncodeCommandsLaysOutBothFrames
  intro s
  exact ⟨_, rfl, dataFrame_isDataFrame .., dataFrame_isDataFrame .., commandPayload_carries ..,
    commandPayload_carries .., rfl⟩

/-- Settles O9: the encoder is evaluated on each list of commands. -/
theorem encodeLayoutExampleHolds : Obligations.EncodeLayoutExampleHolds := by
  unfold Obligations.EncodeLayoutExampleHolds
  decide

end Sys2Proof.Machine

/-! ### The register file's own operations (rules R130 to R139) -/

namespace Sys2Proof.Machine

/-- REG_UPDATE applies what DECODE_TELEMETRY left. -/
theorem exec_regUpdate {s : State} {d : Option Telem} (h : s.loc.dec = d) :
    exec .regUpdate s = .next (registryUpdate d s) := by
  subst h
  rfl

/-- Settles O12, by the decoded frame: none, one whose index names a slot, or one whose index names none. -/
theorem regUpdateFollowsTheIndex : Obligations.RegUpdateFollowsTheIndex := by
  unfold Obligations.RegUpdateFollowsTheIndex
  refine ⟨fun s => exec_regUpdate, fun s d k h hk => ?_, fun s d h hk => ?_⟩
  · rw [exec_regUpdate h, registryUpdate_slot s hk]
    exact ⟨_, rfl, State.slot_putTelemetry_same s k d, fun j hj => State.slot_putTelemetry_other s d hj, rfl⟩
  · rw [exec_regUpdate h]
    exact ⟨fun hp => congrArg _ (registryUpdate_fault hk hp), fun hp => congrArg _ (registryUpdate_drop hk hp)⟩

/-- Settles O15: a target in range is one write of the register file, any other is the fault entry. -/
theorem slotWrCmdWritesOneCommand : Obligations.SlotWrCmdWritesOneCommand := by
  unfold Obligations.SlotWrCmdWritesOneCommand
  refine ⟨fun s k hk => ?_, fun s => execSlotWrCmd_fault⟩
  exact ⟨_, execSlotWrCmd_slot hk, State.slot_putCommand_same s k s.loc.q,
    fun j hj => State.slot_putCommand_other s s.loc.q hj, rfl⟩

/-- Settles O13: REG_UPDATE gets index -1, which names no slot and whose 32-bit sign extension is all ones. -/
theorem identifier200FaultsOrIsDropped : Obligations.Identifier200FaultsOrIsDropped := by
  unfold Obligations.Identifier200FaultsOrIsDropped
  intro a r c t s s'
  have hroute : exec (.telem200 a r c t) s = .next (registryUpdate (some ⟨-1, a, r, c, t⟩) s') := rfl
  have hidx : (-1 : Int) < 0 ∨ 7 < (-1 : Int) := .inl (by decide)
  rw [hroute]
  exact ⟨fun hp => congrArg _ (registryUpdate_fault (s := s') hidx hp),
    fun hp => congrArg _ (registryUpdate_drop (s := s') hidx hp)⟩

/-- Settles O14, by the bounds check of the target slot. -/
theorem slotRdReadsTheTargetSlot : Obligations.SlotRdReadsTheTargetSlot := by
  unfold Obligations.SlotRdReadsTheTargetSlot
  exact ⟨fun s k => execSlotRd_slot, fun s => execSlotRd_fault⟩

/-- Settles O16: the snapshot latch alone is written, with the commands in slot order. -/
theorem snapshotReadsTheCommandsInSlotOrder : Obligations.SnapshotReadsTheCommandsInSlotOrder := by
  unfold Obligations.SnapshotReadsTheCommandsInSlotOrder
  exact fun s => ⟨_, rfl, s.commands_get, rfl⟩

/-- The 72 bits of a slot hold its five fields, the telemetry fields above the command as they stand above the
unused byte of a telemetry payload (rule R139). -/
theorem debugBits_fields (x : Slot) :
    x.debugBits.extractLsb' 56 16 = x.angle
      ∧ x.debugBits.extractLsb' 40 16 = x.rpm
      ∧ x.debugBits.extractLsb' 24 16 = x.measuredCurrent
      ∧ x.debugBits.extractLsb' 16 8 = x.temperature
      ∧ x.debugBits.extractLsb' 0 16 = x.commandedCurrent := by
  obtain ⟨a, r, c, t, q⟩ := x
  have above : ∀ k w, (a ++ r ++ c ++ t ++ q).extractLsb' (16 + k) w
      = (a ++ r ++ c ++ t ++ (0#8 : Byte)).extractLsb' (8 + k) w := fun k w =>
    (extract_append_left (a ++ r ++ c ++ t) q k w).trans (extract_append_left (a ++ r ++ c ++ t) 0#8 k w).symm
  obtain ⟨ha, hr, hc, ht⟩ := telem_fields a r c t 0#8
  exact ⟨(above 40 16).trans ha, (above 24 16).trans hr, (above 8 16).trans hc, (above 0 8).trans ht,
    extract_bottom (a ++ r ++ c ++ t) q⟩

/-- Settles O17: the answer is the slot's 72 bits, and only the outputs grow. -/
theorem debugReadAnswersTheSelectedSlot : Obligations.DebugReadAnswersTheSelectedSlot := by
  unfold Obligations.DebugReadAnswersTheSelectedSlot
  exact fun sel s => ⟨(s.slot sel.toFin).debugBits, rfl, debugBits_fields _⟩

end Sys2Proof.Machine

/-! ### Zeros through the four operations (rules R11, R166 and R172) -/

namespace Sys2Proof.F32

theorem lt_posZero_iff {b : F32} : lt posZero b = true ↔ isNan b = false ∧ 0 < val b := by
  have hn : isNan posZero = false := by decide
  have hv : val posZero = 0 := by decide
  simp [lt, hn, hv]

/-- FILTER_DIV, which is at least 1.0, is positive (rule R8). -/
theorem lt_posZero_of_one_le {a : F32} (h : le 0x3F800000#32 a = true) : lt posZero a = true := by
  have h1 : 0 < val 0x3F800000#32 := by decide
  simp only [le, Bool.and_eq_true, Bool.not_eq_true', decide_eq_true_eq] at h
  obtain ⟨⟨-, ha⟩, hle⟩ := h
  exact lt_posZero_iff.mpr ⟨ha, h1.trans_le hle⟩

theorem zero_false : zero false = posZero := by decide

/-- The sum of two zeros is -0.0 only where both are. -/
theorem add_zero_zero (p q : Bool) : add (zero p) (zero q) = zero (p && q) := by
  rw [add, addWith_finite _ (isFinite_zero p) (isFinite_zero q)]
  simp

/-- +0.0 plus a zero of either sign is +0.0. -/
theorem posZero_add_zero (q : Bool) : add posZero (zero q) = posZero := by
  rw [← zero_false, add_zero_zero, Bool.false_and]

theorem sub_posZero_posZero : sub posZero posZero = posZero := by
  rw [sub, addWith_finite _ (by decide) (by decide)]
  decide

/-- +0.0 divided by a positive value, an infinity included, is +0.0. -/
theorem posZero_div {b : F32} (h : lt posZero b = true) : div posZero b = posZero := by
  obtain ⟨hn, hv⟩ := lt_posZero_iff.mp h
  have hs : sign b = false := sign_of_val_pos hv
  have hz : isZero b = false := Bool.eq_false_iff.mpr fun e => hv.ne' (val_eq_zero.mpr e)
  have h0 : isFinite posZero = true := by decide
  cases hf : isFinite b with
  | false =>
    rw [eq_inf hn hf, (div_inf_finite (sign b) h0).2, hs]
    exact zero_false
  | true =>
    rw [div_finite h0 hf hz, hs, show mag posZero = 0 by decide, Nat.zero_mul, roundMag_zero (mag_pos hz), pack_zero]
    exact zero_false

/-- A finite factor makes a zero of its own sign of +0.0. -/
theorem mul_posZero_of_finite {a : F32} (h : isFinite a = true) : mul a posZero = zero (sign a) := by
  rw [mul_finite h (by decide), show mag posZero = 0 by decide, Nat.mul_zero, roundMag_zero (Nat.two_pow_pos 149),
    pack_zero, show sign posZero = false by decide, Bool.bne_false]

/-- An infinite or NaN factor makes a NaN of +0.0. -/
theorem isNan_mul_posZero {a : F32} (h : isFinite a = false) : isNan (mul a posZero) = true := by
  cases hn : isNan a with
  | false =>
    rw [eq_inf hn h, ← zero_false]
    exact (mul_zero_inf false _).2
  | true => rw [mul_of_isNan (.inl hn), isNan_nanOf]

end Sys2Proof.F32

/-! ### CALC and the controller's commands (rules R165 to R178) -/

namespace Sys2Proof.Machine

open Sys2Proof.Claims

/-- CALC past its precondition. -/
theorem exec_calcPid_done {s : State} (h : s.params.arith.flt F32.posZero s.loop.dtLatch = true) :
    exec .calcPid s = .next (calcDone s.loc.err s) := congrArg _ (calcStep_done h)

/-- CALC without its precondition. -/
theorem exec_calcPid_fault {s : State} (h : s.params.arith.flt F32.posZero s.loop.dtLatch = false) :
    exec .calcPid s = .next (faulted s 1#3 s.loop.dtLatch) := congrArg _ (calcStep_fault h)

/-- CALC3 hands its error over to CALC. -/
theorem exec_calc3 (s : State) : exec .calc3 s = exec .calcPid s.withError := rfl

/-- The default record's precondition, in the form the machine tests. -/
theorem flt_of_lt {s : State} (hb : s.params.fp = .binary32) (h : F32.lt F32.posZero s.loop.dtLatch = true) :
    s.params.arith.flt F32.posZero s.loop.dtLatch = true := by
  rw [arith_binary32 hb]
  exact h

/-- The filter state CALC stores (steps 2 and 4 of rule R165). -/
theorem pidStep_fd (fp : FP) (fd : F32) (p : PidParam) (r : PidRuntime) (e dt : F32) :
    (pidStep fp fd p r e dt).fd = fp.fadd r.fd (fp.fdiv (fp.fsub
      (if r.pprValid then fp.fdiv (fp.fsub (pidStep fp fd p r e dt).prevPr r.prevPr) dt else F32.posZero) r.fd) fd) :=
  rfl

/-- The accumulator CALC stores, from the rate and the filter state it stores (steps 5 to 7 of rule R165). -/
theorem pidStep_acc (fp : FP) (fd : F32) (p : PidParam) (r : PidRuntime) (e dt : F32) :
    (pidStep fp fd p r e dt).acc = clamp fp (fp.fadd r.acc (fp.fadd
      (fp.fadd (fp.fmul p.kp (pidStep fp fd p r e dt).prevPr) (fp.fmul p.ki e))
      (fp.fmul p.kd (pidStep fp fd p r e dt).fd))) p.min p.max := rfl

/-- A cold controller keeps its filter state at +0.0: the derivative is +0.0, and so is what the filter adds
(rule R166). -/
theorem pidStep_fd_of_cold {fd : F32} {r : PidRuntime} (p : PidParam) (e dt : F32) (hv : r.pprValid = false)
    (hr : r.fd = F32.posZero) (hd : F32.lt F32.posZero fd = true) :
    (pidStep FP.binary32 fd p r e dt).fd = F32.posZero := by
  rw [pidStep_fd, hv, hr, if_neg Bool.false_ne_true, binary32_fsub, F32.sub_posZero_posZero, binary32_fdiv,
    F32.posZero_div hd]
  exact F32.posZero_add_zero false

/-- A zero error after a zero error has the rate +0.0. -/
theorem pidStep_prevPr_of_zero_errors {fd dt : F32} {r : PidRuntime} (p : PidParam) (hr : r.prevErr = F32.posZero)
    (ht : F32.lt F32.posZero dt = true) : (pidStep FP.binary32 fd p r F32.posZero dt).prevPr = F32.posZero := by
  change F32.div (F32.sub F32.posZero r.prevErr) dt = F32.posZero
  rw [hr, F32.sub_posZero_posZero, F32.posZero_div ht]

/-- On a zero error after PID_RESET each of the three terms is a zero under finite gains, and +0.0 plus a zero is
+0.0 (rule R172). -/
theorem pidStep_acc_of_cold_zero {fd dt : F32} {p : PidParam} (pr : F32) (hd : F32.lt F32.posZero fd = true)
    (ht : F32.lt F32.posZero dt = true) (hp : F32.isFinite p.kp = true) (hi : F32.isFinite p.ki = true)
    (hk : F32.isFinite p.kd = true) :
    (pidStep FP.binary32 fd p (PidRuntime.cold pr) F32.posZero dt).acc
      = clamp FP.binary32 F32.posZero p.min p.max := by
  rw [pidStep_acc, pidStep_prevPr_of_zero_errors p rfl ht, pidStep_fd_of_cold p _ dt rfl rfl hd, binary32_fmul,
    binary32_fadd, F32.mul_posZero_of_finite hp, F32.mul_posZero_of_finite hi, F32.mul_posZero_of_finite hk,
    F32.add_zero_zero, F32.add_zero_zero]
  exact congrArg (clamp FP.binary32 · p.min p.max) (F32.posZero_add_zero _)

/-- PID_RESET after `p` replaced the gains and limits: `p` stands, the runtime registers but PREV_PR are cleared,
and nothing else of the spec's registers changes (rules R171, R173 and R174). -/
theorem clearRuntime_withParam (p : PidParam) (s : State) :
    let t := ({ s with param := p } : State).clearRuntime
    t.param = p ∧ t.rt.prevErr = 0x00000000#32 ∧ t.rt.pprValid = false ∧ t.rt.fd = 0x00000000#32
      ∧ t.rt.acc = 0x00000000#32
      ∧ SameRegs s { t with param := s.param, rt := s.rt } ∧ t.rf = s.rf ∧ t.loc = s.loc
      ∧ t.params = s.params ∧ t.env = s.env ∧ t.outs = s.outs :=
  ⟨rfl, rfl, rfl, rfl, rfl, ⟨rfl, rfl, rfl, rfl, rfl, rfl, rfl⟩, rfl, rfl, rfl, rfl, rfl⟩

/-- Crossed or NaN limits stop SET_PARAM before any write. -/
theorem exec_setParam_of_not_fle {lo hi : F32} {s : State} (kp ki kd : F32) (h : s.params.arith.fle lo hi = false) :
    exec (.setParam kp ki kd lo hi) s = .next (faulted s 4#3 lo) :=
  if_neg (Bool.eq_false_iff.mp h)

/-- Crossed or NaN limits stop SET_LIMIT before any write. -/
theorem exec_setLimit_of_not_fle {lo hi : F32} {s : State} (h : s.params.arith.fle lo hi = false) :
    exec (.setLimit lo hi) s = .next (faulted s 4#3 lo) :=
  if_neg (Bool.eq_false_iff.mp h)

/-- Settles O18, by CALC's precondition; a completed CALC is the pure controller step, with its test of PPR_VALID
turned round. -/
theorem calcFollowsTheSevenSteps : Obligations.CalcFollowsTheSevenSteps := by
  unfold Obligations.CalcFollowsTheSevenSteps
  refine fun s => ⟨exec_calcPid_fault, fun h => ?_⟩
  rw [exec_calcPid_done h, calcDone, pidStep, ite_pprValid]
  rfl

/-- Settles O19: CALC3 latches the error and is CALC from there, and a completed CALC writes the controller, OUT and
PHASE alone. -/
theorem calc3IsCalcOnTheError : Obligations.Calc3IsCalcOnTheError := by
  unfold Obligations.Calc3IsCalcOnTheError
  refine fun s => ⟨exec_calc3 s, fun h => ?_⟩
  exact ⟨_, (exec_calc3 s).trans (exec_calcPid_done (s := s.withError) h), rfl, rfl, rfl, rfl, rfl, rfl⟩

/-- Settles O20: the stored value is a clamped one, and a clamp between ordered limits gives a NaN or a value between
them. -/
theorem calcOutputStaysInsideTheLimits : Obligations.CalcOutputStaysInsideTheLimits := by
  unfold Obligations.CalcOutputStaysInsideTheLimits
  intro s hb hdt hl
  refine ⟨_, exec_calcPid_done (flt_of_lt hb hdt), calcDone_out .., ?_⟩
  rw [calcDone_rt, arith_binary32 hb]
  exact pidStep_withinLimits s.param hl ..

/-- Settles O21: the filter state stays +0.0, so KD times it is a zero or a NaN by the kind of KD, and PREV_PR is read
only where PPR_VALID is 1. -/
theorem coldCalcSuppressesTheDerivative : Obligations.ColdCalcSuppressesTheDerivative := by
  unfold Obligations.ColdCalcSuppressesTheDerivative
  intro s hb ⟨_, hdiv, _⟩ hdt hv hfd
  have hflt := flt_of_lt hb hdt
  have hcold : (calcDone s.loc.err s).rt.fd = F32.posZero := by
    rw [calcDone_rt, arith_binary32 hb]
    exact pidStep_fd_of_cold s.param _ _ hv hfd (F32.lt_posZero_of_one_le hdiv)
  refine ⟨_, exec_calcPid_done hflt, hcold, rfl, ?_, fun hk => ?_, fun hk => ?_, fun x => ?_⟩
  · rw [calcDone_rt, arith_binary32 hb]
    rfl
  · rw [hcold, F32.mul_posZero_of_finite hk, F32.isZero_zero]
  · rw [hcold, F32.isNan_mul_posZero hk]
  · rw [← calcDone_withPrevPr s.loc.err x hv]
    exact exec_calcPid_done (s := s.withPrevPr x) hflt

/-- Settles O22: PID_RESET leaves a cold controller, whose accumulator after a zero error is the clamped +0.0. -/
theorem zeroErrorAfterPidResetAddsNothing : Obligations.ZeroErrorAfterPidResetAddsNothing := by
  unfold Obligations.ZeroErrorAfterPidResetAddsNothing
  intro s t hb ⟨_, hdiv, _⟩ hdt hp hi hk ht
  cases ht
  refine ⟨_, exec_calcPid_done (flt_of_lt hb hdt), ?_⟩
  change (pidStep s.params.arith s.params.filterDiv s.param (PidRuntime.cold _) F32.posZero s.loop.dtLatch).acc = _
  rw [arith_binary32 hb]
  exact pidStep_acc_of_cold_zero _ (F32.lt_posZero_of_one_le hdiv) hdt hp hi hk

/-- Settles O23: the reset is SET_GAIN's with the gains and limits the state has. -/
theorem pidResetClearsTheRuntimeRegisters : Obligations.PidResetClearsTheRuntimeRegisters := by
  unfold Obligations.PidResetClearsTheRuntimeRegisters
  exact fun s => ⟨_, rfl, (clearRuntime_withParam s.param s).2⟩

/-- Settles O24, by the limit check. -/
theorem setParamReplacesAndResets : Obligations.SetParamReplacesAndResets := by
  unfold Obligations.SetParamReplacesAndResets
  intro kp ki kd lo hi s
  exact ⟨fun h => ⟨_, exec_setParam_of_fle kp ki kd h, clearRuntime_withParam _ s⟩, exec_setParam_of_not_fle kp ki kd⟩

/-- Settles O25: the gains are replaced without a check, and the reset follows. -/
theorem setGainReplacesGainsAndResets : Obligations.SetGainReplacesGainsAndResets := by
  unfold Obligations.SetGainReplacesGainsAndResets
  exact fun kp ki kd s => ⟨_, exec_setGain kp ki kd s, clearRuntime_withParam _ s⟩

/-- Settles O26, by the limit check; the completed command writes the limits alone. -/
theorem setLimitDoesNotReset : Obligations.SetLimitDoesNotReset := by
  unfold Obligations.SetLimitDoesNotReset
  exact fun lo hi s => ⟨exec_setLimit_of_fle, exec_setLimit_of_not_fle⟩

end Sys2Proof.Machine

/-! ### The phases of a tick refine the tick's function (rules R191 and R210)

`RunsTo n c t` is what the statement asks of a run, with `n` steps to go. It is proved from the end of the tick
backwards, one lemma for each of the functions `tick` is made of: the two offers, `tickCommand`, `tickControl`. -/

namespace Sys2Proof.Machine

/-- The tick that ends in `t` is what the machine does from `c` in `n` steps, or in fewer where the tick faults. -/
def RunsTo (n : Nat) (c t : State) : Prop :=
  ∃ k u, k ≤ n ∧ core.run k c = .next u ∧ sameAtTickEnd t u ∧ (t.phase ≠ 15#4 → k = n ∧ t.phase = 0#4)

/-- The machine's state `c` beside the state `s` the tick's function works on, with `n` quiet steps to come: every
register that is no tick-local latch agrees, PHASE apart. -/
structure InTick (s : State) (n : Nat) (c : State) : Prop where
  params : c.params = s.params
  rf : c.rf = s.rf
  param : c.param = s.param
  rt : c.rt = s.rt
  cfg : c.cfg = s.cfg
  loop : c.loop = s.loop
  flt : c.flt = s.flt
  outs : c.outs = s.outs
  quiet : ∃ l, c.env.ext = List.replicate n none ++ l

section
variable {s c c' t : State} {n : Nat}

theorem core_run_succ (hs : step c = .next c') (k : Nat) : core.run (k + 1) c = core.run k c' := by
  have e : core.step c = .next c' := hs
  simp only [Host.Core.run, e]

/-- One step before a run. -/
theorem RunsTo.cons (hs : step c = .next c') (h : RunsTo n c' t) : RunsTo (n + 1) c t := by
  obtain ⟨k, u, hk, hrun, hu, hph⟩ := h
  exact ⟨k + 1, u, by omega, (core_run_succ hs k).trans hrun, hu, fun hp => ⟨by rw [(hph hp).1], (hph hp).2⟩⟩

/-- A step that ends the tick with a fault. -/
theorem RunsTo.fault (hs : step c = .next c') (h : sameAtTickEnd t c') (hp : t.phase = 15#4) : RunsTo (n + 1) c t :=
  ⟨1, c', by omega, core_run_succ hs 0, h, fun hn => absurd hp hn⟩

/-- The tick is over when the machine is back in IDLE. -/
theorem InTick.runsTo_idle (h : InTick s n c) (hp : c.phase = 0#4) : RunsTo 0 c (s.withPhase Phase.idle) :=
  ⟨0, c, le_rfl, rfl, ⟨h.rf, h.param, h.rt, h.cfg, hp, h.loop, h.flt, h.outs⟩, fun _ => ⟨rfl, rfl⟩⟩

/-- Both states take a fault alike. -/
theorem InTick.raise (h : InTick s n c) (cause : BitVec 3) (v : BitVec 32) :
    sameAtTickEnd (s.raise cause v) (c.raise cause v) :=
  ⟨h.rf, h.param, h.rt, h.cfg, rfl, h.loop, rfl, h.outs⟩

/-- Where the outside does nothing the step is the work of the phase. -/
theorem InTick.step_eq (h : InTick s (n + 1) c) {o : Outcome} (hs : phaseStep c.popExt = o) : step c = o := by
  obtain ⟨l, hl⟩ := h.quiet
  exact (step_of_phase (extAnswer_cons hl)).trans hs

theorem InTick.popExt (h : InTick s (n + 1) c) : InTick s n c.popExt := by
  obtain ⟨l, hl⟩ := h.quiet
  exact { h with quiet := ⟨l, by rw [popExt_cons hl]; rfl⟩ }

/-- A quiet step draws no free value, so the coming answers of `try_send` stay what they are. -/
theorem InTick.txAnswer_popExt (h : InTick s (n + 1) c) :
    c.popExt.txAnswer = c.txAnswer ∧ c.popExt.popTx.txAnswer = c.popTx.txAnswer := by
  obtain ⟨l, hl⟩ := h.quiet
  rw [popExt_cons hl]
  exact ⟨rfl, rfl⟩

theorem InTick.slot (h : InTick s n c) (i : Fin 8) : c.slot i = s.slot i := State.slot_of_rf h.rf i

theorem InTick.putTelemetry (h : InTick s n c) (i : Fin 8) (d : Telem) :
    InTick (s.putTelemetry i d) n (c.putTelemetry i d) :=
  { h with rf := by simp only [State.putTelemetry, h.rf, h.slot] }

theorem InTick.putCommand (h : InTick s n c) (i : Fin 8) (q : I16) : InTick (s.putCommand i q) n (c.putCommand i q) :=
  { h with rf := by simp only [State.putCommand, h.rf, h.slot] }

theorem InTick.calcDone (h : InTick s n c) (e : F32) :
    InTick { s with rt := (calcDone e s).rt } n (calcDone e c) :=
  { h with rt := by simp [h.params, h.param, h.rt, h.loop] }

/-- REG_UPDATE ends both states in LOOKUP, or faults in both. -/
theorem InTick.registryUpdate (h : InTick s n c) (d : Option Telem) :
    ((registryUpdate d s).phase = 3#4 ∧ (registryUpdate d c).phase = 3#4
        ∧ InTick (registryUpdate d s) n (registryUpdate d c))
      ∨ ((registryUpdate d s).phase = 15#4 ∧ sameAtTickEnd (registryUpdate d s) (registryUpdate d c)) := by
  cases d with
  | none => exact .inl ⟨rfl, rfl, { h with }⟩
  | some x =>
    by_cases hx : x.idx < 0 ∨ 7 < x.idx
    · cases hp : s.params.id200 with
      | fault =>
        rw [registryUpdate_fault hx hp, registryUpdate_fault hx (by rw [h.params, hp])]
        exact .inr ⟨rfl, h.raise ..⟩
      | drop =>
        rw [registryUpdate_drop hx hp, registryUpdate_drop hx (by rw [h.params, hp])]
        exact .inl ⟨rfl, rfl, { h with }⟩
    · obtain ⟨k, hk⟩ : ∃ k : Fin 8, x.idx = (k.val : Int) := ⟨⟨x.idx.toNat, by omega⟩, by simp; omega⟩
      rw [registryUpdate_slot s hk, registryUpdate_slot c hk]
      exact .inl ⟨rfl, rfl, { h.putTelemetry k x with }⟩

/-- What an offer of `f` sends and reports. -/
def offerOutputs (f : Frame) (e : DiagEvent) (ok : Bool) : List Output :=
  [.offered f ok] ++ if ok then [] else [.diag e]

/-- A quiet step that offers a frame. -/
theorem InTick.offered (h : InTick s (n + 1) c) (f : Frame) (e : DiagEvent) (p : BitVec 4) :
    InTick { s with outs := s.outs ++ offerOutputs f e c.txAnswer } n (offerFrame f e p c.popExt)
      ∧ (offerFrame f e p c.popExt).txAnswer = c.popTx.txAnswer := by
  obtain ⟨hA, hB⟩ := h.txAnswer_popExt
  rw [offerFrame_eq, hA]
  exact ⟨{ h.popExt with outs := by simp [offerOutputs, h.outs] }, hB⟩

theorem InTick.runsTo_txb (h : InTick s 1 c) (hp : c.phase = 8#4) :
    RunsTo 1 c (State.withPhase { s with outs := s.outs ++ offerOutputs c.lat.frb .txbFail c.txAnswer } Phase.idle) :=
  .cons (h.step_eq (phaseStep_txb hp)) ((h.offered ..).1.runsTo_idle (offerFrame_phase ..))

theorem InTick.runsTo_txa (h : InTick s 2 c) (hp : c.phase = 7#4) :
    RunsTo 2 c (State.withPhase { s with
      outs := s.outs ++ offerOutputs c.lat.fra .txaFail c.txAnswer ++ offerOutputs c.lat.frb .txbFail c.popTx.txAnswer }
      Phase.idle) := by
  obtain ⟨hin, hB⟩ := h.offered c.lat.fra .txaFail Phase.txb
  refine .cons (h.step_eq (phaseStep_txa hp)) ?_
  have hrun := hin.runsTo_txb (offerFrame_phase ..)
  rwa [hB, offerFrame_lat] at hrun

/-- ENCODE, TXA and TXB are the two offers that end a tick. -/
theorem InTick.runsTo_offerBoth (h : InTick s 3 c) (hp : c.phase = 6#4) :
    RunsTo 3 c ((s.offerBoth (encodeFrames s.commands) c.txAnswer c.popTx.txAnswer).withPhase Phase.idle) := by
  have hcmd : c.popExt.commands = s.commands := State.commands_of_rf h.rf
  have hin : InTick s 2 c.popExt.encoded := { h.popExt with }
  obtain ⟨hA, hB⟩ := h.txAnswer_popExt
  rw [← hA, ← hB, ← hcmd]
  exact .cons (h.step_eq (phaseStep_encode hp)) (hin.runsTo_txa rfl)

/-- From QUANT on, with a target slot in range and the controller's output latched. -/
theorem InTick.runsTo_tickCommand (h : InTick s 4 c) (hp : c.phase = 5#4) {i : Fin 8}
    (hi : s.cfg.targetSlot.toNat = i.val) (hout : c.lat.out = s.rt.acc) :
    RunsTo 4 c (tickCommand i c.txAnswer c.popTx.txAnswer s) := by
  have hq : quantize c.popExt.params.arith c.popExt.lat.out = quantize s.params.arith s.rt.acc := by
    rw [State.popExt_params, State.popExt_lat, h.params, hout]
  obtain ⟨hA, hB⟩ := h.txAnswer_popExt
  rw [tickCommand]
  cases hs : quantize s.params.arith s.rt.acc with
  | none =>
    rw [← hout]
    exact .fault (h.step_eq (phaseStep_quant_nan hp (hq.trans hs))) (h.popExt.raise ..) rfl
  | some q =>
    have hslot : c.cfg.targetSlot.toNat = i.val := by rw [h.cfg]; exact hi
    have hin : InTick (s.putCommand i q) 3 (((c.popExt.quantized q).putCommand i q).withPhase Phase.encode) :=
      { h.popExt.putCommand i q with }
    rw [← hA, ← hB]
    exact .cons (h.step_eq ((phaseStep_quant_some (s := c.popExt) hp (hq.trans hs)).trans (execSlotWrCmd_slot hslot)))
      (hin.runsTo_offerBoth rfl)

/-- The error operand of slot `i` (rule R210). -/
def State.slotError (s : State) (i : Fin 8) : F32 :=
  s.params.arith.fsub s.cfg.targetRpm (s.params.arith.i16ToF32 (s.slot i).rpm)

theorem tickControl_done {i : Fin 8} (okA okB : Bool) (hi : s.cfg.targetSlot.toNat = i.val)
    (hdt : s.params.arith.flt F32.posZero s.loop.dtLatch = true) :
    tickControl okA okB s = tickCommand i okA okB { s with rt := (calcDone (s.slotError i) s).rt } := by
  rw [tickControl, slotIx_target hi]
  exact if_pos hdt

theorem tickControl_dtFault {i : Fin 8} (okA okB : Bool) (hi : s.cfg.targetSlot.toNat = i.val)
    (hdt : s.params.arith.flt F32.posZero s.loop.dtLatch = false) :
    tickControl okA okB s = s.raise Cause.dtRange s.loop.dtLatch := by
  rw [tickControl, slotIx_target hi]
  exact if_neg (Bool.eq_false_iff.mp hdt)

theorem tickControl_slotFault (okA okB : Bool) (hi : 7 < s.cfg.targetSlot.toNat) :
    tickControl okA okB s = s.raise Cause.slotRange (s.cfg.targetSlot.setWidth 32) := by
  rw [tickControl, slotIx_target_none hi, indexInfo_target]

/-- From COMPUTE on, with the speed of the target slot latched. -/
theorem InTick.runsTo_compute (h : InTick s 5 c) (hp : c.phase = 4#4) {i : Fin 8} (hi : s.cfg.targetSlot.toNat = i.val)
    (hact : c.lat.act = (s.slot i).rpm) : RunsTo 5 c (tickControl c.txAnswer c.popTx.txAnswer s) := by
  have he : c.popExt.errorOperand = s.slotError i := by
    simp [State.errorOperand, State.slotError, h.params, h.cfg, hact]
  have hstep : step c = .next (calcStep (s.slotError i) c.popExt.withError) := h.step_eq (he ▸ phaseStep_compute hp)
  have hin : InTick s 4 c.popExt.withError := { h.popExt with }
  obtain ⟨hA, hB⟩ := h.txAnswer_popExt
  rcases calcStep_cases (s.slotError i) c.popExt.withError with ⟨hdt, hcalc⟩ | ⟨hdt, hcalc⟩ <;>
    rw [hin.params, hin.loop] at hdt
  · rw [tickControl_done _ _ hi hdt, ← hA, ← hB]
    have hdone := hin.calcDone (s.slotError i)
    exact .cons (hstep.trans (congrArg _ hcalc)) (hdone.runsTo_tickCommand rfl hi (congrArg PidRuntime.acc hdone.rt))
  · rw [tickControl_dtFault _ _ hi hdt, ← hin.loop]
    exact .fault (hstep.trans (congrArg _ hcalc)) (hin.raise ..) rfl

/-- From LOOKUP on. -/
theorem InTick.runsTo_tickControl (h : InTick s 6 c) (hp : c.phase = 3#4) :
    RunsTo 6 c (tickControl c.txAnswer c.popTx.txAnswer s) := by
  obtain ⟨hA, hB⟩ := h.txAnswer_popExt
  have hstep : step c = execSlotRd c.popExt := h.step_eq (phaseStep_lookup hp)
  rcases target_cases s with ⟨i, hi⟩ | hi
  · have hslot : c.popExt.cfg.targetSlot.toNat = i.val := by rw [h.popExt.cfg]; exact hi
    rw [← hA, ← hB]
    refine .cons (hstep.trans (execSlotRd_slot hslot)) (InTick.runsTo_compute { h.popExt with } rfl hi ?_)
    exact congrArg Slot.rpm (h.popExt.slot i)
  · have hslot : 7 < c.popExt.cfg.targetSlot.toNat := by rw [h.popExt.cfg]; exact hi
    rw [tickControl_slotFault _ _ hi, ← h.popExt.cfg]
    exact .fault (hstep.trans (execSlotRd_fault hslot)) (h.popExt.raise ..) rfl

theorem registryUpdate_txAnswer (d : Option Telem) (s : State) : (registryUpdate d s).txAnswer = s.txAnswer := by
  simp [State.txAnswer]

theorem registryUpdate_popTx_txAnswer (d : Option Telem) (s : State) :
    (registryUpdate d s).popTx.txAnswer = s.popTx.txAnswer := by
  simp [State.txAnswer]

/-- From DECODE on, with the answer of the bus latched. -/
theorem InTick.runsTo_tick (h : InTick s 7 c) (hp : c.phase = 2#4) :
    RunsTo 7 c (tick c.lat.rxf c.txAnswer c.popTx.txAnswer s) := by
  obtain ⟨hA, hB⟩ := h.txAnswer_popExt
  have hin : InTick s 6 c.popExt.decoded := { h.popExt with }
  have hstep := h.step_eq (phaseStep_decode (s := c.popExt) hp)
  rw [tick]
  rcases hin.registryUpdate (c.lat.rxf.bind decodeTelemetry) with ⟨hs, hc, hup⟩ | ⟨hs, hend⟩
  · have hrun := hup.runsTo_tickControl hc
    rw [registryUpdate_txAnswer, registryUpdate_popTx_txAnswer] at hrun
    rw [if_neg (by rw [hs]; decide), ← hA, ← hB]
    exact .cons hstep hrun
  · rw [if_pos hs]
    exact .fault hstep hend hs

end

/-- Settles O51: RX latches the bus's answer, and from DECODE on each function of the tick is what its phases do. -/
theorem phasesRefineTheWholeTick : Obligations.PhasesRefineTheWholeTick := by
  unfold Obligations.PhasesRefineTheWholeTick
  intro s l hl hp
  have hin : InTick s 8 s := ⟨rfl, rfl, rfl, rfl, rfl, rfl, rfl, rfl, l, hl⟩
  have hrx : InTick s 7 s.popExt.received := { hin.popExt with }
  have hrun : RunsTo 8 s _ := .cons (hin.step_eq (phaseStep_rx hp)) (hrx.runsTo_tick rfl)
  rw [popExt_cons hl] at hrun
  exact hrun

end Sys2Proof.Machine

/-! ### A step and the operations of the table (rules R90, R191, R193, R198, R208 and R213) -/

namespace Sys2Proof.Machine

open Sys2Proof.Claims

/-- Outside IDLE the work of a phase leaves the command port alone. -/
theorem phaseStep_cmd {s t : State} (hp : s.phase ≠ 0#4) (h : phaseStep s = .next t) : t.env.cmd = s.env.cmd := by
  rcases phaseStep_next h with ⟨h0, -⟩ | ⟨-, rfl⟩ | ⟨-, rfl⟩ | ⟨-, k, -, rfl⟩ | ⟨-, -, rfl⟩ | ⟨-, rfl⟩ | ⟨-, -, rfl⟩
    | ⟨-, q, -, k, -, rfl⟩ | ⟨-, q, -, -, rfl⟩ | ⟨-, rfl⟩ | ⟨-, rfl⟩ | ⟨-, rfl⟩
  · exact absurd h0 hp
  all_goals simp

/-- Settles O49: of all a step can do, only an IDLE phase asks the command port. -/
theorem commandsWaitOutsideIdle : Obligations.CommandsWaitOutsideIdle := by
  unfold Obligations.CommandsWaitOutsideIdle
  intro s t hp h
  rcases step_next h with ⟨-, rfl⟩ | ⟨_, -, rfl⟩ | ⟨-, h⟩
  · rfl
  · rfl
  · exact phaseStep_cmd (s := s.popExt) hp h

/-- The operation that decodes from a phase code as the second of its phase, CALC excepted, which CALC3 performs. -/
def secondOp (p : BitVec 4) : List Instr :=
  if p = 4#4 then [] else
    match decodeUop p .second with
    | .ok j => [j]
    | .error _ => []

/-- The operations of a phase are those its code decodes to. -/
theorem phaseOps_eq (p : BitVec 4) :
    phaseOps p = match decodeUop p .first with
      | .ok i => some (i :: secondOp p)
      | .error _ => none := by
  revert p
  decide

theorem phaseOps_of_decode {p : BitVec 4} {i : Instr} (h : decode (.uop p .first) = .ok i) :
    phaseOps p = some (i :: secondOp p) := by
  have h' : decodeUop p .first = .ok i := h
  rw [phaseOps_eq, h']

theorem secondOp_eq_nil {p : BitVec 4} (h : (∀ j, decode (.uop p .second) ≠ .ok j) ∨ p = 4#4) :
    secondOp p = [] := by
  rcases h with h | rfl
  · cases hd : decodeUop p .second with
    | ok j => exact absurd hd (h j)
    | error e => simp [secondOp, hd]
  · rfl

theorem secondOp_eq_singleton {p : BitVec 4} {j : Instr} (h : decode (.uop p .second) = .ok j) (hp : p ≠ 4#4) :
    secondOp p = [j] := by
  have h' : decodeUop p .second = .ok j := h
  rw [secondOp, if_neg hp, h']

/-- Settles O42: `phaseOps` is the decoder's table, so a step runs its one operation, or the two in turn. -/
theorem stepRunsTheOperationsOfThePhase : Obligations.StepRunsTheOperationsOfThePhase := by
  unfold Obligations.StepRunsTheOperationsOfThePhase
  refine ⟨fun s i he hi hone => ?_, fun s u i j he hne hi hj hu => ?_, fun s e he hi => ?_, fun s => ?_⟩
  · rw [step_of_phase he, phaseStep, State.popExt_phase, phaseOps_of_decode hi, secondOp_eq_nil hone]
    exact runOps_one _ _
  · rw [step_of_phase he, phaseStep, State.popExt_phase, phaseOps_of_decode hi, secondOp_eq_singleton hj hne]
    exact ⟨fun hh => (runOps_two i j hu).trans (if_pos hh), fun hh => (runOps_two i j hu).trans (if_neg hh)⟩
  · have hi' : decodeUop s.phase .first = .error e := hi
    rw [step_of_phase he, phaseStep, State.popExt_phase, phaseOps_eq, hi']
  · exact ⟨⟨rfl, rfl, rfl, rfl, rfl, rfl, rfl⟩, rfl, rfl, rfl, rfl, rfl⟩

/-- Settles O43: the IDLE step hands the word it takes to EXEC_CMD, which runs the command the decoder reads. -/
theorem stepRunsThePendingCommand : Obligations.StepRunsThePendingCommand := by
  unfold Obligations.StepRunsThePendingCommand
  intro s w i he hp hw hi
  rw [step_of_phase he, phaseStep_idle (s := s.popExt) hp, execIdleStep_command hw]
  exact execCmdWord_decoded hi _

@[simp] theorem hiByte_append (a b : Byte) : hiByte (a ++ b) = a := extract_top a b

@[simp] theorem loByte_append (a b : Byte) : loByte (a ++ b) = b := extract_bottom a b

/-- The commands read from a payload, laid out again, are the payload (rule R86). -/
theorem commandPayload_of_bytes (p : Vector Byte 8) :
    commandPayload (p[0] ++ p[1]) (p[2] ++ p[3]) (p[4] ++ p[5]) (p[6] ++ p[7]) = p := by
  simp only [commandPayload, hiByte_append, loByte_append]
  refine Vector.ext fun i hi => ?_
  interval_cases i <;> rfl

/-- A frame with a data header is the data frame of the commands its payload holds. -/
theorem eq_dataFrame {f : Frame} {k : BitVec 32}
    (h : f.id = k ∧ f.isStandard = true ∧ f.isData = true ∧ f.length = 8#8) :
    f = dataFrame k (commandPayload (f.payload[0] ++ f.payload[1]) (f.payload[2] ++ f.payload[3])
      (f.payload[4] ++ f.payload[5]) (f.payload[6] ++ f.payload[7])) := by
  obtain ⟨id, standard, data, length, payload⟩ := f
  obtain ⟨rfl, rfl, rfl, rfl⟩ := h
  exact congrArg (dataFrame id) (commandPayload_of_bytes payload).symm

/-- The outbound decoder reads a frame as frame A or as frame B by its identifier (rules R85 and R86). -/
theorem decode_frameOut_cases {f : Frame} {i : Instr} (h : decode (.frameOut f.toBits) = .ok i) :
    ∃ c0 c1 c2 c3, (f = frameA c0 c1 c2 c3 ∧ i = .cmdFrameA c0 c1 c2 c3)
      ∨ (f = frameB c0 c1 c2 c3 ∧ i = .cmdFrameB c0 c1 c2 c3) := by
  obtain ⟨h1, h2, h3, h4, -⟩ := payload_fields f.payload
  simp only [decode, decodeFrameOut, toBits_header, headerBits_eq_dataHeader] at h
  rw [toBits_payload f 48 16 (by omega), toBits_payload f 32 16 (by omega), toBits_payload f 16 16 (by omega),
    toBits_payload f 0 16 (by omega), h1, h2, h3, h4] at h
  split at h
  · exact ⟨_, _, _, _, .inl ⟨eq_dataFrame ‹_›, by cases h; rfl⟩⟩
  split at h
  · exact ⟨_, _, _, _, .inr ⟨eq_dataFrame ‹_›, by cases h; rfl⟩⟩
  · cases h

/-- The telemetry frame in RXF as an operation is what DECODE makes of it (log 14). -/
theorem exec_frameIn {f : Frame} {i : Instr} (h : decode (.frameIn f.toBits) = .ok i) {s : State}
    (hf : s.lat.rxf = some f) : exec i s = .next (registryUpdate (s.lat.rxf.bind decodeTelemetry) s.decoded) := by
  by_cases ha : Accepted f
  · have hd : s.lat.rxf.bind decodeTelemetry = some ⟨(f.id.toNat : Int) - 0x201, f.payload[0] ++ f.payload[1],
        f.payload[2] ++ f.payload[3], f.payload[4] ++ f.payload[5], f.payload[6]⟩ := by
      rw [hf]
      exact decodeTelemetry_of_accepted ha
    rw [State.decoded, hd]
    by_cases hid : f.id.toNat = 0x200
    · cases (decode_frameIn_noSlot ha hid).symm.trans h
      rw [hid]
      rfl
    · obtain ⟨k, hk⟩ : ∃ k : Fin 8, f.id.toNat = 0x201 + k.val := by
        obtain ⟨-, -, -, hlo, hhi⟩ := ha
        exact ⟨⟨f.id.toNat - 0x201, by omega⟩, by simp only; omega⟩
      cases (decode_frameIn_slot ha k hk).symm.trans h
      rw [exec_telemetryInstr, show (f.id.toNat : Int) - 0x201 = (k.val : Int) by omega]
      rfl
  · cases (decode_frameIn_of_not_accepted ha).symm.trans h

/-- Settles O44: the decoder reads the latched frame as what the phase performs on it, and a debug read that is due
comes before the phase. -/
theorem stepRunsTheFrameOrDebugRead : Obligations.StepRunsTheFrameOrDebugRead := by
  unfold Obligations.StepRunsTheFrameOrDebugRead
  refine ⟨fun s f i he hp hf hi => ?_, fun s c0 c1 c2 c3 he hp hi => ?_, fun s c4 c5 c6 c7 he hp hi => ?_,
    fun s sel he => step_of_dbgRead he⟩
  · rw [step_decode ⟨he, hp⟩, exec_frameIn (s := s.popExt) hi hf]
    rfl
  · rw [step_txa ⟨he, hp⟩]
    obtain ⟨_, _, _, _, ⟨hf, ⟨⟩⟩ | ⟨-, ⟨⟩⟩⟩ := decode_frameOut_cases hi
    rw [hf]
    rfl
  · rw [step_txb ⟨he, hp⟩]
    obtain ⟨_, _, _, _, ⟨-, ⟨⟩⟩ | ⟨hf, ⟨⟩⟩⟩ := decode_frameOut_cases hi
    rw [hf]
    rfl

end Sys2Proof.Machine

/-! ### The loop's own operations (rules R193, R194, R196, R208 and R215 to R218) -/

namespace Sys2Proof.Machine

open Sys2Proof.Claims

/-- A tick is due exactly when the loop runs and the elapsed count, as an integer, exceeds PERIOD (rule R194). -/
theorem State.tickDue_iff {s : State} (h : s.params.timeW ≤ 64) :
    s.tickDue ↔ s.loop.run = true ∧ (s.cfg.period.toNat : Int)
      < ((s.nowAnswer.toNat : Int) - (s.loop.lastTick.toNat : Int)) % 2 ^ s.params.timeW := by
  rw [State.tickDue, ← elapsed_toInt _ _ h, Nat.cast_lt]

theorem exec_idleStep_due {s : State} (h : s.sampleNow.cmdAnswer = none) (hdue : s.tickDue) :
    exec .idleStep s = .next s.asked.fireTick := by
  rcases execIdleStep_cases s with ⟨w, hw, -⟩ | ⟨-, -, e⟩ | ⟨-, hn, -⟩
  · cases h.symm.trans hw
  · exact e
  · exact absurd hdue hn

theorem exec_idleStep_wait {s : State} (h : s.sampleNow.cmdAnswer = none) (hdue : ¬ s.tickDue) :
    exec .idleStep s = .next s.asked := by
  rcases execIdleStep_cases s with ⟨w, hw, -⟩ | ⟨-, hd, -⟩ | ⟨-, -, e⟩
  · cases h.symm.trans hw
  · exact absurd hd hdue
  · exact e

/-- Settles O32, by the answer of the command port and the trigger. -/
theorem idleStepDoesOneOfThreeThings : Obligations.IdleStepDoesOneOfThreeThings := by
  unfold Obligations.IdleStepDoesOneOfThreeThings
  intro s hw
  refine ⟨⟨rfl, rfl, rfl, rfl, rfl, rfl, rfl⟩, rfl, rfl, rfl, rfl, fun w i hc hi => ?_, fun hc hr he => ?_,
    fun hc hn => exec_idleStep_wait hc (mt (State.tickDue_iff hw).mp hn)⟩
  · exact (execIdleStep_command hc).trans (execCmdWord_decoded hi _)
  · refine ⟨s.asked.fireTick, exec_idleStep_due hc ((State.tickDue_iff hw).mpr ⟨hr, he⟩), ?_, rfl, ?_, rfl, rfl⟩
    · exact congrArg (LoopRegs.mk s.nowAnswer s.asked.dtAnswer) hr
    · simp [SameRegs]

/-- Settles O33: the phase is one answer taken from the tape of `try_receive()`. -/
theorem tryReceiveLatchesOneAnswer : Obligations.TryReceiveLatchesOneAnswer := by
  unfold Obligations.TryReceiveLatchesOneAnswer
  exact fun s => ⟨s.received, rfl, rfl, rfl, ⟨rfl, rfl, rfl, rfl, rfl, rfl, rfl⟩, rfl, rfl, rfl, rfl⟩

/-- Settles O34: both phases are the offer of a latched frame, which changes no register but PHASE. -/
theorem trySendOffersOnceAndReportsFailure : Obligations.TrySendOffersOnceAndReportsFailure := by
  unfold Obligations.TrySendOffersOnceAndReportsFailure
  exact fun s => ⟨⟨_, rfl, offerFrame_outs .., offerFrame_phase .., offerFrame_sameRegs .., offerFrame_rf ..,
      offerFrame_loc .., offerFrame_env ..⟩,
    ⟨_, rfl, offerFrame_outs .., offerFrame_phase .., offerFrame_sameRegs .., offerFrame_rf .., offerFrame_loc ..,
      offerFrame_env ..⟩⟩

/-- The period operand is `{a1, a0}` cut to TIME_W bits (rule R217). -/
theorem periodOperand_toNat {p : Params} (h : p.timeW ≤ 64) (lo hi : BitVec 32) :
    (periodOperand p lo hi).toNat = (lo.toNat + hi.toNat * 2 ^ 32) % 2 ^ p.timeW := by
  have hword : (hi ++ lo).toNat = lo.toNat + hi.toNat * 2 ^ 32 := by
    rw [BitVec.toNat_append, Nat.shiftLeft_eq, Nat.add_comm, Nat.mul_comm, Nat.two_pow_add_eq_or_of_lt lo.isLt]
  have hfits : (lo.toNat + hi.toNat * 2 ^ 32) % 2 ^ p.timeW < 2 ^ 64 :=
    (Nat.mod_lt _ (Nat.two_pow_pos _)).trans_le (Nat.pow_le_pow_right (by decide) h)
  rw [periodOperand, hword, BitVec.toNat_ofNat, Nat.mod_eq_of_lt hfits]

/-- Settles O36: each command is the update of one register, and SET_PERIOD's operand is cut to TIME_W bits. -/
theorem loopConfigurationCommandsWriteOneRegister : Obligations.LoopConfigurationCommandsWriteOneRegister := by
  unfold Obligations.LoopConfigurationCommandsWriteOneRegister
  exact ⟨fun r s => rfl, fun n s => rfl, fun lo hi s hw => ⟨_, rfl, periodOperand_toNat hw lo hi⟩⟩

theorem LoopRegs.started_of_stopped {l : LoopRegs} (h : l.run = false) (t : Time) :
    l.started t = { l with run := true, lastTick := t } := by
  rw [LoopRegs.started, h]
  rfl

theorem LoopRegs.started_of_running {l : LoopRegs} (h : l.run = true) (t : Time) : l.started t = l := if_pos h

/-- Settles O37, by RUN. -/
theorem startArmsTheLoopOnce : Obligations.StartArmsTheLoopOnce := by
  unfold Obligations.StartArmsTheLoopOnce
  intro s
  refine ⟨fun h => ?_, fun h => ?_⟩
  · rw [← LoopRegs.started_of_stopped h]
    rfl
  · change Host.Outcome.next { s with loop := s.loop.started s.loc.tNow } = .next s
    rw [LoopRegs.started_of_running h]

end Sys2Proof.Machine

/-! ### The transitions of PHASE (rule R219) -/

namespace Sys2Proof.Machine

open Sys2Proof.Claims

/-- The word is a SET_PARAM or a SET_LIMIT whose limits fail LIMIT_CHECK (rule R176). -/
def FailsLimitCheck (fp : FP) (w : CmdWord) : Prop :=
  (∃ kp ki kd lo hi, decode (.cmd w) = .ok (.setParam kp ki kd lo hi) ∧ fp.fle lo hi = false)
    ∨ (∃ lo hi, decode (.cmd w) = .ok (.setLimit lo hi) ∧ fp.fle lo hi = false)

theorem not_failsLimitCheck {fp : FP} {w : CmdWord} {i : Instr} (h : decode (.cmd w) = .ok i)
    (hp : ∀ kp ki kd lo hi, i = .setParam kp ki kd lo hi → fp.fle lo hi = true)
    (hl : ∀ lo hi, i = .setLimit lo hi → fp.fle lo hi = true) : ¬ FailsLimitCheck fp w := by
  rintro (⟨kp, ki, kd, lo, hi, hd, hf⟩ | ⟨lo, hi, hd, hf⟩)
  · cases h.symm.trans hd
    exact absurd (hp _ _ _ _ _ rfl) (by rw [hf]; decide)
  · cases h.symm.trans hd
    exact absurd (hl _ _ rfl) (by rw [hf]; decide)

/-- A host command leaves PHASE alone, unless it fails LIMIT_CHECK and faults. -/
theorem execCmdWord_phase {w : CmdWord} {i : Instr} (h : decode (.cmd w) = .ok i) (s : State) :
    ∃ t, execCmdWord w s = .next t
      ∧ ((FailsLimitCheck s.params.arith w ∧ t.phase = 15#4 ∧ t.flt.cause = 4#3)
        ∨ (¬ FailsLimitCheck s.params.arith w ∧ t.phase = s.phase)) := by
  rw [execCmdWord_decoded h]
  rcases decodeCmd_ok h with rfl | ⟨kp, ki, kd, lo, hi, rfl⟩ | ⟨_, _, _, rfl⟩ | ⟨lo, hi, rfl⟩ | ⟨_, rfl⟩ | ⟨_, rfl⟩
    | ⟨_, _, rfl⟩ | rfl
  case inr.inl =>
    cases hl : s.params.arith.fle lo hi with
    | true =>
      refine ⟨_, exec_setParam_of_fle kp ki kd hl, .inr ⟨not_failsLimitCheck h ?_ nofun, rfl⟩⟩
      rintro _ _ _ _ _ ⟨⟩
      exact hl
    | false => exact ⟨_, exec_setParam_of_not_fle kp ki kd hl, .inl ⟨.inl ⟨kp, ki, kd, lo, hi, h, hl⟩, rfl, rfl⟩⟩
  case inr.inr.inr.inl =>
    cases hl : s.params.arith.fle lo hi with
    | true =>
      refine ⟨_, exec_setLimit_of_fle hl, .inr ⟨not_failsLimitCheck h nofun ?_, rfl⟩⟩
      rintro _ _ ⟨⟩
      exact hl
    | false => exact ⟨_, exec_setLimit_of_not_fle hl, .inl ⟨.inr ⟨lo, hi, h, hl⟩, rfl, rfl⟩⟩
  all_goals exact ⟨_, rfl, .inr ⟨not_failsLimitCheck h nofun nofun, rfl⟩⟩

/-- A pending word that decodes to no command has a reserved opcode (rule R95). -/
theorem decode_cmd_cases (w : CmdWord) :
    (∃ i, decode (.cmd w) = .ok i) ∨ ∃ op, decode (.cmd w) = .error (.reservedOpcode op) := by
  cases h : decodeCmd w with
  | ok i => exact .inl ⟨i, h⟩
  | error e =>
    have hres := h
    simp only [decodeCmd, ite_ok_eq_error_iff] at hres
    obtain ⟨-, -, -, -, -, -, -, -, ⟨⟩⟩ := hres
    exact .inr ⟨_, h⟩

/-- The transitions out of IDLE: a command that stays there or faults, a tick that is due, or nothing. -/
theorem execIdleStep_phase {s : State} (hp : s.phase = 0#4)
    (hres : ∀ w op, s.sampleNow.cmdAnswer = some w → decode (.cmd w) ≠ .error (.reservedOpcode op)) :
    ∃ t, execIdleStep s = .next t
      ∧ (t.phase = 0#4 ∨ t.phase = 1#4 ∨ (t.phase = 15#4 ∧ t.flt.cause = 4#3))
      ∧ (t.phase = 1#4 ↔ s.sampleNow.cmdAnswer = none ∧ s.tickDue)
      ∧ (t.phase = 15#4 ↔ ∃ w, s.sampleNow.cmdAnswer = some w ∧ FailsLimitCheck s.params.arith w) := by
  rcases execIdleStep_cases s with ⟨w, hw, e⟩ | ⟨hn, hdue, e⟩ | ⟨hn, hdue, e⟩
  · obtain ⟨i, hi⟩ := (decode_cmd_cases w).resolve_right fun ⟨op, ho⟩ => hres w op hw ho
    obtain ⟨t, ht, ⟨hf, hph, hc⟩ | ⟨hf, hph⟩⟩ := execCmdWord_phase hi s.asked
    · refine ⟨t, e.trans ht, ?_⟩
      rw [State.asked_params] at hf
      simp [hph, hc, hw, hf]
    · refine ⟨t, e.trans ht, ?_⟩
      rw [State.asked_params] at hf
      simp [hph, hp, hw, hf]
  · refine ⟨_, e, ?_⟩
    simp [hn, hdue, Phase.rx]
  · refine ⟨_, e, ?_⟩
    simp [hn, hdue, hp]

/-- The latched answer of the bus is an accepted frame with identifier 0x200, which names no slot (rule R131). -/
def NamesNoSlot (x : Option Frame) : Prop := ∃ f, x = some f ∧ Accepted f ∧ f.id = 0x200#32

theorem registryUpdate_of_namesNoSlot {x : Option Frame} {s : State} (h : NamesNoSlot x)
    (hp : s.params.id200 = .fault) :
    ∃ v, registryUpdate (x.bind decodeTelemetry) s = s.raise Cause.slotRange v := by
  obtain ⟨f, rfl, ha, hid⟩ := h
  rw [Option.bind_some, decodeTelemetry_of_accepted ha]
  exact ⟨_, registryUpdate_fault (.inl (by simp [hid])) hp⟩

/-- Any other answer lets DECODE go on to LOOKUP. -/
theorem registryUpdate_phase_of_not {x : Option Frame} {s : State} (h : ¬ (NamesNoSlot x ∧ s.params.id200 = .fault)) :
    (registryUpdate (x.bind decodeTelemetry) s).phase = 3#4 := by
  rcases registryUpdate_cases (x.bind decodeTelemetry) s with e | ⟨_, _, -, -, e⟩ | ⟨d, hd, hidx, hp, -⟩
  · rw [e]; rfl
  · rw [e]; rfl
  · obtain ⟨f, rfl, hf⟩ := Option.bind_eq_some_iff.mp hd
    by_cases ha : Accepted f
    · obtain ⟨-, -, -, hlo, hhi⟩ := id ha
      rw [decodeTelemetry_of_accepted ha] at hf
      cases hf
      exact absurd ⟨⟨f, rfl, ha, BitVec.eq_of_toNat_eq (by simp only at hidx; simp; omega)⟩, hp⟩ h
    · rw [decodeTelemetry_of_not_accepted ha] at hf
      cases hf

/-- The two rows of the table for DECODE. -/
theorem registryUpdate_table (x : Option Frame) (s : State) :
    let t := registryUpdate (x.bind decodeTelemetry) s
    (NamesNoSlot x ∧ s.params.id200 = .fault → t.phase = 15#4 ∧ t.flt.cause = 2#3)
      ∧ (¬ (NamesNoSlot x ∧ s.params.id200 = .fault) → t.phase = 3#4) := by
  refine ⟨fun h => ?_, registryUpdate_phase_of_not⟩
  obtain ⟨v, e⟩ := registryUpdate_of_namesNoSlot h.1 h.2
  rw [e]
  exact ⟨rfl, rfl⟩

/-- The codes up to 8 have a step. -/
theorem phaseOps_ne_none {p : BitVec 4} : p.toNat ≤ 8 → phaseOps p ≠ none := by
  revert p
  decide

/-- Settles O47, by PHASE: the invariant leaves the ten codes, and puts the target slot in range in QUANT. -/
theorem phaseTransitionsFollowTheTable : Obligations.PhaseTransitionsFollowTheTable := by
  unfold Obligations.PhaseTransitionsFollowTheTable
  refine ⟨fun s he => ⟨_, step_of_reset he, rfl⟩, fun s t he hp h => ?_, fun s hs he hne hres => ?_⟩
  · rw [step_of_phase he, phaseStep_halt (s := s.popExt) hp] at h
    cases h
  rw [step_of_phase he]
  rcases phase_cases s.phase with hp | hp | hp | hp | hp | hp | hp | hp | hp | hp | hp
  · obtain ⟨t, ht, hto, hrx, hhalt⟩ := execIdleStep_phase (s := s.popExt) hp (hres hp)
    refine ⟨t, (phaseStep_idle (s := s.popExt) hp).trans ht, fun _ => hto, fun _ => hrx, fun _ => hhalt, ?_⟩
    simp [hp]
  · exact ⟨_, phaseStep_rx (s := s.popExt) hp, by simp [hp]⟩
  · have hdec := registryUpdate_table s.lat.rxf s.popExt.decoded
    refine ⟨_, phaseStep_decode (s := s.popExt) hp, ?_, ?_, ?_, ?_, fun _ => hdec, ?_⟩ <;> simp [hp]
  · rcases target_cases s with ⟨k, hk⟩ | hk
    · have hin : s.cfg.targetSlot.toNat ≤ 7 := by omega
      exact ⟨_, (phaseStep_lookup (s := s.popExt) hp).trans (execSlotRd_slot hk), by simp [hp, hin.not_gt]⟩
    · exact ⟨_, (phaseStep_lookup (s := s.popExt) hp).trans (execSlotRd_fault hk), by simp [hp, hk.not_ge]⟩
  · refine ⟨_, phaseStep_compute (s := s.popExt) hp, ?_⟩
    rcases calcStep_cases s.popExt.errorOperand s.popExt.withError with ⟨hdt, e⟩ | ⟨hdt, e⟩
    · have hdt' : s.params.arith.flt 0x00000000#32 s.loop.dtLatch = true := hdt
      simp [hp, e, hdt']
    · have hdt' : s.params.arith.flt 0x00000000#32 s.loop.dtLatch = false := hdt
      simp [hp, e, hdt']
  · cases hq : quantize s.params.arith s.lat.out with
    | none =>
      have hnan := quantize_none.mp hq
      exact ⟨_, phaseStep_quant_nan (s := s.popExt) hp hq, by simp [hp, hnan]⟩
    | some q =>
      have hnan : s.params.arith.isNan s.lat.out = false := by
        rw [← Bool.not_eq_true, ← quantize_none, hq]
        nofun
      obtain ⟨k, hk⟩ := (target_cases s).resolve_right (hs.target (.inr hp)).not_gt
      exact ⟨_, (phaseStep_quant_some (s := s.popExt) hp hq).trans (execSlotWrCmd_slot (k := k) hk), by simp [hp, hnan]⟩
  · exact ⟨_, phaseStep_encode (s := s.popExt) hp, by simp [hp]⟩
  · exact ⟨_, phaseStep_txa (s := s.popExt) hp, by simp [hp]⟩
  · exact ⟨_, phaseStep_txb (s := s.popExt) hp, by simp [hp]⟩
  · exact absurd hp hne
  · exact absurd hp (phaseOps_ne_none (hs.phaseLegal.resolve_right hne))

end Sys2Proof.Machine

/-! ### QUANT in exact arithmetic (rule R206)

Scaling by 16384.0 is exact unless it overflows to an infinity, `fround_haz` rounds the scaled value to an integer, and
the clamp is one on integers; an infinity is the integer ±2^128, beyond the clamp as every overflowing value is. -/

namespace Sys2Proof.F32

open Sys2Proof.Claims

/-- `m` units of 2^-149 times 16384, rounded to an integer, halves up. -/
def scaledRound (m : Nat) : Nat := (2 * (m * 16384) + 2 ^ 149) / 2 ^ 150

theorem scaledRound_zero : scaledRound 0 = 0 := by norm_num [scaledRound]

theorem exactCommand_eq (v : Int) :
    exactCommand v = if v < 0 then -(scaledRound v.natAbs : Int) else (scaledRound v.natAbs : Int) := rfl

/-- The exact command has the operand's sign and the rounded magnitude. -/
theorem exactCommand_val (a : F32) :
    exactCommand (val a) = if sign a then -(scaledRound (mag a) : Int) else (scaledRound (mag a) : Int) := by
  rw [exactCommand_eq, natAbs_val, val_of_sign]
  cases sign a with
  | false =>
    simp only [Bool.false_eq_true, if_false]
    exact if_neg (by omega)
  | true =>
    simp only [if_true]
    rcases Nat.eq_zero_or_pos (mag a) with hm | hm
    · simp [hm, scaledRound_zero]
    · exact if_pos (by omega)

/-- Below the overflow, scaling by 16384.0 is exact. -/
theorem mul_cmdMax_finite {a : F32} (h : isFinite a = true) : mul a cmdMax = pack (sign a) (mag a * 2 ^ 14) := by
  have hm : mag cmdMax = 2 ^ 14 * 2 ^ 149 := by decide
  have hs : sign cmdMax = false := by decide
  rw [mul_finite h (by decide), hm, hs, Bool.bne_false, ← Nat.mul_assoc,
    roundMag_exact (representable_scale (representable_mag h).1 14) (Nat.two_pow_pos _)]

theorem mul_inf_cmdMax (p : Bool) : mul (inf p) cmdMax = inf p := by cases p <;> decide

/-- QUANT's scaled and rounded value: the exact rounding under the operand's sign, or the infinity of that sign where
the scaled magnitude overflows. -/
theorem roundHaz_scaled_cases {a : F32} (h : isNan a = false) :
    (sign (roundHaz (mul a cmdMax)) = sign a ∧ mag (roundHaz (mul a cmdMax)) = scaledRound (mag a) * 2 ^ 149)
      ∨ (2 ^ 277 ≤ mag a * 2 ^ 14 ∧ roundHaz (mul a cmdMax) = inf (sign a)) := by
  cases hf : isFinite a with
  | true =>
    rw [mul_cmdMax_finite hf]
    rcases Nat.lt_or_ge (mag a * 2 ^ 14) (2 ^ 277) with hlt | hge
    · obtain ⟨hfin, hsign, hmag⟩ :=
        pack_representable (s := sign a) (representable_scale (representable_mag hf).1 14) hlt
      obtain ⟨-, hsign', hmag'⟩ := roundHaz_finite hfin
      exact .inl ⟨hsign'.trans hsign, by rw [hmag', hmag]; rfl⟩
    · rw [pack_large hge]
      exact .inr ⟨hge, roundHaz_of_not_finite (isFinite_inf _)⟩
  | false =>
    have hmag : mag a = 2 ^ 23 * 2 ^ 254 := by rw [eq_inf h hf, mag_inf]
    have hbig : 2 ^ 277 ≤ 2 ^ 23 * 2 ^ 254 * 2 ^ 14 := by
      rw [← Nat.pow_add, ← Nat.pow_add]
      exact Nat.pow_le_pow_right (by decide) (by decide)
    rw [hmag, eq_inf h hf, mul_inf_cmdMax, sign_inf]
    exact .inr ⟨hbig, roundHaz_of_not_finite (isFinite_inf _)⟩

/-- An overflowing magnitude is beyond the clamp. -/
theorem scaledRound_of_overflow {m : Nat} (h : 2 ^ 277 ≤ m * 2 ^ 14) : 16384 ≤ scaledRound m := by
  rw [scaledRound, Nat.le_div_iff_mul_le (Nat.two_pow_pos _)]
  have hpow : 2 ^ 14 * 2 ^ 150 ≤ 2 ^ 277 := by
    rw [← Nat.pow_add]
    exact Nat.pow_le_pow_right (by decide) (by decide)
  generalize 2 ^ 277 = P at h hpow
  omega

theorem toInt_of_val {a : F32} {z : Int} (h : val a = z * 2 ^ 149) : toInt a = z := by
  rw [toInt, h, Int.mul_ediv_cancel _ (by positivity)]

theorem val_cmdMin : val cmdMin = -16384 * 2 ^ 149 := by decide

theorem val_cmdMax : val cmdMax = 16384 * 2 ^ 149 := by decide

/-- The clamp to ±16384.0 of an integral value is the clamp of the integer. -/
theorem toInt_clamp {r : F32} {z : Int} (hn : isNan r = false) (hv : val r = z * 2 ^ 149) :
    toInt (clamp FP.binary32 r cmdMin cmdMax) = max (-16384) (min 16384 z) := by
  have hP : (0 : Int) < 2 ^ 149 := by positivity
  have hlo : lt r cmdMin = true ↔ z < -16384 := by
    rw [(cmp_of_not_isNan hn (by decide)).1, decide_eq_true_iff, hv, val_cmdMin, Int.mul_lt_mul_right hP]
  have hhi : lt cmdMax r = true ↔ 16384 < z := by
    rw [(cmp_of_not_isNan (by decide) hn).1, decide_eq_true_iff, hv, val_cmdMax, Int.mul_lt_mul_right hP]
  rcases Machine.clamp_cases r cmdMin cmdMax with ⟨h1, e⟩ | ⟨h1, h2, e⟩ | ⟨h1, h2, e⟩ <;> rw [e]
  · rw [toInt_of_val val_cmdMin]
    have := hlo.mp h1
    omega
  · rw [toInt_of_val val_cmdMax]
    have := hhi.mp h2
    omega
  · rw [toInt_of_val hv]
    rw [← Bool.not_eq_true, hlo] at h1
    rw [← Bool.not_eq_true, hhi] at h2
    omega

/-- QUANT's integer is the exact command held to ±16384. -/
theorem toInt_quantized {a : F32} (h : isNan a = false) :
    toInt (clamp FP.binary32 (roundHaz (mul a cmdMax)) cmdMin cmdMax)
      = max (-16384) (min 16384 (exactCommand (val a))) := by
  have hn : isNan (roundHaz (mul a cmdMax)) = false := Machine.isNan_roundHaz (Machine.isNan_mul_cmdMax h)
  rcases roundHaz_scaled_cases h with ⟨hsign, hmag⟩ | ⟨hbig, hinf⟩
  · refine toInt_clamp hn ?_
    rw [val_of_sign, hsign, hmag, exactCommand_val]
    cases sign a <;> simp
  · have hval : val (roundHaz (mul a cmdMax)) = (if sign a then -2 ^ 128 else 2 ^ 128) * 2 ^ 149 := by
      rw [hinf]
      cases sign a <;> decide
    have hE := scaledRound_of_overflow hbig
    rw [toInt_clamp hn hval, exactCommand_val]
    cases sign a with
    | false => simp only [Bool.false_eq_true, if_false]; omega
    | true => simp only [if_true]; omega

end Sys2Proof.F32

namespace Sys2Proof.Machine

/-- QUANT on anything but a NaN, in the evaluation order of rule R206. -/
theorem exec_quant {s : State} (h : s.params.arith.isNan s.lat.out = false) :
    exec .quant s = .next (s.quantized (BitVec.ofInt 16 (s.params.arith.f32ToInt (clamp s.params.arith
      (s.params.arith.froundHaz (s.params.arith.fmul s.lat.out F32.cmdMax)) F32.cmdMin F32.cmdMax)))) := by
  simp [exec, execQuant, quantize, h, State.quantized]

/-- Settles O35: the first part is the quantiser as it stands, the second its value on the default record. -/
theorem quantRoundsHalfAwayAndSaturates : Obligations.QuantRoundsHalfAwayAndSaturates := by
  unfold Obligations.QuantRoundsHalfAwayAndSaturates
  refine ⟨fun s h => exec_quant h, fun s hb h => ?_⟩
  refine ⟨_, exec_quant (by rw [arith_binary32 hb]; exact h), ?_⟩
  rw [arith_binary32 hb, binary32_f32ToInt, binary32_froundHaz, binary32_fmul, F32.toInt_quantized h,
    BitVec.toInt_ofInt, Int.bmod_eq_of_le] <;> omega

end Sys2Proof.Machine

/-! ### Fault entries (rules R239 to R242) -/

namespace Sys2Proof.Machine

open Sys2Proof.Claims

/-- Between the two states the block has entered HALT: the fault is recorded with a cause of rule R230, and no register
but the fault registers and PHASE is written, nor anything sent or reported (rule R241). -/
structure FaultEntry (s t : State) : Prop where
  fault : t.flt.fault = true
  causePos : 1 ≤ t.flt.cause.toNat
  causeLe : t.flt.cause.toNat ≤ 4
  rf : t.rf = s.rf
  param : t.param = s.param
  rt : t.rt = s.rt
  cfg : t.cfg = s.cfg
  loop : t.loop = s.loop
  lat : t.lat = s.lat
  outs : t.outs = s.outs

theorem FaultEntry.raise (s : State) {c : BitVec 3} (hpos : 1 ≤ c.toNat) (hle : c.toNat ≤ 4) (v : BitVec 32) :
    FaultEntry s (s.raise c v) := ⟨rfl, hpos, hle, rfl, rfl, rfl, rfl, rfl, rfl, rfl⟩

section
variable {s t : State}

theorem registryUpdate_faultEntry (d : Option Telem) (h : (registryUpdate d s).phase = 15#4) :
    FaultEntry s (registryUpdate d s) := by
  rcases registryUpdate_cases d s with e | ⟨x, k, -, -, e⟩ | ⟨x, -, -, -, e⟩ <;> rw [e] at h ⊢
  · exact absurd h (show Phase.lookup ≠ 15#4 by decide)
  · exact absurd h (show Phase.lookup ≠ 15#4 by decide)
  · exact .raise s (by decide) (by decide) _

/-- Also where the decoded frame was latched on the way to REG_UPDATE. -/
theorem routeTelemetry_faultEntry {idx : Int} {a : U16} {r c : I16} {x : Byte}
    (h : (routeTelemetry idx a r c x s).phase = 15#4) : FaultEntry s (routeTelemetry idx a r c x s) :=
  { registryUpdate_faultEntry _ h with }

theorem calcStep_faultEntry (e : F32) (h : (calcStep e s).phase = 15#4) : FaultEntry s (calcStep e s) := by
  rcases calcStep_cases e s with ⟨-, e⟩ | ⟨-, e⟩ <;> rw [e] at h ⊢
  · exact absurd h (show Phase.quant ≠ 15#4 by decide)
  · exact .raise s (by decide) (by decide) _

/-- EXEC_CMD on the word of a host command is the command (rule R213). -/
theorem execCmdWord_encoded {i : Instr} {w : CmdWord} (h : encode i = .cmd w) (s : State) :
    execCmdWord w s = exec i s :=
  execCmdWord_decoded ((congrArg decode h).symm.trans (decodeOfEncodeIsTheInstruction i)) s

/-- Of the host commands only SET_PARAM and SET_LIMIT enter HALT, where LIMIT_CHECK fails. -/
theorem execCmdWord_faultEntry {w : CmdWord} (h : execCmdWord w s = .next t) (ht : t.phase = 15#4)
    (hs : s.phase ≠ 15#4) : FaultEntry s t := by
  obtain ⟨u, e, hc⟩ := execCmdWord_cases w s
  cases h.symm.trans e
  rcases hc with ⟨-, rfl⟩ | ⟨_, -, -, rfl, -⟩ | ⟨_, _, _, lo, _, -, -, rfl, -⟩ | ⟨_, _, _, -, rfl⟩
    | ⟨_, _, -, -, rfl, -⟩ | ⟨lo, _, -, -, rfl, -⟩ | ⟨_, -, rfl⟩ | ⟨_, -, rfl⟩ | ⟨_, _, -, rfl⟩ | ⟨-, rfl⟩
    | ⟨-, rfl⟩
  case inr.inr.inl | inr.inr.inr.inr.inr.inl => exact .raise s (by decide) (by decide) lo
  all_goals exact absurd ht hs

theorem execIdleStep_faultEntry (h : execIdleStep s = .next t) (ht : t.phase = 15#4) (hs : s.phase ≠ 15#4) :
    FaultEntry s t := by
  rcases execIdleStep_cases s with ⟨w, -, e⟩ | ⟨-, -, e⟩ | ⟨-, -, e⟩
  · exact { execCmdWord_faultEntry (e.symm.trans h) ht hs with }
  · cases e.symm.trans h
    exact absurd ht (show Phase.rx ≠ 15#4 by decide)
  · cases e.symm.trans h
    exact absurd ht hs

theorem exec_quant_nan (h : s.params.arith.isNan s.lat.out = true) :
    exec .quant s = .next (faulted s 3#3 s.lat.out) := by
  simp only [exec, execQuant, quantize_none.mpr h]
  rfl

theorem execSlotRd_faultEntry (h : execSlotRd s = .next t) (ht : t.phase = 15#4) : FaultEntry s t := by
  rcases target_cases s with ⟨k, hk⟩ | hk
  · cases (execSlotRd_slot hk).symm.trans h
    exact absurd ht (show Phase.compute ≠ 15#4 by decide)
  · cases (execSlotRd_fault hk).symm.trans h
    exact .raise s (by decide) (by decide) _

theorem execSlotWrCmd_faultEntry (h : execSlotWrCmd s = .next t) (ht : t.phase = 15#4) : FaultEntry s t := by
  rcases target_cases s with ⟨k, hk⟩ | hk
  · cases (execSlotWrCmd_slot hk).symm.trans h
    exact absurd ht (show Phase.encode ≠ 15#4 by decide)
  · cases (execSlotWrCmd_fault hk).symm.trans h
    exact .raise s (by decide) (by decide) _

theorem execQuant_faultEntry (h : exec .quant s = .next t) (ht : t.phase = 15#4) (hs : s.phase ≠ 15#4) :
    FaultEntry s t := by
  cases hn : s.params.arith.isNan s.lat.out with
  | true =>
    cases (exec_quant_nan hn).symm.trans h
    exact .raise s (by decide) (by decide) _
  | false =>
    cases (exec_quant hn).symm.trans h
    exact absurd ht hs

end

/-- Settles O3, by the operation: one that enters HALT ends in the fault entry, before which it has written operand
latches and taken answers of the environment at most. -/
theorem enteringHaltChangesOnlyFaultRegistersAndPhase :
    Obligations.EnteringHaltChangesOnlyFaultRegistersAndPhase := by
  unfold Obligations.EnteringHaltChangesOnlyFaultRegistersAndPhase
  intro i s t h ht hs
  suffices FaultEntry s t by
    obtain ⟨hfault, hpos, hle, hrf, hparam, hrt, hcfg, hloop, hlat, houts⟩ := this
    exact ⟨hfault, hpos, hle, hrf, hparam, hrt, hcfg, hloop, hlat, houts⟩
  cases i with
  | telem200 | telem201 | telem202 | telem203 | telem204 | telem205 | telem206 | telem207 | telem208 =>
    cases h
    exact routeTelemetry_faultEntry ht
  | regUpdate =>
    cases h
    exact registryUpdate_faultEntry _ ht
  | pidReset | setParam | setGain | setLimit | setTarget | setSlot | setPeriod | start =>
    exact execCmdWord_faultEntry ((execCmdWord_encoded rfl s).trans h) ht hs
  | idleStep => exact execIdleStep_faultEntry h ht hs
  | slotRd => exact execSlotRd_faultEntry h ht
  | calcPid =>
    cases h
    exact calcStep_faultEntry _ ht
  | calc3 =>
    cases h
    exact { calcStep_faultEntry (s := s.withError) _ ht with }
  | quant => exact execQuant_faultEntry h ht hs
  | slotWrCmd => exact execSlotWrCmd_faultEntry h ht
  | decodeTelemetry | snapshot | dbgRead =>
    cases h
    exact absurd ht hs
  | tryReceive =>
    cases h
    exact absurd ht (show Phase.decode ≠ 15#4 by decide)
  | encodeCommands =>
    cases h
    exact absurd ht (show Phase.txa ≠ 15#4 by decide)
  | cmdFrameA | cmdFrameB | trySendA | trySendB =>
    cases h
    exact absurd ((offerFrame_phase ..).symm.trans ht) (by decide)
  | halt => cases h

/-- Settles O4, site by site; CALC3 has latched its error when CALC faults. -/
theorem faultsRecordCauseAndOffendingValue : Obligations.FaultsRecordCauseAndOffendingValue := by
  unfold Obligations.FaultsRecordCauseAndOffendingValue
  refine ⟨fun s h => ⟨exec_calcPid_fault h, _, (exec_calc3 s).trans (exec_calcPid_fault (s := s.withError) h)⟩,
    fun s d hd hidx hp => ?_, fun s h => ⟨execSlotRd_fault h, execSlotWrCmd_fault h⟩, fun s => exec_quant_nan,
    fun s kp ki kd lo hi h => ⟨exec_setParam_of_not_fle kp ki kd h, exec_setLimit_of_not_fle h⟩⟩
  rw [exec_regUpdate hd, registryUpdate_fault (.inl (by rw [hidx]; decide)) hp, hidx]
  rfl

/-- Settles O2: the phase HALT answers with the fault, and what the outside does comes before the phase is looked at. -/
theorem haltIsTerminalUntilReset : Obligations.HaltIsTerminalUntilReset := by
  unfold Obligations.HaltIsTerminalUntilReset
  refine ⟨fun s => rfl, fun s hp he => ?_, fun s sel _ he => ?_, fun s _ he => ⟨_, step_of_reset he, rfl, rfl⟩⟩
  · exact (step_of_phase he).trans (phaseStep_halt (s := s.popExt) hp)
  · exact ⟨_, step_of_dbgRead he, rfl, ⟨rfl, rfl, rfl, rfl, rfl, rfl, rfl⟩, rfl, rfl, rfl, rfl⟩

end Sys2Proof.Machine

/-! ### Who writes what (rule R245)

An update of the state leaves most registers where they were, so each case of a step starts from an update of PHASE
alone and names the owner of what it writes besides. -/

namespace Sys2Proof.Machine

open Sys2Proof.Claims

/-- What differs between the two states, differs by its owner in the table of rule R245; `tick` says that a tick fires
between them. -/
structure WrittenByOwner (tick : Prop) (s t : State) : Prop where
  telemetry : (∃ i, { t.slot i with commandedCurrent := 0#16 } ≠ { s.slot i with commandedCurrent := 0#16 }) →
    DoesPhase s 2#4
  command : ∀ i, (t.slot i).commandedCurrent ≠ (s.slot i).commandedCurrent →
    DoesPhase s 5#4 ∧ s.cfg.targetSlot.toNat = i.val
  rt : t.rt ≠ s.rt → DoesPhase s 4#4 ∨ RunsCommand s [1#4, 2#4, 3#4]
  gains : (t.param.kp, t.param.ki, t.param.kd) ≠ (s.param.kp, s.param.ki, s.param.kd) → RunsCommand s [2#4, 3#4]
  limits : (t.param.min, t.param.max) ≠ (s.param.min, s.param.max) → RunsCommand s [2#4, 4#4]
  targetRpm : t.cfg.targetRpm ≠ s.cfg.targetRpm → RunsCommand s [5#4]
  targetSlot : t.cfg.targetSlot ≠ s.cfg.targetSlot → RunsCommand s [6#4]
  period : t.cfg.period ≠ s.cfg.period → RunsCommand s [7#4]
  run : t.loop.run ≠ s.loop.run → t.loop.run = true ∧ RunsCommand s [8#4]
  lastTick : t.loop.lastTick ≠ s.loop.lastTick → RunsCommand s [8#4] ∨ tick
  dtLatch : t.loop.dtLatch ≠ s.loop.dtLatch → tick
  phase : t.phase ≠ s.phase → s.extAnswer = none ∧ s.phase ≠ 15#4
  rxf : t.lat.rxf ≠ s.lat.rxf → DoesPhase s 1#4
  act : t.lat.act ≠ s.lat.act → DoesPhase s 3#4
  out : t.lat.out ≠ s.lat.out → DoesPhase s 4#4
  frames : (t.lat.fra, t.lat.frb) ≠ (s.lat.fra, s.lat.frb) → DoesPhase s 6#4
  flt : t.flt ≠ s.flt → t.phase = 15#4 ∧ s.phase ≠ 15#4

/-- No register differs between the two states: what the exchanges with the environment leave. -/
structure SameBlock (s u : State) : Prop where
  rf : u.rf = s.rf
  param : u.param = s.param
  rt : u.rt = s.rt
  cfg : u.cfg = s.cfg
  phase : u.phase = s.phase
  loop : u.loop = s.loop
  flt : u.flt = s.flt
  lat : u.lat = s.lat

theorem SameBlock.popExt (s : State) : SameBlock s s.popExt := ⟨rfl, rfl, rfl, rfl, rfl, rfl, rfl, rfl⟩

theorem SameBlock.asked (s : State) : SameBlock s s.popExt.asked := by constructor <;> simp

section
variable {tick : Prop} {s u : State}

/-- The control loop writes PHASE, outside HALT. -/
theorem WrittenByOwner.withPhase (hu : SameBlock s u) {p : BitVec 4}
    (h : p ≠ s.phase → s.extAnswer = none ∧ s.phase ≠ 15#4) : WrittenByOwner tick s (u.withPhase p) where
  telemetry := fun ⟨i, c⟩ => absurd (by rw [State.slot_withPhase, State.slot_of_rf hu.rf]) c
  command := fun i c => absurd (by rw [State.slot_withPhase, State.slot_of_rf hu.rf]) c
  rt := absurd hu.rt
  gains := absurd (by rw [State.withPhase_param, hu.param])
  limits := absurd (by rw [State.withPhase_param, hu.param])
  targetRpm := absurd (congrArg _ hu.cfg)
  targetSlot := absurd (congrArg _ hu.cfg)
  period := absurd (congrArg _ hu.cfg)
  run := absurd (congrArg _ hu.loop)
  lastTick := absurd (congrArg _ hu.loop)
  dtLatch := absurd (congrArg _ hu.loop)
  phase := h
  rxf := absurd (congrArg _ hu.lat)
  act := absurd (congrArg _ hu.lat)
  out := absurd (congrArg _ hu.lat)
  frames := absurd (by rw [State.withPhase_lat, hu.lat])
  flt := absurd hu.flt

theorem WrittenByOwner.ofSameBlock (hu : SameBlock s u) : WrittenByOwner tick s u :=
  withPhase (p := u.phase) hu (absurd hu.phase)

/-- A phase other than HALT moves PHASE. -/
theorem WrittenByOwner.ofDoesPhase (hu : SameBlock s u) {q : BitVec 4} (h : DoesPhase s q) (hq : q ≠ 15#4)
    (p : BitVec 4) : WrittenByOwner tick s (u.withPhase p) :=
  withPhase hu fun _ => ⟨h.1, fun e => hq (h.2.symm.trans e)⟩

/-- A phase other than HALT enters the fault. -/
theorem WrittenByOwner.raise (hu : SameBlock s u) {q : BitVec 4} (h : DoesPhase s q) (hq : q ≠ 15#4) (c : BitVec 3)
    (v : BitVec 32) : WrittenByOwner tick s (u.raise c v) :=
  { ofDoesPhase hu h hq Phase.halt with flt := fun _ => ⟨rfl, fun e => hq (h.2.symm.trans e)⟩ }

/-- REG_UPDATE writes the telemetry fields of one slot, or enters the fault. -/
theorem WrittenByOwner.registryUpdate (h : DoesPhase s 2#4) (d : Option Telem) :
    WrittenByOwner tick s (registryUpdate d s.popExt.decoded) := by
  rcases registryUpdate_cases d s.popExt.decoded with e | ⟨x, k, -, -, e⟩ | ⟨x, -, -, -, e⟩ <;> rw [e]
  · exact { WrittenByOwner.ofDoesPhase (.popExt s) h (by decide) Phase.lookup with }
  · exact { WrittenByOwner.ofDoesPhase (.popExt s) h (by decide) Phase.lookup with
      telemetry := fun _ => h
      command := fun i c => absurd (State.command_putTelemetry s.popExt.decoded k i x) c }
  · exact { WrittenByOwner.raise (.popExt s) h (by decide) _ _ with }

/-- CALC writes the runtime registers and OUT, or enters the fault. -/
theorem WrittenByOwner.calcStep (h : DoesPhase s 4#4) (e : F32) :
    WrittenByOwner tick s (calcStep e s.popExt.withError) := by
  rcases calcStep_cases e s.popExt.withError with ⟨-, e⟩ | ⟨-, e⟩ <;> rw [e]
  · exact { WrittenByOwner.ofDoesPhase (.popExt s) h (by decide) Phase.quant with
      rt := fun _ => .inl h
      out := fun _ => h }
  · exact { WrittenByOwner.raise (.popExt s) h (by decide) _ _ with }

/-- SLOT_WR_CMD's write leaves every telemetry field alone (rule R135). -/
theorem State.telemetry_putCommand (s : State) (i j : Fin 8) (q : I16) :
    { (s.putCommand i q).slot j with commandedCurrent := 0#16 } = { s.slot j with commandedCurrent := 0#16 } := by
  by_cases h : j = i
  · subst h; simp
  · rw [s.slot_putCommand_other q h]

/-- SLOT_WR_CMD's write leaves the command of every other slot alone (rule R135). -/
theorem State.eq_of_command_putCommand_ne {i j : Fin 8} {q : I16}
    (h : ((s.putCommand i q).slot j).commandedCurrent ≠ (s.slot j).commandedCurrent) : j = i := by
  by_contra hj
  exact h (congrArg Slot.commandedCurrent (s.slot_putCommand_other q hj))

/-- SLOT_WR_CMD writes one command, the target slot's. -/
theorem WrittenByOwner.putCommand (h : DoesPhase s 5#4) {k : Fin 8} (hk : s.cfg.targetSlot.toNat = k.val) (q : I16) :
    WrittenByOwner tick s (((s.popExt.quantized q).putCommand k q).withPhase Phase.encode) :=
  { WrittenByOwner.ofDoesPhase (.popExt s) h (by decide) Phase.encode with
    telemetry := fun ⟨i, c⟩ => absurd (State.telemetry_putCommand (s.popExt.quantized q) k i q) c
    command := fun i c => by
      have hi : i = k := State.eq_of_command_putCommand_ne (s := s.popExt.quantized q) c
      exact ⟨h, hi ▸ hk⟩ }

/-- An offer writes no register but PHASE. -/
theorem WrittenByOwner.offerFrame {q : BitVec 4} (h : DoesPhase s q) (hq : q ≠ 15#4) (f : Frame) (e : DiagEvent)
    (p : BitVec 4) : WrittenByOwner tick s (offerFrame f e p s.popExt) := by
  rw [offerFrame_eq]
  exact { WrittenByOwner.ofDoesPhase (.popExt s) h hq p with }

theorem LoopRegs.started_dtLatch (l : LoopRegs) (t : Time) : (l.started t).dtLatch = l.dtLatch := by
  unfold LoopRegs.started
  split <;> rfl

/-- START never writes RUN back to 0. -/
theorem LoopRegs.started_run (l : LoopRegs) (t : Time) : (l.started t).run = true := by
  unfold LoopRegs.started
  split
  · assumption
  · rfl

/-- A host command writes what its opcode owns. -/
theorem WrittenByOwner.execCmdWord (hp : DoesPhase s 0#4) (hu : SameBlock s u) {w : CmdWord}
    (hw : s.popExt.sampleNow.cmdAnswer = some w) {t : State} (h : execCmdWord w u = .next t) :
    WrittenByOwner tick s t := by
  have runs : ∀ {op ops}, cmdOp w = op → op ∈ ops → RunsCommand s ops := fun e hm => ⟨hp.1, hp.2, w, hw, e ▸ hm⟩
  have idle := WrittenByOwner.ofSameBlock (tick := tick) hu
  obtain ⟨_, e, hc⟩ := execCmdWord_cases w u
  cases h.symm.trans e
  rcases hc with ⟨op, rfl⟩ | ⟨p, op, -, rfl, -⟩ | ⟨_, _, _, lo, _, -, -, rfl, -⟩ | ⟨_, _, _, op, rfl⟩
    | ⟨_, _, op, -, rfl, -⟩ | ⟨lo, _, -, -, rfl, -⟩ | ⟨_, op, rfl⟩ | ⟨_, op, rfl⟩ | ⟨_, _, op, rfl⟩ | ⟨op, rfl⟩
    | ⟨-, rfl⟩
  · exact { idle with rt := fun _ => .inr (runs op (by decide)) }
  · exact { idle with
      rt := fun _ => .inr (runs op (by decide))
      gains := fun _ => runs op (by decide)
      limits := fun _ => runs op (by decide) }
  · exact { WrittenByOwner.raise hu hp (by decide) Cause.limitOrder lo with }
  · exact { idle with rt := fun _ => .inr (runs op (by decide)), gains := fun _ => runs op (by decide) }
  · exact { idle with limits := fun _ => runs op (by decide) }
  · exact { WrittenByOwner.raise hu hp (by decide) Cause.limitOrder lo with }
  · exact { idle with targetRpm := fun _ => runs op (by decide) }
  · exact { idle with targetSlot := fun _ => runs op (by decide) }
  · exact { idle with period := fun _ => runs op (by decide) }
  · exact { idle with
      run := fun _ => ⟨LoopRegs.started_run .., runs op (by decide)⟩
      lastTick := fun _ => .inl (runs op (by decide))
      dtLatch := fun c => absurd ((LoopRegs.started_dtLatch ..).trans (congrArg _ hu.loop)) c }
  · exact { idle with }

/-- An IDLE step runs a command, fires a tick or writes nothing. -/
theorem WrittenByOwner.execIdleStep (hp : DoesPhase s 0#4) {t : State} (h : execIdleStep s.popExt = .next t) :
    WrittenByOwner (FiresTick s t) s t := by
  rcases execIdleStep_cases s.popExt with ⟨w, hw, e⟩ | ⟨hn, -, e⟩ | ⟨-, -, e⟩
  · exact .execCmdWord hp (.asked s) hw (e.symm.trans h)
  · cases e.symm.trans h
    have fires : FiresTick s s.popExt.asked.fireTick := ⟨hp.1, hp.2, rfl, hn⟩
    have hphase : WrittenByOwner (FiresTick s s.popExt.asked.fireTick) s (s.popExt.asked.withPhase Phase.rx) :=
      .ofDoesPhase (.asked s) hp (by decide) Phase.rx
    exact { hphase with
      lastTick := fun _ => .inr fires
      dtLatch := fun _ => fires }
  · cases e.symm.trans h
    exact .ofSameBlock (.asked s)

/-- Each phase writes what it owns. -/
theorem WrittenByOwner.phaseStep (he : s.extAnswer = none) {t : State} (h : phaseStep s.popExt = .next t) :
    WrittenByOwner (FiresTick s t) s t := by
  rcases phaseStep_next h with ⟨hp, h⟩ | ⟨hp, rfl⟩ | ⟨hp, rfl⟩ | ⟨hp, k, -, rfl⟩ | ⟨hp, -, rfl⟩ | ⟨hp, rfl⟩
    | ⟨hp, -, rfl⟩ | ⟨hp, q, -, k, hk, rfl⟩ | ⟨hp, q, -, -, rfl⟩ | ⟨hp, rfl⟩ | ⟨hp, rfl⟩ | ⟨hp, rfl⟩
  · exact .execIdleStep ⟨he, hp⟩ h
  · exact { ofDoesPhase (.popExt s) ⟨he, hp⟩ (by decide) Phase.decode with rxf := fun _ => ⟨he, hp⟩ }
  · exact .registryUpdate ⟨he, hp⟩ _
  · exact { ofDoesPhase (.popExt s) ⟨he, hp⟩ (by decide) Phase.compute with act := fun _ => ⟨he, hp⟩ }
  · exact { raise (.popExt s) ⟨he, hp⟩ (by decide) _ _ with }
  · exact .calcStep ⟨he, hp⟩ _
  · exact { raise (.popExt s) ⟨he, hp⟩ (by decide) _ _ with }
  · exact .putCommand ⟨he, hp⟩ hk q
  · exact { raise (.popExt s) ⟨he, hp⟩ (by decide) _ _ with }
  · exact { ofDoesPhase (.popExt s) ⟨he, hp⟩ (by decide) Phase.txa with frames := fun _ => ⟨he, hp⟩ }
  · exact .offerFrame ⟨he, hp⟩ (by decide) ..
  · exact .offerFrame ⟨he, hp⟩ (by decide) ..

end

/-- Settles O48, by the cases of a step: a debug read writes no register, and each phase writes what it owns. -/
theorem stateIsWrittenOnlyByItsOwner : Obligations.StateIsWrittenOnlyByItsOwner := by
  unfold Obligations.StateIsWrittenOnlyByItsOwner
  intro s t hr h
  have hw : WrittenByOwner (FiresTick s t) s t := by
    rcases step_next h with ⟨he, -⟩ | ⟨_, -, rfl⟩ | ⟨he, h⟩
    · exact absurd he hr
    · exact { WrittenByOwner.ofSameBlock (.popExt s) with }
    · exact .phaseStep he h
  exact ⟨hw.telemetry, hw.command, hw.rt, hw.gains, hw.limits, hw.targetRpm, hw.targetSlot, hw.period, hw.run,
    hw.lastTick, hw.dtLatch, hw.phase, hw.rxf, hw.act, hw.out, hw.frames, hw.flt, step_params h⟩

end Sys2Proof.Machine
